-- ==== Sys2Proof/Word.lean ====
section
/-! DEFINITION. The bit-vector types of the F256 arithmetic block (00_scope.md R7, R8; 10_state.md R14). -/

namespace Sys2Proof

/-- A data register's contents: 1024 bits, bit 0 least significant (R8, R14). -/
abbrev Data := BitVec 1024

/-- A command word, and the width of CIX, FCMD, FCIX and STATUS (R7, R17, R19, R24, R25). -/
abbrev Cmd := BitVec 32

/-- A packed float: sign 255, biased exponent 254:236, fraction 235:0 (R89). -/
abbrev Packed := BitVec 256

/-- The number of a data register r0 .. r15 (R14, R42). -/
abbrev RegId := Fin 16

end Sys2Proof
end

