-- ==== Sys2Proof/Config.lean ====
section
/-! DEFINITION. The parameters of 00_scope.md R7 and 43_float_format.md R90, and the one free value of the block:
what a Reset action leaves in a data register (10_state.md R16, 70_reset_and_hazards.md R127). -/

namespace Sys2Proof

/-- LIMB: the width of an integer's bottom limb (R7, R32). -/
abbrev Config.limbBits : Nat := 128

/-- RW: the width of a data register (R7). -/
abbrev Config.regBits : Nat := 1024

/-- FLEN: the width of a packed float, at which every float command reads its sources (R7, R15). -/
abbrev Config.floatBits : Nat := 256

/-- FSIZE: the width of the fraction field; the precision is one more, with the implicit bit (R7, R90). -/
abbrev Config.fracBits : Nat := 236

/-- BIAS = 2^18 - 1 (R90; 90_conflicts.md C1 chooses it over the source's approximate figure). -/
abbrev Config.bias : Int := 262143

/-- EMAX (R90). -/
abbrev Config.emax : Int := 262143

/-- EMIN = 1 - EMAX (R90). -/
abbrev Config.emin : Int := -262142

/-- EALL: the all-ones exponent field, 2^19 - 1 (R90). -/
abbrev Config.eall : Nat := 524287

/-- FREE VALUE (log entry 2): the 1024-bit value that the `n`-th Reset action of a run leaves in data register `i`.
R127 leaves every data register with an unspecified value at Reset and R16 forbids a model to give it a fixed one;
this is the spec's parameter UNWRITTEN_READ at its choice `draw`, an arbitrary value taken as an argument of the
model. It has no body, so no proof can depend on what it is. -/
opaque Config.unspecifiedReg (n : Nat) (i : RegId) : Data

end Sys2Proof
end

