-- ==== Sys2Proof/Syntax.lean ====
section
/-! DEFINITION. The commands of the block as syntax: one constructor per row of spec/opcode_table.json
(30_encoding.md R44, R47), its operands in the assembler's order, destinations first (R53). -/

namespace Sys2Proof

/-- The operation width N of an integer command (R43). -/
inductive Width where
  | w128
  | w256
  | w512
  | w1024
deriving DecidableEq, Repr

/-- The 37 commands of R47. An integer command carries its width; a float command has none, since its width code is
always 01 (R43). -/
inductive Instr where
  -- 40_int_addsub.md
  | add (w : Width) (rd rs1 rs2 : RegId)
  | adc (w : Width) (rd rs1 rs2 : RegId)
  | sub (w : Width) (rd rs1 rs2 : RegId)
  | sbb (w : Width) (rd rs1 rs2 : RegId)
  | inc (w : Width) (rd rs1 : RegId)
  | dec (w : Width) (rd rs1 : RegId)
  | cmp (w : Width) (rd rs1 rs2 : RegId)
  -- 41_int_muldiv.md
  | mulw (w : Width) (rd rd2 rs1 rs2 : RegId)
  | mullo (w : Width) (rd rs1 rs2 : RegId)
  | mulhi (w : Width) (rd rs1 rs2 : RegId)
  | divrem (w : Width) (rd rd2 rs1 rs2 : RegId)
  | rdiv (w : Width) (rd rs1 rs2 : RegId)
  | rdivp2 (w : Width) (rd rs1 rs2 : RegId)
  | rdivp10 (w : Width) (rd rs1 rs2 : RegId)
  -- 42_int_shift_bits.md
  | shl (w : Width) (rd rs1 rs2 : RegId)
  | shr (w : Width) (rd rs1 rs2 : RegId)
  | wshl (w : Width) (rd rd2 rs1 rs2 : RegId)
  | wshr (w : Width) (rd rd2 rs1 rs2 : RegId)
  | cshl (w : Width) (rd rd2 rs1 rs2 rs3 : RegId)
  | cshr (w : Width) (rd rd2 rs1 rs2 rs3 : RegId)
  | clz (w : Width) (rd rs1 : RegId)
  | ctz (w : Width) (rd rs1 : RegId)
  | msb (w : Width) (rd rs1 : RegId)
  | iseven (w : Width) (rd rs1 : RegId)
  | isodd (w : Width) (rd rs1 : RegId)
  -- 44_float_arith.md
  | fadd (rd rs1 rs2 : RegId)
  | fsub (rd rs1 rs2 : RegId)
  | fmul (rd rs1 rs2 : RegId)
  | fdiv (rd rs1 rs2 : RegId)
  | fma (rd rs1 rs2 rs3 : RegId)
  -- 45_float_sign_compare.md
  | fneg (rd rs1 : RegId)
  | fabs (rd rs1 : RegId)
  | fcmp (rd rs1 rs2 : RegId)
  | ftcmp (rd rs1 rs2 : RegId)
  -- 43_float_format.md
  | fclass (rd rs1 : RegId)
  | fpack (rd rs1 rs2 rs3 : RegId)
  | funpack (rd rd2 rd3 rs1 : RegId)
deriving DecidableEq, Repr

/-- The destination registers a command names: rd, rd2, rd3 as its format has them (R44). -/
def Instr.dests : Instr → List RegId
  | .add _ rd _ _ | .adc _ rd _ _ | .sub _ rd _ _ | .sbb _ rd _ _ | .inc _ rd _ | .dec _ rd _ | .cmp _ rd _ _ => [rd]
  | .mulw _ rd rd2 _ _ | .divrem _ rd rd2 _ _ => [rd, rd2]
  | .mullo _ rd _ _ | .mulhi _ rd _ _ | .rdiv _ rd _ _ | .rdivp2 _ rd _ _ | .rdivp10 _ rd _ _ => [rd]
  | .shl _ rd _ _ | .shr _ rd _ _ => [rd]
  | .wshl _ rd rd2 _ _ | .wshr _ rd rd2 _ _ | .cshl _ rd rd2 _ _ _ | .cshr _ rd rd2 _ _ _ => [rd, rd2]
  | .clz _ rd _ | .ctz _ rd _ | .msb _ rd _ | .iseven _ rd _ | .isodd _ rd _ => [rd]
  | .fadd rd _ _ | .fsub rd _ _ | .fmul rd _ _ | .fdiv rd _ _ | .fma rd _ _ _ => [rd]
  | .fneg rd _ | .fabs rd _ | .fcmp rd _ _ | .ftcmp rd _ _ | .fclass rd _ | .fpack rd _ _ _ => [rd]
  | .funpack rd rd2 rd3 _ => [rd, rd2, rd3]

/-- The source registers a command names: rs1, rs2, rs3 as its format has them (R44). -/
def Instr.sources : Instr → List RegId
  | .add _ _ a b | .adc _ _ a b | .sub _ _ a b | .sbb _ _ a b | .cmp _ _ a b => [a, b]
  | .inc _ _ a | .dec _ _ a => [a]
  | .mulw _ _ _ a b | .divrem _ _ _ a b => [a, b]
  | .mullo _ _ a b | .mulhi _ _ a b | .rdiv _ _ a b | .rdivp2 _ _ a b | .rdivp10 _ _ a b => [a, b]
  | .shl _ _ a b | .shr _ _ a b | .wshl _ _ _ a b | .wshr _ _ _ a b => [a, b]
  | .cshl _ _ _ a b c | .cshr _ _ _ a b c => [a, b, c]
  | .clz _ _ a | .ctz _ _ a | .msb _ _ a | .iseven _ _ a | .isodd _ _ a => [a]
  | .fadd _ a b | .fsub _ a b | .fmul _ a b | .fdiv _ a b => [a, b]
  | .fma _ a b c | .fpack _ a b c => [a, b, c]
  | .fneg _ a | .fabs _ a | .fclass _ a => [a]
  | .fcmp _ a b | .ftcmp _ a b => [a, b]
  | .funpack _ _ _ a => [a]

end Sys2Proof
end

