-- ==== Sys2Proof/WellFormed.lean ====
section
/-! DEFINITION. Which commands are well formed: the destinations a command names are pairwise different
(30_encoding.md R45). Every other part of R49 is already a matter of the syntax. -/

namespace Sys2Proof

/-- R45: in formats 2D2S and 2D3S rd and rd2 differ, in 3D1S rd, rd2 and rd3 are pairwise different. Sources may
repeat and may equal a destination. -/
def Instr.wf (i : Instr) : Bool := decide i.dests.Nodup

end Sys2Proof
end

