-- ==== Sys2Proof/Decode.lean ====
section
/-! DEFINITION. Decoding a 32-bit command word, total and rejecting by name (30_encoding.md R41 to R51), the encoder
written from the same table, the assembler text of R53, and the host's `decodeTableWord`. -/

namespace Sys2Proof

/-- Why a word is illegal: the four cases of R49. All four raise the one cause ILLEGAL. -/
inductive DecodeReject where
  /-- R49 (a): the opcode is reserved (R48). -/
  | reservedOpcode
  /-- R49 (b): a float command whose width code is not 01 (R43). -/
  | floatWidth
  /-- R49 (c): a field the format does not use is not 0000 (R42). -/
  | unusedField
  /-- R49 (d): a destination is repeated (R45). -/
  | repeatedDestination
deriving DecidableEq, Repr

/-- The eight fields of a command word, in the order of R41's table. -/
structure Fields where
  op  : BitVec 6
  w   : BitVec 2
  rd  : RegId
  rs1 : RegId
  rs2 : RegId
  rs3 : RegId
  rd2 : RegId
  rd3 : RegId
deriving DecidableEq, Repr

/-- The fields of a word, by the bit ranges of R41 and R51. -/
def splitWord (c : Cmd) : Fields where
  op  := c.extractLsb' 26 6
  w   := c.extractLsb' 24 2
  rd  := (c.extractLsb' 20 4).toFin
  rs1 := (c.extractLsb' 16 4).toFin
  rs2 := (c.extractLsb' 12 4).toFin
  rs3 := (c.extractLsb' 8 4).toFin
  rd2 := (c.extractLsb' 4 4).toFin
  rd3 := (c.extractLsb' 0 4).toFin

/-- R41: word = op<<26 | W<<24 | rd<<20 | rs1<<16 | rs2<<12 | rs3<<8 | rd2<<4 | rd3. -/
def joinFields (f : Fields) : Cmd :=
  f.op ++ f.w ++ BitVec.ofFin (w := 4) f.rd ++ BitVec.ofFin (w := 4) f.rs1 ++ BitVec.ofFin (w := 4) f.rs2 ++
    BitVec.ofFin (w := 4) f.rs3 ++ BitVec.ofFin (w := 4) f.rd2 ++ BitVec.ofFin (w := 4) f.rd3

/-- The width an integer command's code selects (R43). -/
def widthOf (c : BitVec 2) : Width :=
  match c.toNat with
  | 0 => .w128
  | 1 => .w256
  | 2 => .w512
  | _ => .w1024

/-- The code of a width (R43). -/
def codeOf : Width → BitVec 2
  | .w128 => 0
  | .w256 => 1
  | .w512 => 2
  | .w1024 => 3

/-! ### The six formats (R44): a field the format does not use is 0000, repeated destinations are refused -/

/-- R42, R49 (c): every one of these fields is 0000. -/
def requireZero (unused : List RegId) (r : Except DecodeReject Instr) : Except DecodeReject Instr :=
  if unused.all (· == 0) then r else .error .unusedField

/-- R45, R49 (d): the destinations are pairwise different. -/
def requireDistinct (dests : List RegId) (r : Except DecodeReject Instr) : Except DecodeReject Instr :=
  if dests.Nodup then r else .error .repeatedDestination

/-- R43, R49 (b): a float command has width code 01. -/
def floatOnly (f : Fields) (r : Except DecodeReject Instr) : Except DecodeReject Instr :=
  if f.w = 1 then r else .error .floatWidth

/-- Format 1D1S (R44). -/
def fmt1D1S (f : Fields) (k : RegId → RegId → Instr) : Except DecodeReject Instr :=
  requireZero [f.rs2, f.rs3, f.rd2, f.rd3] (.ok (k f.rd f.rs1))

/-- Format 1D2S (R44). -/
def fmt1D2S (f : Fields) (k : RegId → RegId → RegId → Instr) : Except DecodeReject Instr :=
  requireZero [f.rs3, f.rd2, f.rd3] (.ok (k f.rd f.rs1 f.rs2))

/-- Format 1D3S (R44). -/
def fmt1D3S (f : Fields) (k : RegId → RegId → RegId → RegId → Instr) : Except DecodeReject Instr :=
  requireZero [f.rd2, f.rd3] (.ok (k f.rd f.rs1 f.rs2 f.rs3))

/-- Format 2D2S (R44, R45). -/
def fmt2D2S (f : Fields) (k : RegId → RegId → RegId → RegId → Instr) : Except DecodeReject Instr :=
  requireZero [f.rs3, f.rd3] (requireDistinct [f.rd, f.rd2] (.ok (k f.rd f.rd2 f.rs1 f.rs2)))

/-- Format 2D3S (R44, R45). -/
def fmt2D3S (f : Fields) (k : RegId → RegId → RegId → RegId → RegId → Instr) : Except DecodeReject Instr :=
  requireZero [f.rd3] (requireDistinct [f.rd, f.rd2] (.ok (k f.rd f.rd2 f.rs1 f.rs2 f.rs3)))

/-- Format 3D1S (R44, R45). -/
def fmt3D1S (f : Fields) (k : RegId → RegId → RegId → RegId → Instr) : Except DecodeReject Instr :=
  requireZero [f.rs2, f.rs3] (requireDistinct [f.rd, f.rd2, f.rd3] (.ok (k f.rd f.rd2 f.rd3 f.rs1)))

/-- The opcode map of R47. Every opcode it does not list is reserved (R48). -/
def decodeFields (f : Fields) : Except DecodeReject Instr :=
  match f.op.toNat with
  | 0x01 => fmt1D2S f (.add (widthOf f.w))
  | 0x02 => fmt1D2S f (.adc (widthOf f.w))
  | 0x03 => fmt1D2S f (.sub (widthOf f.w))
  | 0x04 => fmt1D2S f (.sbb (widthOf f.w))
  | 0x05 => fmt1D1S f (.inc (widthOf f.w))
  | 0x06 => fmt1D1S f (.dec (widthOf f.w))
  | 0x07 => fmt1D2S f (.cmp (widthOf f.w))
  | 0x08 => fmt2D2S f (.mulw (widthOf f.w))
  | 0x09 => fmt1D2S f (.mullo (widthOf f.w))
  | 0x0A => fmt1D2S f (.mulhi (widthOf f.w))
  | 0x0B => fmt2D2S f (.divrem (widthOf f.w))
  | 0x0C => fmt1D2S f (.rdiv (widthOf f.w))
  | 0x0D => fmt1D2S f (.rdivp2 (widthOf f.w))
  | 0x0E => fmt1D2S f (.rdivp10 (widthOf f.w))
  | 0x10 => fmt1D2S f (.shl (widthOf f.w))
  | 0x11 => fmt1D2S f (.shr (widthOf f.w))
  | 0x12 => fmt2D2S f (.wshl (widthOf f.w))
  | 0x13 => fmt2D2S f (.wshr (widthOf f.w))
  | 0x14 => fmt2D3S f (.cshl (widthOf f.w))
  | 0x15 => fmt2D3S f (.cshr (widthOf f.w))
  | 0x16 => fmt1D1S f (.clz (widthOf f.w))
  | 0x17 => fmt1D1S f (.ctz (widthOf f.w))
  | 0x18 => fmt1D1S f (.msb (widthOf f.w))
  | 0x19 => fmt1D1S f (.iseven (widthOf f.w))
  | 0x1A => fmt1D1S f (.isodd (widthOf f.w))
  | 0x20 => floatOnly f (fmt1D2S f .fadd)
  | 0x21 => floatOnly f (fmt1D2S f .fsub)
  | 0x22 => floatOnly f (fmt1D2S f .fmul)
  | 0x23 => floatOnly f (fmt1D2S f .fdiv)
  | 0x24 => floatOnly f (fmt1D3S f .fma)
  | 0x25 => floatOnly f (fmt1D1S f .fneg)
  | 0x26 => floatOnly f (fmt1D1S f .fabs)
  | 0x27 => floatOnly f (fmt1D2S f .fcmp)
  | 0x28 => floatOnly f (fmt1D2S f .ftcmp)
  | 0x29 => floatOnly f (fmt1D1S f .fclass)
  | 0x2A => floatOnly f (fmt1D3S f .fpack)
  | 0x2B => floatOnly f (fmt3D1S f .funpack)
  | _ => .error .reservedOpcode

/-- R51: every 32-bit word decodes to exactly one command or is illegal. -/
def decode (c : Cmd) : Except DecodeReject Instr := decodeFields (splitWord c)

/-! ### The encoder (R41, R44, R47) -/

/-- Fields of a 1D1S command. -/
def enc1D1S (op : BitVec 6) (w : BitVec 2) (rd rs1 : RegId) : Fields := ⟨op, w, rd, rs1, 0, 0, 0, 0⟩

/-- Fields of a 1D2S command. -/
def enc1D2S (op : BitVec 6) (w : BitVec 2) (rd rs1 rs2 : RegId) : Fields := ⟨op, w, rd, rs1, rs2, 0, 0, 0⟩

/-- Fields of a 1D3S command. -/
def enc1D3S (op : BitVec 6) (w : BitVec 2) (rd rs1 rs2 rs3 : RegId) : Fields := ⟨op, w, rd, rs1, rs2, rs3, 0, 0⟩

/-- Fields of a 2D2S command. -/
def enc2D2S (op : BitVec 6) (w : BitVec 2) (rd rd2 rs1 rs2 : RegId) : Fields := ⟨op, w, rd, rs1, rs2, 0, rd2, 0⟩

/-- Fields of a 2D3S command. -/
def enc2D3S (op : BitVec 6) (w : BitVec 2) (rd rd2 rs1 rs2 rs3 : RegId) : Fields :=
  ⟨op, w, rd, rs1, rs2, rs3, rd2, 0⟩

/-- Fields of a 3D1S command. -/
def enc3D1S (op : BitVec 6) (w : BitVec 2) (rd rd2 rd3 rs1 : RegId) : Fields := ⟨op, w, rd, rs1, 0, 0, rd2, rd3⟩

/-- The fields of a command's word, by its row of R47 and its format of R44. -/
def Instr.fields : Instr → Fields
  | .add w rd rs1 rs2 => enc1D2S 0x01 (codeOf w) rd rs1 rs2
  | .adc w rd rs1 rs2 => enc1D2S 0x02 (codeOf w) rd rs1 rs2
  | .sub w rd rs1 rs2 => enc1D2S 0x03 (codeOf w) rd rs1 rs2
  | .sbb w rd rs1 rs2 => enc1D2S 0x04 (codeOf w) rd rs1 rs2
  | .inc w rd rs1 => enc1D1S 0x05 (codeOf w) rd rs1
  | .dec w rd rs1 => enc1D1S 0x06 (codeOf w) rd rs1
  | .cmp w rd rs1 rs2 => enc1D2S 0x07 (codeOf w) rd rs1 rs2
  | .mulw w rd rd2 rs1 rs2 => enc2D2S 0x08 (codeOf w) rd rd2 rs1 rs2
  | .mullo w rd rs1 rs2 => enc1D2S 0x09 (codeOf w) rd rs1 rs2
  | .mulhi w rd rs1 rs2 => enc1D2S 0x0A (codeOf w) rd rs1 rs2
  | .divrem w rd rd2 rs1 rs2 => enc2D2S 0x0B (codeOf w) rd rd2 rs1 rs2
  | .rdiv w rd rs1 rs2 => enc1D2S 0x0C (codeOf w) rd rs1 rs2
  | .rdivp2 w rd rs1 rs2 => enc1D2S 0x0D (codeOf w) rd rs1 rs2
  | .rdivp10 w rd rs1 rs2 => enc1D2S 0x0E (codeOf w) rd rs1 rs2
  | .shl w rd rs1 rs2 => enc1D2S 0x10 (codeOf w) rd rs1 rs2
  | .shr w rd rs1 rs2 => enc1D2S 0x11 (codeOf w) rd rs1 rs2
  | .wshl w rd rd2 rs1 rs2 => enc2D2S 0x12 (codeOf w) rd rd2 rs1 rs2
  | .wshr w rd rd2 rs1 rs2 => enc2D2S 0x13 (codeOf w) rd rd2 rs1 rs2
  | .cshl w rd rd2 rs1 rs2 rs3 => enc2D3S 0x14 (codeOf w) rd rd2 rs1 rs2 rs3
  | .cshr w rd rd2 rs1 rs2 rs3 => enc2D3S 0x15 (codeOf w) rd rd2 rs1 rs2 rs3
  | .clz w rd rs1 => enc1D1S 0x16 (codeOf w) rd rs1
  | .ctz w rd rs1 => enc1D1S 0x17 (codeOf w) rd rs1
  | .msb w rd rs1 => enc1D1S 0x18 (codeOf w) rd rs1
  | .iseven w rd rs1 => enc1D1S 0x19 (codeOf w) rd rs1
  | .isodd w rd rs1 => enc1D1S 0x1A (codeOf w) rd rs1
  | .fadd rd rs1 rs2 => enc1D2S 0x20 1 rd rs1 rs2
  | .fsub rd rs1 rs2 => enc1D2S 0x21 1 rd rs1 rs2
  | .fmul rd rs1 rs2 => enc1D2S 0x22 1 rd rs1 rs2
  | .fdiv rd rs1 rs2 => enc1D2S 0x23 1 rd rs1 rs2
  | .fma rd rs1 rs2 rs3 => enc1D3S 0x24 1 rd rs1 rs2 rs3
  | .fneg rd rs1 => enc1D1S 0x25 1 rd rs1
  | .fabs rd rs1 => enc1D1S 0x26 1 rd rs1
  | .fcmp rd rs1 rs2 => enc1D2S 0x27 1 rd rs1 rs2
  | .ftcmp rd rs1 rs2 => enc1D2S 0x28 1 rd rs1 rs2
  | .fclass rd rs1 => enc1D1S 0x29 1 rd rs1
  | .fpack rd rs1 rs2 rs3 => enc1D3S 0x2A 1 rd rs1 rs2 rs3
  | .funpack rd rd2 rd3 rs1 => enc3D1S 0x2B 1 rd rd2 rd3 rs1

/-- The one command word of a well-formed command (R41). -/
def encode (i : Instr) : Cmd := joinFields i.fields

/-! ### Assembler text (R53) -/

/-- The width suffix of an integer command (R53). -/
def asmWidth : Width → String
  | .w128 => ".128"
  | .w256 => ".256"
  | .w512 => ".512"
  | .w1024 => ".1024"

/-- Registers are written r0 to r15 (R53). -/
def asmReg (r : RegId) : String :=
  (["r0", "r1", "r2", "r3", "r4", "r5", "r6", "r7", "r8", "r9", "r10", "r11", "r12", "r13", "r14", "r15"][r.val]?).getD ""

/-- A mnemonic, its suffix, then the operands separated by commas (R53). -/
def asmLine (mnemonic suffix : String) (regs : List RegId) : String :=
  mnemonic ++ suffix ++ " " ++ ", ".intercalate (regs.map asmReg)

/-- The assembler syntax of a command: destinations rd, rd2, rd3, then sources rs1, rs2, rs3 (R53, R54). -/
def Instr.asm : Instr → String
  | .add w rd rs1 rs2 => asmLine "ADD" (asmWidth w) [rd, rs1, rs2]
  | .adc w rd rs1 rs2 => asmLine "ADC" (asmWidth w) [rd, rs1, rs2]
  | .sub w rd rs1 rs2 => asmLine "SUB" (asmWidth w) [rd, rs1, rs2]
  | .sbb w rd rs1 rs2 => asmLine "SBB" (asmWidth w) [rd, rs1, rs2]
  | .inc w rd rs1 => asmLine "INC" (asmWidth w) [rd, rs1]
  | .dec w rd rs1 => asmLine "DEC" (asmWidth w) [rd, rs1]
  | .cmp w rd rs1 rs2 => asmLine "CMP" (asmWidth w) [rd, rs1, rs2]
  | .mulw w rd rd2 rs1 rs2 => asmLine "MULW" (asmWidth w) [rd, rd2, rs1, rs2]
  | .mullo w rd rs1 rs2 => asmLine "MULLO" (asmWidth w) [rd, rs1, rs2]
  | .mulhi w rd rs1 rs2 => asmLine "MULHI" (asmWidth w) [rd, rs1, rs2]
  | .divrem w rd rd2 rs1 rs2 => asmLine "DIVREM" (asmWidth w) [rd, rd2, rs1, rs2]
  | .rdiv w rd rs1 rs2 => asmLine "RDIV" (asmWidth w) [rd, rs1, rs2]
  | .rdivp2 w rd rs1 rs2 => asmLine "RDIVP2" (asmWidth w) [rd, rs1, rs2]
  | .rdivp10 w rd rs1 rs2 => asmLine "RDIVP10" (asmWidth w) [rd, rs1, rs2]
  | .shl w rd rs1 rs2 => asmLine "SHL" (asmWidth w) [rd, rs1, rs2]
  | .shr w rd rs1 rs2 => asmLine "SHR" (asmWidth w) [rd, rs1, rs2]
  | .wshl w rd rd2 rs1 rs2 => asmLine "WSHL" (asmWidth w) [rd, rd2, rs1, rs2]
  | .wshr w rd rd2 rs1 rs2 => asmLine "WSHR" (asmWidth w) [rd, rd2, rs1, rs2]
  | .cshl w rd rd2 rs1 rs2 rs3 => asmLine "CSHL" (asmWidth w) [rd, rd2, rs1, rs2, rs3]
  | .cshr w rd rd2 rs1 rs2 rs3 => asmLine "CSHR" (asmWidth w) [rd, rd2, rs1, rs2, rs3]
  | .clz w rd rs1 => asmLine "CLZ" (asmWidth w) [rd, rs1]
  | .ctz w rd rs1 => asmLine "CTZ" (asmWidth w) [rd, rs1]
  | .msb w rd rs1 => asmLine "MSB" (asmWidth w) [rd, rs1]
  | .iseven w rd rs1 => asmLine "ISEVEN" (asmWidth w) [rd, rs1]
  | .isodd w rd rs1 => asmLine "ISODD" (asmWidth w) [rd, rs1]
  | .fadd rd rs1 rs2 => asmLine "FADD" "" [rd, rs1, rs2]
  | .fsub rd rs1 rs2 => asmLine "FSUB" "" [rd, rs1, rs2]
  | .fmul rd rs1 rs2 => asmLine "FMUL" "" [rd, rs1, rs2]
  | .fdiv rd rs1 rs2 => asmLine "FDIV" "" [rd, rs1, rs2]
  | .fma rd rs1 rs2 rs3 => asmLine "FMA" "" [rd, rs1, rs2, rs3]
  | .fneg rd rs1 => asmLine "FNEG" "" [rd, rs1]
  | .fabs rd rs1 => asmLine "FABS" "" [rd, rs1]
  | .fcmp rd rs1 rs2 => asmLine "FCMP" "" [rd, rs1, rs2]
  | .ftcmp rd rs1 rs2 => asmLine "FTCMP" "" [rd, rs1, rs2]
  | .fclass rd rs1 => asmLine "FCLASS" "" [rd, rs1]
  | .fpack rd rs1 rs2 rs3 => asmLine "FPACK" "" [rd, rs1, rs2, rs3]
  | .funpack rd rd2 rd3 rs1 => asmLine "FUNPACK" "" [rd, rd2, rd3, rs1]

/-! ### The host's question about an opcode-table row -/

/-- The command the decoder reads from a word of `nbits` bits; the bits above `nbits` are 0. A command is one 32-bit
word (R41, R50), so nothing longer is a command. -/
def decodeTableWord (nbits w : Nat) : Option Instr :=
  if nbits ≤ 32 then
    match decode (BitVec.ofNat 32 (w % 2 ^ nbits)) with
    | .ok i => some i
    | .error _ => none
  else none

end Sys2Proof
end

