-- ==== Sys2Proof/Machine/State.lean ====
section
/-! DEFINITION. The state of the block as plain data (10_state.md section 8), the host's actions
(70_reset_and_hazards.md R130), and the state after reset (R127). -/

namespace Sys2Proof.Machine

/-- The fault causes of 60_exceptions.md R113. Codes 5 to 15 are never raised, so there is no constructor for them. -/
inductive Cause where
  /-- Code 0: no fault (STATUS.CAUSE while FAULT = 0). -/
  | none
  /-- Code 1: an illegal command word (R49). -/
  | illegal
  /-- Code 2: DIVREM or RDIV with a zero divisor. -/
  | divZero
  /-- Code 3: a shift amount of the width or more. -/
  | shiftRange
  /-- Code 4: MSB of zero. -/
  | msbZero
deriving DecidableEq, Repr

/-- The names by which the host reads the 32-bit registers (R130). -/
inductive StatusName where
  | status
  | fcmd
  | fcix
  | cix
deriving DecidableEq, Repr

/-- The host's actions, each one atomic step (R130). -/
inductive HostAction where
  /-- `Reset` (R127). -/
  | reset
  /-- `WriteReg(i, v)`: sets all 1024 bits of a data register (R35). -/
  | writeReg (i : RegId) (v : Data)
  /-- `ReadReg(i)`. -/
  | readReg (i : RegId)
  /-- `ReadStatus(name)`. -/
  | readStatus (name : StatusName)
  /-- `Issue(w)`: hands over one command word (R39, R52). -/
  | issue (c : Cmd)
deriving DecidableEq, Repr

/-- What the host gets back from its last action (R130, fourth column). -/
inductive HostAnswer where
  /-- `Reset`, `WriteReg` and `Issue` give nothing back. -/
  | none
  /-- `ReadReg` gives a data register. -/
  | reg (v : Data)
  /-- `ReadStatus` gives a 32-bit register. -/
  | status (v : Cmd)
deriving DecidableEq, Repr

/-- Everything the spec gives the block, and, below the line, the model's own fields for the host's side of the port. -/
structure State where
  /-- r0 .. r15 (R14). -/
  regs : Vector Data 16
  /-- CIX, the index of the current command (R17). -/
  cix : BitVec 32
  /-- CF, the carry and borrow flag (R18); STATUS bit 8 is this bit, not storage of its own (R22). -/
  cf : Bool
  /-- STATUS.FAULT, bit 0: the block is halted (R19, R20). It is also the output `fault` (R119). -/
  fault : Bool
  /-- STATUS.CAUSE, bits 7:4 (R19, R21), held as a name; its code is `causeCode`. -/
  cause : Cause
  /-- FCMD, the faulting command word (R24). -/
  fcmd : Cmd
  /-- FCIX, the index of the faulting command (R25). -/
  fcix : BitVec 32
  -- the model's own: the port to the host
  /-- The host's actions still to come, the next one first: the total order of 20_memory.md R37 (log entry 3). -/
  pending : List HostAction
  /-- What the host got back from its last action (log entry 4). -/
  answer : HostAnswer
  /-- How many Reset actions have taken place: the index at which the free value `Config.unspecifiedReg` is drawn
  (log entry 2). -/
  draws : Nat
deriving DecidableEq, Repr

/-- Why the MODEL would stop with a fault: no reason. Every fault of the block is a fault entry that the spec
describes (R115), a next state in which the block is halted; R51 and R52 are total. Safe: the type is empty. -/
inductive Fault
deriving DecidableEq, Repr

/-- Why the MODEL would refuse an instruction. -/
inductive Refusal where
  /-- Raised by `exec` alone, for an instruction that has no meaning yet: by none, every row has its meaning. Safe. -/
  | notModelled (mnemonic : String)
deriving DecidableEq, Repr

/-- The block right after reset (R127, R128; 10_state.md section 8). The spec gives the data registers no value at
reset (R16); zero is the model's choice, one value for every run (DESIGN CHOICE, log entry 1, unsafe). No host action
is waiting. -/
def State.reset : State where
  regs := Vector.replicate 16 (BitVec.ofNatLT 0 (Nat.two_pow_pos 1024))
  cix := 0
  cf := false
  fault := false
  cause := .none
  fcmd := 0
  fcix := 0
  pending := []
  answer := .none
  draws := 0

end Sys2Proof.Machine
end

