-- ==== Sys2Proof/Machine/Ops.lean ====
section
/-! DEFINITION. The named operations over the block's state: reading and writing a data register, completing a
command, TAKING A FAULT (60_exceptions.md R115) and leaving the halted state by Reset (R127, the only way out: R116,
R118). -/

namespace Sys2Proof.Machine

/-- The outcome of a command or a host action. -/
abbrev Outcome := Host.Outcome State Fault Refusal

/-- R[i] (R10). -/
def State.reg (s : State) (i : RegId) : Data := s.regs.get i

/-- R[i] <- v, all 1024 bits (R10, R35). -/
def State.setReg (s : State) (i : RegId) (v : Data) : State := { s with regs := s.regs.set i.val v i.isLt }

/-- CF <- c (R18). -/
def State.setCf (s : State) (c : Bool) : State := { s with cf := c }

/-- The end of a command that completes: CIX <- (CIX + 1) mod 2^32 (R17, R52). -/
def State.advance (s : State) : State := { s with cix := s.cix + 1 }

/-- R[rd] <- zext_1024(v) for an integer result v (R10, R15). -/
def State.writeInt (s : State) (rd : RegId) (v : Nat) : State := s.setReg rd (BitVec.ofNat 1024 v)

/-- R[rd] <- zext_1024(x) for a packed float x (R10, R15). -/
def State.writeFloat (s : State) (rd : RegId) (x : Packed) : State := s.setReg rd (x.setWidth 1024)

/-- EnterFault(c, w) (R115): FAULT, CAUSE, FCMD and FCIX are written; no data register, CF or CIX is. -/
def State.enterFault (s : State) (c : Cause) (w : Cmd) : State :=
  { s with fault := true, cause := c, fcmd := w, fcix := s.cix }

/-- A command whose rule raises Fault(c): the fault entry with the command's own word, none of its other effects
(R52, R115). The word of a decoded command is the encoder's (log entry 6). -/
def takeFault (c : Cause) (i : Instr) (s : State) : Outcome := .next (s.enterFault c (encode i))

/-- A command that completes after writing its destinations and, where its rule says so, CF (R52). -/
def completes (s : State) : Outcome := .next s.advance

/-- What Reset leaves in the data registers: r0 .. r15 at the free values of draw `n` (R16, R127). -/
def drawRegs (n : Nat) : Vector Data 16 := Vector.ofFn (fun i : Fin 16 => Config.unspecifiedReg n i)

/-- The Reset action (R127): CF, CIX, STATUS, FCMD and FCIX are 0 and every data register holds an unspecified value.
It ends the halted state (R116). -/
def State.hostReset (s : State) : State :=
  { s with
    regs := drawRegs s.draws, cix := 0, cf := false, fault := false, cause := .none, fcmd := 0, fcix := 0,
    draws := s.draws + 1 }

end Sys2Proof.Machine
end

