-- ==== Sys2Proof/Machine/Operands.lean ====
section
/-! DEFINITION. The operand forms: every operand is a register (30_encoding.md R46), read at the operation's width
(10_state.md R15), and the pieces in which a host may transfer a register (20_memory.md R32 to R34). -/

namespace Sys2Proof.Machine

/-- N, the number of bits of an operation width (R43). -/
def bits : Width → Nat
  | .w128 => 128
  | .w256 => 256
  | .w512 => 512
  | .w1024 => 1024

/-- readN(i, N): bits N-1:0 of a register, as an unsigned integer (R10, R15). -/
def State.readInt (s : State) (w : Width) (i : RegId) : Nat := (s.reg i).toNat % 2 ^ bits w

/-- readN(i, 256): a packed float (R15, R27). -/
def State.readFloat (s : State) (i : RegId) : Packed := (s.reg i).setWidth 256

/-- FPACK's significand: readN(rs1, 256) as an unsigned integer (R99). -/
def State.readSignificand (s : State) (i : RegId) : Nat := (s.readFloat i).toNat

/-- FPACK's exponent: sext_32(R[rs2][31:0]) (R9, R99). -/
def State.readExponent (s : State) (i : RegId) : Int := ((s.reg i).setWidth 32).toInt

/-- FPACK's sign: R[rs3][0] (R99). -/
def State.readSign (s : State) (i : RegId) : Bool := (s.reg i).getLsbD 0

/-- The pieces of `len` bits of a register, least significant first: piece j is bits len*j+len-1 : len*j (R33); at 128
bits these are the limbs (R32). -/
def pieces (len : Nat) (v : Data) : List (BitVec len) :=
  (List.range (1024 / len)).map fun j => v.extractLsb' (len * j) len

/-- The register whose pieces, least significant first, are these (R32, R33). -/
def ofPieces (len : Nat) (ps : List (BitVec len)) : Data :=
  BitVec.ofNat 1024 (ps.foldr (fun p acc => p.toNat + 2 ^ len * acc) 0)

end Sys2Proof.Machine
end

