-- ==== Sys2Proof/Machine/Flags.lean ====
section
/-! DEFINITION. The carry flag's computation (40_int_addsub.md R58 to R61), the comparison codes and the STATUS word (10_state.md R19 to
R23). -/

namespace Sys2Proof.Machine

/-- CF as a number: the carry or borrow in of ADC and SBB (R59, R61). -/
def State.carryIn (s : State) : Nat := s.cf.toNat

/-- CF after an addition: 1 if the exact sum t >= 2^N (R58, R59). -/
def carryOut (w : Width) (t : Nat) : Bool := decide (2 ^ bits w ≤ t)

/-- CF after a subtraction: 1 if the exact difference t < 0 (R60, R61). -/
def borrowOut (t : Int) : Bool := decide (t < 0)

/-- t mod 2^N for an exact sum (R58, R59). -/
def wrapNat (w : Width) (t : Nat) : Nat := t % 2 ^ bits w

/-- t mod 2^N, the non-negative remainder, for an exact difference (R9, R60, R61). -/
def wrapInt (w : Width) (t : Int) : Nat := (t % ((2 ^ bits w : Nat) : Int)).toNat

/-- The comparison codes of CMP, FCMP and FTCMP: 0 less, 1 equal, 2 greater (R64, R111, R112). -/
def orderCode (o : Ordering) : Nat :=
  match o with
  | .lt => 0
  | .eq => 1
  | .gt => 2

/-- The cause codes of R113. -/
def causeCode : Cause → BitVec 4
  | .none => 0
  | .illegal => 1
  | .divZero => 2
  | .shiftRange => 3
  | .msbZero => 4

/-- STATUS (R19): bit 0 FAULT, bits 7:4 CAUSE, bit 8 CF (R22); bits 3:1 and 31:9 are hardwired to 0 (R23). -/
def State.statusWord (s : State) : Cmd :=
  (0 : BitVec 23) ++ BitVec.ofBool s.cf ++ causeCode s.cause ++ (0 : BitVec 3) ++ BitVec.ofBool s.fault

/-- The output `fault`, equal to STATUS.FAULT (R119). -/
def State.faultOutput (s : State) : Bool := s.fault

/-- The 32-bit register a host reads by name (R130). -/
def State.statusReg (s : State) : StatusName → Cmd
  | .status => s.statusWord
  | .fcmd => s.fcmd
  | .fcix => s.fcix
  | .cix => s.cix

end Sys2Proof.Machine
end

