-- ==== Sys2Proof/Machine/AddSub.lean ====
section
/-! DEFINITION. Integer add, subtract, increment, decrement, compare (40_int_addsub.md). Operands are read as unsigned
integers, the result is computed exactly and narrowed at the end (R56). -/

namespace Sys2Proof.Machine

/-- An addition with exact sum t: R[rd] <- t mod 2^N, CF <- carry (R58, R59). -/
def finishAdd (w : Width) (rd : RegId) (t : Nat) (s : State) : Outcome :=
  completes ((s.writeInt rd (wrapNat w t)).setCf (carryOut w t))

/-- A subtraction with exact difference t: R[rd] <- t mod 2^N, CF <- borrow (R60, R61). -/
def finishSub (w : Width) (rd : RegId) (t : Int) (s : State) : Outcome :=
  completes ((s.writeInt rd (wrapInt w t)).setCf (borrowOut t))

/-- ADD (R58). CF in is ignored. -/
def execAdd (w : Width) (rd rs1 rs2 : RegId) (s : State) : Outcome :=
  finishAdd w rd (s.readInt w rs1 + s.readInt w rs2) s

/-- ADC (R59). -/
def execAdc (w : Width) (rd rs1 rs2 : RegId) (s : State) : Outcome :=
  finishAdd w rd (s.readInt w rs1 + s.readInt w rs2 + s.carryIn) s

/-- SUB (R60). -/
def execSub (w : Width) (rd rs1 rs2 : RegId) (s : State) : Outcome :=
  finishSub w rd ((s.readInt w rs1 : Int) - s.readInt w rs2) s

/-- SBB (R61). -/
def execSbb (w : Width) (rd rs1 rs2 : RegId) (s : State) : Outcome :=
  finishSub w rd ((s.readInt w rs1 : Int) - s.readInt w rs2 - s.carryIn) s

/-- INC (R62): wraps; CF unchanged. -/
def execInc (w : Width) (rd rs1 : RegId) (s : State) : Outcome :=
  completes (s.writeInt rd (wrapNat w (s.readInt w rs1 + 1)))

/-- DEC (R63): wraps; CF unchanged. -/
def execDec (w : Width) (rd rs1 : RegId) (s : State) : Outcome :=
  completes (s.writeInt rd (wrapInt w ((s.readInt w rs1 : Int) - 1)))

/-- CMP (R64): CF unchanged. -/
def execCmp (w : Width) (rd rs1 rs2 : RegId) (s : State) : Outcome :=
  completes (s.writeInt rd (orderCode (compare (s.readInt w rs1) (s.readInt w rs2))))

end Sys2Proof.Machine
end

