-- ==== Sys2Proof/Machine/Rounding.lean ====
section
/-! DEFINITION. Round-to-nearest-even and bit lengths (00_scope.md R9, R11), shared by the rounding divisions, the bit
queries and the float core. -/

namespace Sys2Proof.Machine

/-- rne(m) of 00_scope.md R11 at the rational m = num / den, den > 0: n = floor(m), r = m - n, compared with 1/2. -/
def rne (num den : Nat) : Nat :=
  if den < 2 * (num % den) then num / den + 1
  else if 2 * (num % den) = den ∧ num / den % 2 = 1 then num / den + 1
  else num / den

/-- The bit length of v, found by halving: a v of at least 2^(2^k) has 2^k bits more than its quotient by that power.
So a value of half a million bits takes 20 divisions and not one for each bit. -/
def bitlenFrom : Nat → Nat → Nat
  | 0, v => if v = 0 then 0 else v.log2 + 1
  | k + 1, v => if 2 ^ 2 ^ k ≤ v then bitlenFrom k (v / 2 ^ 2 ^ k) + 2 ^ k else bitlenFrom k v

/-- bitlen(v) of R9: the bits of v without leading zeros; bitlen(0) = 0. `bitlen_eq` (Laws/Rounding.lean) proves that
this is floor(log2 v) + 1 for every v > 0. -/
def bitlen (v : Nat) : Nat := bitlenFrom 20 v

/-- rne(a / base^n) for base >= 2 and EVERY n (R74, R75). A power above a's own bits is not computed: then
base^n >= 2^n > 2 * a, so the quotient is below one half and the result is 0. `rnePow_eq` (Laws/Rounding.lean) proves
that this is rne a (base^n). -/
def rnePow (base a n : Nat) : Nat := if bitlen a < n then 0 else rne a (base ^ n)

end Sys2Proof.Machine
end

