-- ==== Sys2Proof/Machine/FloatFormat.lean ====
section
/-! DEFINITION. The packed float, its classes and exact value, RoundPack, and the commands FCLASS, FUNPACK and FPACK
(43_float_format.md). No command here reads or writes CF and none faults. -/

namespace Sys2Proof.Machine

/-! ### Fields and classes -/

/-- s ++ e ++ f (R89). -/
def packFields (s : Bool) (e : BitVec 19) (f : BitVec 236) : Packed := BitVec.ofBool s ++ e ++ f

/-- sgn(x) = x[255] (R89). -/
def sgn (x : Packed) : Bool := x.getLsbD 255

/-- The biased exponent field x[254:236] (R89). -/
def expField (x : Packed) : Nat := (x.extractLsb' 236 19).toNat

/-- The fraction field x[235:0] (R89). -/
def fracField (x : Packed) : Nat := (x.extractLsb' 0 236).toNat

/-- The classes of R91 but for the sign, which `sgn` gives. -/
inductive FloatClass where
  | zero
  | subnormal
  | normal
  | infinity
  | nan
deriving DecidableEq, Repr

/-- The class of a pattern, by its fields (R91): every pattern has exactly one. -/
def classOf (x : Packed) : FloatClass :=
  if expField x = 0 then (if fracField x = 0 then .zero else .subnormal)
  else if expField x = Config.eall then (if fracField x = 0 then .infinity else .nan)
  else .normal

/-- The NaN class (R91): every NaN is quiet. -/
def isNaN (x : Packed) : Bool := classOf x == .nan

/-- The infinity class (R91). -/
def isInf (x : Packed) : Bool := classOf x == .infinity

/-- The zero class (R91). -/
def isZero (x : Packed) : Bool := classOf x == .zero

/-- The finite classes: zero, subnormal, normal (R92). -/
def isFinite (x : Packed) : Bool := !isNaN x && !isInf x

/-- Inf(s) = s ++ EALL ++ 0^236 (44_float_arith.md, before R100). -/
def infOf (s : Bool) : Packed := packFields s (BitVec.ofNat 19 Config.eall) 0

/-- Zero(s) = s ++ 0^255. -/
def zeroOf (s : Bool) : Packed := packFields s 0 0

/-- QNaN, the one NaN that arithmetic produces: s = 0, e = EALL, f = 2^235 (R93). -/
def qNaN : Packed := packFields false (BitVec.ofNat 19 Config.eall) (BitVec.ofNat 236 (2 ^ 235))

/-! ### Exact values -/

/-- An exact dyadic rational, mant * 2^exp. -/
structure Exact where
  mant : Int
  exp  : Int
deriving DecidableEq, Repr

/-- sig(x) (R92): the fraction, with the implicit bit when the exponent field is neither 0 nor all ones. -/
def sig (x : Packed) : Nat :=
  if expField x = 0 ∨ expField x = Config.eall then fracField x else 2 ^ Config.fracBits + fracField x

/-- q(x) = max(e, 1) - BIAS - 236, the exponent of the significand's last bit (R92). -/
def lastExp (x : Packed) : Int := (max (expField x) 1 : Nat) - Config.bias - (Config.fracBits : Int)

/-- val(x) = (-1)^s * sig(x) * 2^q(x) of a finite x (R92). -/
def val (x : Packed) : Exact := ⟨if sgn x then -(sig x : Int) else (sig x : Int), lastExp x⟩

/-- The mantissa of an exact value at an exponent no greater than its own. -/
def Exact.mantAt (v : Exact) (e : Int) : Int := v.mant * ((2 ^ (v.exp - e).toNat : Nat) : Int)

/-- The exact sum, at the smaller of the two exponents. -/
def Exact.add (u v : Exact) : Exact :=
  ⟨u.mantAt (min u.exp v.exp) + v.mantAt (min u.exp v.exp), min u.exp v.exp⟩

/-- The exact product. -/
def Exact.mul (u v : Exact) : Exact := ⟨u.mant * v.mant, u.exp + v.exp⟩

/-- How two exact values compare. -/
def Exact.cmp (u v : Exact) : Ordering :=
  compare (u.mantAt (min u.exp v.exp)) (v.mantAt (min u.exp v.exp))

/-! ### Rounding (R95) -/

/-- floor(log2(v)) for v = num / den * 2^e > 0: with g = bitlen num - bitlen den, num / den lies between 2^g / 2
and 2^g * 2, and one comparison with 2^g decides. -/
def floorLog2 (num den : Nat) (e : Int) : Int :=
  let g : Int := (bitlen num : Int) - bitlen den
  if den * 2 ^ g.toNat ≤ num * 2 ^ (-g).toNat then g + e else g - 1 + e

/-- rne(num / den * 2^k). A negative power of two beyond num's own bits is not computed: the quotient is then below
one half and rounds to 0 (`rneScaled_eq`, Laws/Rounding.lean). -/
def rneScaled (num den : Nat) (k : Int) : Nat :=
  if bitlen num < (-k).toNat then 0 else rne (num * 2 ^ k.toNat) (den * 2 ^ (-k).toNat)

/-- The last three lines of RoundPack (R95): a rounded significand n < 2^237 at the ULP exponent q becomes an infinity
above EMAX, a normal float, a subnormal, or a zero. -/
def packRounded (s : Bool) (n : Nat) (q : Int) : Packed :=
  if Config.emax - Config.fracBits < q then infOf s
  else if 2 ^ Config.fracBits ≤ n then
    packFields s (BitVec.ofInt 19 (q + Config.fracBits + Config.bias)) (BitVec.ofNat 236 (n - 2 ^ Config.fracBits))
  else packFields s 0 (BitVec.ofNat 236 n)

/-- RoundPack(s, v) of R95 for the exact magnitude v = num / den * 2^e > 0: one rounding to nearest even, at the ULP
exponent q = max(E - 236, EMIN - 236), where E = floor(log2(v)). -/
def roundPack (s : Bool) (num den : Nat) (e : Int) : Packed :=
  let q : Int := max (floorLog2 num den e - Config.fracBits) (Config.emin - Config.fracBits)
  let n := rneScaled num den (e - q)
  if n = 2 ^ (Config.fracBits + 1) then packRounded s (2 ^ Config.fracBits) (q + 1) else packRounded s n q

/-- RoundPack(sign(v), |v|) of a non-zero exact value (R102). -/
def roundExact (v : Exact) : Packed := roundPack (decide (v.mant < 0)) v.mant.natAbs 1 v.exp

/-! ### Commands -/

/-- The class codes of R97. -/
def classCode (x : Packed) : Nat :=
  match classOf x, sgn x with
  | .nan, _ => 0
  | .infinity, true => 1
  | .normal, true => 2
  | .subnormal, true => 3
  | .zero, true => 4
  | .zero, false => 5
  | .subnormal, false => 6
  | .normal, false => 7
  | .infinity, false => 8

/-- The packed float of a significand m, an exponent q and a sign s, rounded once (R99). -/
def packTriple (m : Nat) (q : Int) (s : Bool) : Packed := if m = 0 then zeroOf s else roundPack s m 1 q

/-- FCLASS (R97). -/
def execFclass (rd rs1 : RegId) (s : State) : Outcome :=
  completes (s.writeInt rd (classCode (s.readFloat rs1)))

/-- FUNPACK (R98): significand to rd, exponent as a 32-bit two's-complement value to rd2, sign to rd3. -/
def execFunpack (rd rd2 rd3 rs1 : RegId) (s : State) : Outcome :=
  completes (((s.writeInt rd (sig (s.readFloat rs1))).setReg rd2
    ((BitVec.ofInt 32 (lastExp (s.readFloat rs1))).setWidth 1024)).writeInt rd3 (sgn (s.readFloat rs1)).toNat)

/-- FPACK (R99). -/
def execFpack (rd rs1 rs2 rs3 : RegId) (s : State) : Outcome :=
  completes (s.writeFloat rd (packTriple (s.readSignificand rs1) (s.readExponent rs2) (s.readSign rs3)))

end Sys2Proof.Machine
end

