-- ==== Sys2Proof/Machine/FloatArith.lean ====
section
/-! DEFINITION. Float add, subtract, multiply, divide and fused multiply-add (44_float_arith.md), each one rounding of
the exact result. No command here reads or writes CF and none faults (60_exceptions.md R114). -/

namespace Sys2Proof.Machine

/-- The value 2^255: only the sign bit set. -/
def signMask : Packed := BitVec.ofNat 256 (2 ^ 255)

/-- The sum of two floats (R103); the sign of an exact zero sum is R101's. -/
def addFloat (x y : Packed) : Packed :=
  if isNaN x || isNaN y then qNaN
  else if isInf x && isInf y then (if sgn x != sgn y then qNaN else infOf (sgn x))
  else if isInf x then infOf (sgn x)
  else if isInf y then infOf (sgn y)
  else
    let v := (val x).add (val y)
    if v.mant = 0 then (if isZero x && isZero y then zeroOf (sgn x && sgn y) else zeroOf false)
    else roundExact v

/-- The difference of two floats: x + (-y), y with its sign flipped (R104). -/
def subFloat (x y : Packed) : Packed := addFloat x (y ^^^ signMask)

/-- The product of two floats (R105). -/
def mulFloat (x y : Packed) : Packed :=
  let s := sgn x ^^ sgn y
  if isNaN x || isNaN y then qNaN
  else if (isInf x && isZero y) || (isZero x && isInf y) then qNaN
  else if isInf x || isInf y then infOf s
  else if isZero x || isZero y then zeroOf s
  else roundPack s (sig x * sig y) 1 (lastExp x + lastExp y)

/-- The quotient of two floats, the exact rational rounded once (R106). -/
def divFloat (x y : Packed) : Packed :=
  let s := sgn x ^^ sgn y
  if isNaN x || isNaN y then qNaN
  else if isInf x && isInf y then qNaN
  else if isZero x && isZero y then qNaN
  else if isInf x then infOf s
  else if isInf y then zeroOf s
  else if isZero y then infOf s
  else if isZero x then zeroOf s
  else roundPack s (sig x) (sig y) (lastExp x - lastExp y)

/-- x * y + z with one rounding (R107); the sign of an exact zero is R101's. -/
def fmaFloat (x y z : Packed) : Packed :=
  let sp := sgn x ^^ sgn y
  if isNaN x || isNaN y || isNaN z then qNaN
  else if (isInf x && isZero y) || (isZero x && isInf y) then qNaN
  else if (isInf x || isInf y) && isInf z && (sp != sgn z) then qNaN
  else if isInf x || isInf y then infOf sp
  else if isInf z then infOf (sgn z)
  else
    let v := ((val x).mul (val y)).add (val z)
    if v.mant = 0 then
      (if (isZero x || isZero y) && isZero z then zeroOf (sp && sgn z) else zeroOf false)
    else roundExact v

/-- FADD (R103). -/
def execFadd (rd rs1 rs2 : RegId) (s : State) : Outcome :=
  completes (s.writeFloat rd (addFloat (s.readFloat rs1) (s.readFloat rs2)))

/-- FSUB (R104): rs1 - rs2. -/
def execFsub (rd rs1 rs2 : RegId) (s : State) : Outcome :=
  completes (s.writeFloat rd (subFloat (s.readFloat rs1) (s.readFloat rs2)))

/-- FMUL (R105). -/
def execFmul (rd rs1 rs2 : RegId) (s : State) : Outcome :=
  completes (s.writeFloat rd (mulFloat (s.readFloat rs1) (s.readFloat rs2)))

/-- FDIV (R106): rs1 / rs2. -/
def execFdiv (rd rs1 rs2 : RegId) (s : State) : Outcome :=
  completes (s.writeFloat rd (divFloat (s.readFloat rs1) (s.readFloat rs2)))

/-- FMA (R107): rs1 * rs2 + rs3. -/
def execFma (rd rs1 rs2 rs3 : RegId) (s : State) : Outcome :=
  completes (s.writeFloat rd (fmaFloat (s.readFloat rs1) (s.readFloat rs2) (s.readFloat rs3)))

end Sys2Proof.Machine
end

