-- ==== Sys2Proof/Machine/FloatCompare.lean ====
section
/-! DEFINITION. Float negate, absolute value and the two comparisons (45_float_sign_compare.md): bit operations and
exact comparisons; nothing is rounded and no NaN is made canonical. -/

namespace Sys2Proof.Machine

/-- x XOR 2^255 (R109): the sign flipped, a NaN's payload kept. -/
def negFloat (x : Packed) : Packed := x ^^^ signMask

/-- x AND (2^255 - 1) (R110): the sign cleared, a NaN's payload kept. -/
def absFloat (x : Packed) : Packed := x &&& ~~~signMask

/-- Where ext(x) lies (R111): -1 for -Inf, below every real; 1 for +Inf, above every real; 0 for a real. -/
def extSide (x : Packed) : Int := if isInf x then (if sgn x then -1 else 1) else 0

/-- ext(x) against ext(y) for x and y that are no NaN (R111). -/
def extCmp (x y : Packed) : Ordering :=
  if extSide x = 0 ∧ extSide y = 0 then (val x).cmp (val y) else compare (extSide x) (extSide y)

/-- The code of FCMP (R111): 3 unordered, else the comparison code; +0 and -0 are equal. -/
def partialCode (x y : Packed) : Nat := if isNaN x || isNaN y then 3 else orderCode (extCmp x y)

/-- key(v) of the total order (R112), an integer in [-2^255, 2^255). -/
def totalKey (x : Packed) : Int :=
  if sgn x then -((x.extractLsb' 0 255).toNat : Int) - 1 else (x.extractLsb' 0 255).toNat

/-- The code of FTCMP (R112). -/
def totalCode (x y : Packed) : Nat := orderCode (compare (totalKey x) (totalKey y))

/-- FNEG (R109). -/
def execFneg (rd rs1 : RegId) (s : State) : Outcome := completes (s.writeFloat rd (negFloat (s.readFloat rs1)))

/-- FABS (R110). -/
def execFabs (rd rs1 : RegId) (s : State) : Outcome := completes (s.writeFloat rd (absFloat (s.readFloat rs1)))

/-- FCMP (R111). -/
def execFcmp (rd rs1 rs2 : RegId) (s : State) : Outcome :=
  completes (s.writeInt rd (partialCode (s.readFloat rs1) (s.readFloat rs2)))

/-- FTCMP (R112). -/
def execFtcmp (rd rs1 rs2 : RegId) (s : State) : Outcome :=
  completes (s.writeInt rd (totalCode (s.readFloat rs1) (s.readFloat rs2)))

end Sys2Proof.Machine
end

