-- ==== Sys2Proof/Machine/MulDiv.lean ====
section
/-! DEFINITION. Integer multiply, divide and rounding divisions (41_int_muldiv.md). Only exact results are
architectural (R67). None of these commands reads or writes CF. -/

namespace Sys2Proof.Machine

/-- MULW (R69): low half to rd, high half to rd2. -/
def execMulw (w : Width) (rd rd2 rs1 rs2 : RegId) (s : State) : Outcome :=
  completes ((s.writeInt rd (s.readInt w rs1 * s.readInt w rs2 % 2 ^ bits w)).writeInt rd2
    (s.readInt w rs1 * s.readInt w rs2 / 2 ^ bits w))

/-- MULLO (R70). -/
def execMullo (w : Width) (rd rs1 rs2 : RegId) (s : State) : Outcome :=
  completes (s.writeInt rd (s.readInt w rs1 * s.readInt w rs2 % 2 ^ bits w))

/-- MULHI (R71). -/
def execMulhi (w : Width) (rd rs1 rs2 : RegId) (s : State) : Outcome :=
  completes (s.writeInt rd (s.readInt w rs1 * s.readInt w rs2 / 2 ^ bits w))

/-- DIVREM (R72): quotient to rd, remainder to rd2. -/
def execDivrem (w : Width) (rd rd2 rs1 rs2 : RegId) (s : State) : Outcome :=
  if s.readInt w rs2 = 0 then takeFault .divZero (.divrem w rd rd2 rs1 rs2) s
  else completes ((s.writeInt rd (s.readInt w rs1 / s.readInt w rs2)).writeInt rd2
      (s.readInt w rs1 % s.readInt w rs2))

/-- RDIV (R73). -/
def execRdiv (w : Width) (rd rs1 rs2 : RegId) (s : State) : Outcome :=
  if s.readInt w rs2 = 0 then takeFault .divZero (.rdiv w rd rs1 rs2) s
  else completes (s.writeInt rd (rne (s.readInt w rs1) (s.readInt w rs2)))

/-- RDIVP2 (R74): defined for every n. -/
def execRdivp2 (w : Width) (rd rs1 rs2 : RegId) (s : State) : Outcome :=
  completes (s.writeInt rd (rnePow 2 (s.readInt w rs1) (s.readInt w rs2)))

/-- RDIVP10 (R75): defined for every n, exact over all discarded digits. -/
def execRdivp10 (w : Width) (rd rs1 rs2 : RegId) (s : State) : Outcome :=
  completes (s.writeInt rd (rnePow 10 (s.readInt w rs1) (s.readInt w rs2)))

end Sys2Proof.Machine
end

