-- ==== Sys2Proof/Machine/ShiftBits.lean ====
section
/-! DEFINITION. Integer shifts and bit queries (42_int_shift_bits.md). None of these commands reads or writes CF. The
shift law (R76): a shift amount k >= N raises Fault(SHIFT_RANGE) and nothing is written. -/

namespace Sys2Proof.Machine

/-- The exact 2N-bit value of a left shift, a * 2^k (R78, R80, R82). -/
def shiftedLeft (a k : Nat) : Nat := a * 2 ^ k

/-- The exact 2N-bit value of a right shift, a * 2^(N-k): a ++ 0^N shifted right by k (R81, R83). -/
def shiftedRight (w : Width) (a k : Nat) : Nat := a * 2 ^ (bits w - k)

/-- The low N bits of a 2N-bit value. -/
def lowHalf (w : Width) (t : Nat) : Nat := t % 2 ^ bits w

/-- The high N bits of a 2N-bit value. -/
def highHalf (w : Width) (t : Nat) : Nat := t / 2 ^ bits w

/-- The number of trailing zeros among the low `n` bits of `a`, which is `n` when they are all zero (R85). -/
def trailingZeros : Nat → Nat → Nat
  | 0, _ => 0
  | n + 1, a => if a % 2 = 0 then trailingZeros n (a / 2) + 1 else 0

/-- SHL (R78). -/
def execShl (w : Width) (rd rs1 rs2 : RegId) (s : State) : Outcome :=
  if bits w ≤ s.readInt w rs2 then takeFault .shiftRange (.shl w rd rs1 rs2) s
  else completes (s.writeInt rd (lowHalf w (shiftedLeft (s.readInt w rs1) (s.readInt w rs2))))

/-- SHR (R79). -/
def execShr (w : Width) (rd rs1 rs2 : RegId) (s : State) : Outcome :=
  if bits w ≤ s.readInt w rs2 then takeFault .shiftRange (.shr w rd rs1 rs2) s
  else completes (s.writeInt rd (s.readInt w rs1 / 2 ^ s.readInt w rs2))

/-- WSHL (R80): the shifted value to rd, the bits that left the top to rd2, at the bottom. -/
def execWshl (w : Width) (rd rd2 rs1 rs2 : RegId) (s : State) : Outcome :=
  if bits w ≤ s.readInt w rs2 then takeFault .shiftRange (.wshl w rd rd2 rs1 rs2) s
  else completes ((s.writeInt rd (lowHalf w (shiftedLeft (s.readInt w rs1) (s.readInt w rs2)))).writeInt rd2
      (highHalf w (shiftedLeft (s.readInt w rs1) (s.readInt w rs2))))

/-- WSHR (R81): the shifted value to rd, the bits that left the bottom to rd2, at the top. -/
def execWshr (w : Width) (rd rd2 rs1 rs2 : RegId) (s : State) : Outcome :=
  if bits w ≤ s.readInt w rs2 then takeFault .shiftRange (.wshr w rd rd2 rs1 rs2) s
  else completes ((s.writeInt rd (highHalf w (shiftedRight w (s.readInt w rs1) (s.readInt w rs2)))).writeInt rd2
      (lowHalf w (shiftedRight w (s.readInt w rs1) (s.readInt w rs2))))

/-- CSHL (R82): WSHL with the carry operand c ORed into rd as it is. -/
def execCshl (w : Width) (rd rd2 rs1 rs2 rs3 : RegId) (s : State) : Outcome :=
  if bits w ≤ s.readInt w rs2 then takeFault .shiftRange (.cshl w rd rd2 rs1 rs2 rs3) s
  else completes ((s.writeInt rd
        (lowHalf w (shiftedLeft (s.readInt w rs1) (s.readInt w rs2)) ||| s.readInt w rs3)).writeInt rd2
      (highHalf w (shiftedLeft (s.readInt w rs1) (s.readInt w rs2))))

/-- CSHR (R83): WSHR with the carry operand c ORed into rd as it is. -/
def execCshr (w : Width) (rd rd2 rs1 rs2 rs3 : RegId) (s : State) : Outcome :=
  if bits w ≤ s.readInt w rs2 then takeFault .shiftRange (.cshr w rd rd2 rs1 rs2 rs3) s
  else completes ((s.writeInt rd
        (highHalf w (shiftedRight w (s.readInt w rs1) (s.readInt w rs2)) ||| s.readInt w rs3)).writeInt rd2
      (lowHalf w (shiftedRight w (s.readInt w rs1) (s.readInt w rs2))))

/-- CLZ (R84): N for a = 0. -/
def execClz (w : Width) (rd rs1 : RegId) (s : State) : Outcome :=
  completes (s.writeInt rd (bits w - bitlen (s.readInt w rs1)))

/-- CTZ (R85): N for a = 0. -/
def execCtz (w : Width) (rd rs1 : RegId) (s : State) : Outcome :=
  completes (s.writeInt rd (trailingZeros (bits w) (s.readInt w rs1)))

/-- MSB (R86): Fault(MSB_ZERO) for a = 0. -/
def execMsb (w : Width) (rd rs1 : RegId) (s : State) : Outcome :=
  if s.readInt w rs1 = 0 then takeFault .msbZero (.msb w rd rs1) s
  else completes (s.writeInt rd (bitlen (s.readInt w rs1) - 1))

/-- ISEVEN (R87). -/
def execIseven (w : Width) (rd rs1 : RegId) (s : State) : Outcome :=
  completes (s.writeInt rd (if s.readInt w rs1 % 2 = 0 then 1 else 0))

/-- ISODD (R88). -/
def execIsodd (w : Width) (rd rs1 : RegId) (s : State) : Outcome :=
  completes (s.writeInt rd (if s.readInt w rs1 % 2 = 1 then 1 else 0))

end Sys2Proof.Machine
end

