-- ==== Sys2Proof/Machine/Dispatch.lean ====
section
/-! DEFINITION. The meaning of every command: one arm per constructor, each one call (30_encoding.md R47, R52). -/

namespace Sys2Proof.Machine

/-- The rule of a decoded command's opcode (R52): its whole effect on a block that is not halted, a fault entry
included. -/
def exec (i : Instr) (s : State) : Host.Outcome State Fault Refusal :=
  match i with
  | .add w rd rs1 rs2 => Sys2Proof.Machine.execAdd w rd rs1 rs2 s
  | .adc w rd rs1 rs2 => Sys2Proof.Machine.execAdc w rd rs1 rs2 s
  | .sub w rd rs1 rs2 => Sys2Proof.Machine.execSub w rd rs1 rs2 s
  | .sbb w rd rs1 rs2 => Sys2Proof.Machine.execSbb w rd rs1 rs2 s
  | .inc w rd rs1 => Sys2Proof.Machine.execInc w rd rs1 s
  | .dec w rd rs1 => Sys2Proof.Machine.execDec w rd rs1 s
  | .cmp w rd rs1 rs2 => Sys2Proof.Machine.execCmp w rd rs1 rs2 s
  | .mulw w rd rd2 rs1 rs2 => Sys2Proof.Machine.execMulw w rd rd2 rs1 rs2 s
  | .mullo w rd rs1 rs2 => Sys2Proof.Machine.execMullo w rd rs1 rs2 s
  | .mulhi w rd rs1 rs2 => Sys2Proof.Machine.execMulhi w rd rs1 rs2 s
  | .divrem w rd rd2 rs1 rs2 => Sys2Proof.Machine.execDivrem w rd rd2 rs1 rs2 s
  | .rdiv w rd rs1 rs2 => Sys2Proof.Machine.execRdiv w rd rs1 rs2 s
  | .rdivp2 w rd rs1 rs2 => Sys2Proof.Machine.execRdivp2 w rd rs1 rs2 s
  | .rdivp10 w rd rs1 rs2 => Sys2Proof.Machine.execRdivp10 w rd rs1 rs2 s
  | .shl w rd rs1 rs2 => Sys2Proof.Machine.execShl w rd rs1 rs2 s
  | .shr w rd rs1 rs2 => Sys2Proof.Machine.execShr w rd rs1 rs2 s
  | .wshl w rd rd2 rs1 rs2 => Sys2Proof.Machine.execWshl w rd rd2 rs1 rs2 s
  | .wshr w rd rd2 rs1 rs2 => Sys2Proof.Machine.execWshr w rd rd2 rs1 rs2 s
  | .cshl w rd rd2 rs1 rs2 rs3 => Sys2Proof.Machine.execCshl w rd rd2 rs1 rs2 rs3 s
  | .cshr w rd rd2 rs1 rs2 rs3 => Sys2Proof.Machine.execCshr w rd rd2 rs1 rs2 rs3 s
  | .clz w rd rs1 => Sys2Proof.Machine.execClz w rd rs1 s
  | .ctz w rd rs1 => Sys2Proof.Machine.execCtz w rd rs1 s
  | .msb w rd rs1 => Sys2Proof.Machine.execMsb w rd rs1 s
  | .iseven w rd rs1 => Sys2Proof.Machine.execIseven w rd rs1 s
  | .isodd w rd rs1 => Sys2Proof.Machine.execIsodd w rd rs1 s
  | .fadd rd rs1 rs2 => Sys2Proof.Machine.execFadd rd rs1 rs2 s
  | .fsub rd rs1 rs2 => Sys2Proof.Machine.execFsub rd rs1 rs2 s
  | .fmul rd rs1 rs2 => Sys2Proof.Machine.execFmul rd rs1 rs2 s
  | .fdiv rd rs1 rs2 => Sys2Proof.Machine.execFdiv rd rs1 rs2 s
  | .fma rd rs1 rs2 rs3 => Sys2Proof.Machine.execFma rd rs1 rs2 rs3 s
  | .fneg rd rs1 => Sys2Proof.Machine.execFneg rd rs1 s
  | .fabs rd rs1 => Sys2Proof.Machine.execFabs rd rs1 s
  | .fcmp rd rs1 rs2 => Sys2Proof.Machine.execFcmp rd rs1 rs2 s
  | .ftcmp rd rs1 rs2 => Sys2Proof.Machine.execFtcmp rd rs1 rs2 s
  | .fclass rd rs1 => Sys2Proof.Machine.execFclass rd rs1 s
  | .fpack rd rs1 rs2 rs3 => Sys2Proof.Machine.execFpack rd rs1 rs2 rs3 s
  | .funpack rd rd2 rd3 rs1 => Sys2Proof.Machine.execFunpack rd rd2 rd3 rs1 s

end Sys2Proof.Machine
end

