-- ==== Sys2Proof/Machine/HostPort.lean ====
section
/-! DEFINITION. The host's actions on the block (70_reset_and_hazards.md R130) and the issue of a command word
(30_encoding.md R52). They stand here and not in Step.lean, which only calls them. -/

namespace Sys2Proof.Machine

/-- Issue(w) (R52): ignored while the block is halted (60_exceptions.md R116); an illegal word enters the fault
ILLEGAL and no operand is read (R117); a command runs. -/
def issue (c : Cmd) (s : State) : Outcome :=
  if s.fault then .next s
  else
    match decode c with
    | .error _ => .next (s.enterFault .illegal c)
    | .ok i => exec i s

/-- What one host action does, in any state, halted or not (R130). The answer of an earlier action is gone. -/
def hostAct (a : HostAction) (s : State) : Outcome :=
  match a with
  | .reset => .next { s.hostReset with answer := .none }
  | .writeReg i v => .next { s.setReg i v with answer := .none }
  | .readReg i => .next { s with answer := .reg (s.reg i) }
  | .readStatus n => .next { s with answer := .status (s.statusReg n) }
  | .issue c => issue c { s with answer := .none }

/-- The next action of the host is taken up; the rest stay to come (R37). -/
def State.take (s : State) (rest : List HostAction) : State := { s with pending := rest }

/-- The host's next action is this one, before all that were to come (R37). -/
def State.give (s : State) (a : HostAction) : State := { s with pending := a :: s.pending }

/-- The command word of a table row: its low `nbits` bits, every bit above them 0 (R41). -/
def wordOfBits (nbits w : Nat) : Cmd := BitVec.ofNat 32 (w % 2 ^ nbits)

end Sys2Proof.Machine
end

