-- ==== Sys2Proof/Machine/Step.lean ====
section
/-! DEFINITION. One step of the machine: the host's next action, or nothing. -/

namespace Sys2Proof.Machine

/-- One atomic step (20_memory.md R36, R37): the host's next action takes its whole effect. When the host does
nothing the block is idle and keeps all state (60_exceptions.md R126). -/
def step (s : State) : Host.Outcome State Fault Refusal :=
  match s.pending with
  | [] => .next s
  | a :: rest => hostAct a (s.take rest)

/-- `s` with the issue of this word as the host's next action: the block fetches nothing (20_memory.md R39), a command
comes to it by the host's Issue (log entry 3). -/
def State.withFetchWord (s : State) (nbits w : Nat) : State := s.give (.issue (wordOfBits nbits w))

end Sys2Proof.Machine
end

