-- ==== Sys2Proof/Reference.lean ====
section
/-! DEFINITION. The spec's own formulas over exact rationals and plain numbers, in the terms the statements use:
round-to-nearest-even (00_scope.md R11), the value of a float (43_float_format.md R92), RoundPack (R95), the float
operations (44_float_arith.md), the extended value and the total-order key (45_float_sign_compare.md), and the command
word as a sum of fields (30_encoding.md R41, R44, R49). The machine does not use this file: it computes with integers,
and the statements say that both agree. -/

namespace Sys2Proof.Reference

open Sys2Proof.Machine

/-! ### Encoding -/

/-- R41: the word of eight fields, the opcode and the width code given as numbers. -/
def wordOf (op w : Nat) (rd rs1 rs2 rs3 rd2 rd3 : RegId) : Cmd :=
  BitVec.ofNat 32
    (op * 2 ^ 26 + w * 2 ^ 24 + rd.val * 2 ^ 20 + rs1.val * 2 ^ 16 + rs2.val * 2 ^ 12 + rs3.val * 2 ^ 8 +
      rd2.val * 2 ^ 4 + rd3.val)

/-- R43: the number of a width's code. -/
def widthNumber : Width → Nat
  | .w128 => 0
  | .w256 => 1
  | .w512 => 2
  | .w1024 => 3

/-- This word, of these fields, is the command's encoding: it decodes to the command. -/
def Encodes (i : Instr) (op w : Nat) (rd rs1 rs2 rs3 rd2 rd3 : RegId) : Prop :=
  decode (wordOf op w rd rs1 rs2 rs3 rd2 rd3) = .ok i

/-- The six formats of R44. -/
inductive Format where
  | f1D1S
  | f1D2S
  | f1D3S
  | f2D2S
  | f2D3S
  | f3D1S
deriving DecidableEq, Repr

/-- The format of an opcode, by the table of R44 and R47; none for a reserved opcode (R48). -/
def formatOf (op : Nat) : Option Format :=
  if op ∈ [0x05, 0x06, 0x16, 0x17, 0x18, 0x19, 0x1A, 0x25, 0x26, 0x29] then some .f1D1S
  else if op ∈ [0x01, 0x02, 0x03, 0x04, 0x07, 0x09, 0x0A, 0x0C, 0x0D, 0x0E, 0x10, 0x11,
      0x20, 0x21, 0x22, 0x23, 0x27, 0x28] then some .f1D2S
  else if op ∈ [0x24, 0x2A] then some .f1D3S
  else if op ∈ [0x08, 0x0B, 0x12, 0x13] then some .f2D2S
  else if op ∈ [0x14, 0x15] then some .f2D3S
  else if op ∈ [0x2B] then some .f3D1S
  else none

/-- Bits lo+len-1 : lo of a word, as a number (R8). -/
def field (c : Cmd) (lo len : Nat) : Nat := c.toNat / 2 ^ lo % 2 ^ len

/-- R49 (c): a field that the format does not use is not 0000. The fields are named by their lowest bits: rs2 12,
rs3 8, rd2 4, rd3 0. -/
def unusedNonzero (c : Cmd) : Format → Prop
  | .f1D1S => field c 12 4 ≠ 0 ∨ field c 8 4 ≠ 0 ∨ field c 4 4 ≠ 0 ∨ field c 0 4 ≠ 0
  | .f1D2S => field c 8 4 ≠ 0 ∨ field c 4 4 ≠ 0 ∨ field c 0 4 ≠ 0
  | .f1D3S => field c 4 4 ≠ 0 ∨ field c 0 4 ≠ 0
  | .f2D2S => field c 8 4 ≠ 0 ∨ field c 0 4 ≠ 0
  | .f2D3S => field c 0 4 ≠ 0
  | .f3D1S => field c 12 4 ≠ 0 ∨ field c 8 4 ≠ 0

/-- R49 (d), R45: a destination is repeated (rd at bit 20, rd2 at 4, rd3 at 0). -/
def repeatsDestination (c : Cmd) : Format → Prop
  | .f1D1S | .f1D2S | .f1D3S => False
  | .f2D2S | .f2D3S => field c 20 4 = field c 4 4
  | .f3D1S => field c 20 4 = field c 4 4 ∨ field c 20 4 = field c 0 4 ∨ field c 4 4 = field c 0 4

/-- R49: when a command word is illegal. -/
def IllegalWord (c : Cmd) : Prop :=
  match formatOf (field c 26 6) with
  | none => True
  | some f => (0x20 ≤ field c 26 6 ∧ field c 24 2 ≠ 1) ∨ unusedNonzero c f ∨ repeatsDestination c f

/-! ### Rounding over the rationals -/

/-- rne(m) of R11 on an exact rational. -/
def rneRat (m : ℚ) : ℤ :=
  if m - ⌊m⌋ > 1 / 2 then ⌊m⌋ + 1
  else if m - ⌊m⌋ = 1 / 2 ∧ ⌊m⌋ % 2 = 1 then ⌊m⌋ + 1
  else ⌊m⌋

/-- (-1)^s * sig(x) * 2^q(x) as a rational (R92), from the fields of R89. -/
def valRat (x : Packed) : ℚ :=
  (if sgn x then -1 else 1) * (sig x : ℚ) * (2 : ℚ) ^ (lastExp x)

/-- The rational an exact dyadic value stands for. -/
def exactRat (v : Exact) : ℚ := (v.mant : ℚ) * (2 : ℚ) ^ v.exp

/-- RoundPack's ULP exponent q = max(E - 236, EMIN - 236), E = floor(log2(v)) (R95). -/
def ulpExp (v : ℚ) : ℤ := max (Int.log 2 v - 236) (-262142 - 236)

/-- The last three lines of RoundPack (R95). -/
def finishRat (s : Bool) (n q : ℤ) : Packed :=
  if q > 262143 - 236 then infOf s
  else if n ≥ 2 ^ 236 then packFields s (BitVec.ofInt 19 (q + 236 + 262143)) (BitVec.ofInt 236 (n - 2 ^ 236))
  else packFields s 0 (BitVec.ofInt 236 n)

/-- RoundPack(s, v) of R95, line by line over the rationals. -/
def roundPackRat (s : Bool) (v : ℚ) : Packed :=
  if rneRat (v / (2 : ℚ) ^ (ulpExp v)) = 2 ^ 237 then finishRat s (2 ^ 236) (ulpExp v + 1)
  else finishRat s (rneRat (v / (2 : ℚ) ^ (ulpExp v))) (ulpExp v)

/-! ### The float operations over the rationals -/

/-- FADD's result (R103). -/
def addRat (x y : Packed) : Packed :=
  if isNaN x ∨ isNaN y then qNaN
  else if isInf x ∧ isInf y then (if sgn x ≠ sgn y then qNaN else infOf (sgn x))
  else if isInf x then infOf (sgn x)
  else if isInf y then infOf (sgn y)
  else if valRat x + valRat y = 0 then
    (if isZero x ∧ isZero y then zeroOf (sgn x && sgn y) else zeroOf false)
  else roundPackRat (decide (valRat x + valRat y < 0)) |valRat x + valRat y|

/-- FMUL's result (R105). -/
def mulRat (x y : Packed) : Packed :=
  if isNaN x ∨ isNaN y then qNaN
  else if (isInf x ∧ isZero y) ∨ (isZero x ∧ isInf y) then qNaN
  else if isInf x ∨ isInf y then infOf (sgn x ^^ sgn y)
  else if isZero x ∨ isZero y then zeroOf (sgn x ^^ sgn y)
  else roundPackRat (sgn x ^^ sgn y) (|valRat x| * |valRat y|)

/-- FDIV's result (R106). -/
def divRat (x y : Packed) : Packed :=
  if isNaN x ∨ isNaN y then qNaN
  else if isInf x ∧ isInf y then qNaN
  else if isZero x ∧ isZero y then qNaN
  else if isInf x then infOf (sgn x ^^ sgn y)
  else if isInf y then zeroOf (sgn x ^^ sgn y)
  else if isZero y then infOf (sgn x ^^ sgn y)
  else if isZero x then zeroOf (sgn x ^^ sgn y)
  else roundPackRat (sgn x ^^ sgn y) (|valRat x| / |valRat y|)

/-- FMA's result (R107). -/
def fmaRat (x y z : Packed) : Packed :=
  if isNaN x ∨ isNaN y ∨ isNaN z then qNaN
  else if (isInf x ∧ isZero y) ∨ (isZero x ∧ isInf y) then qNaN
  else if (isInf x ∨ isInf y) ∧ isInf z ∧ (sgn x ^^ sgn y) ≠ sgn z then qNaN
  else if isInf x ∨ isInf y then infOf (sgn x ^^ sgn y)
  else if isInf z then infOf (sgn z)
  else if valRat x * valRat y + valRat z = 0 then
    (if (isZero x ∨ isZero y) ∧ isZero z then zeroOf ((sgn x ^^ sgn y) && sgn z) else zeroOf false)
  else roundPackRat (decide (valRat x * valRat y + valRat z < 0)) |valRat x * valRat y + valRat z|

/-- FPACK's result (R99). -/
def packRat (m : Nat) (q : ℤ) (s : Bool) : Packed :=
  if m = 0 then zeroOf s else roundPackRat s ((m : ℚ) * (2 : ℚ) ^ q)

/-- ext(x) of R111 for an x that is no NaN: the value, or an infinity below or above every real. -/
def extVal (x : Packed) : WithBot (WithTop ℚ) :=
  if isInf x then (if sgn x then ⊥ else ⊤) else ((valRat x : WithTop ℚ) : WithBot (WithTop ℚ))

/-- key(v) of R112, from the pattern read as a number: v[254:0] when bit 255 is 0, else -(v[254:0]) - 1. -/
def keyOf (x : Packed) : ℤ :=
  if x.toNat < 2 ^ 255 then (x.toNat : ℤ) else -((x.toNat - 2 ^ 255 : ℕ) : ℤ) - 1

/-! ### Fields of a float by position, and faults -/

/-- The exponent field, bits 254:236 (R89). -/
def expBits (x : Packed) : Nat := x.toNat / 2 ^ 236 % 2 ^ 19

/-- The fraction field, bits 235:0 (R89). -/
def fracBits (x : Packed) : Nat := x.toNat % 2 ^ 236

/-- The sign, bit 255 (R89). -/
def negBit (x : Packed) : Prop := 2 ^ 255 ≤ x.toNat

/-- Which cause a legal command raises on these operands, by the table of R113; none when it completes. -/
def operandFault (i : Instr) (s : State) : Option Cause :=
  match i with
  | .divrem w _ _ _ b | .rdiv w _ _ b => if s.readInt w b = 0 then some .divZero else none
  | .shl w _ _ k | .shr w _ _ k | .wshl w _ _ _ k | .wshr w _ _ _ k | .cshl w _ _ _ k _ | .cshr w _ _ _ k _ =>
    if bits w ≤ s.readInt w k then some .shiftRange else none
  | .msb w _ a => if s.readInt w a = 0 then some .msbZero else none
  | _ => none

/-- ADD, ADC, SUB and SBB, the only commands that write CF (R18). -/
def writesCarry : Instr → Bool
  | .add .. | .adc .. | .sub .. | .sbb .. => true
  | _ => false

end Sys2Proof.Reference
end

