-- ==== Sys2Proof/Safety.lean ====
section
/-! DEFINITION. What a run is and when it is bad (70_reset_and_hazards.md R131), when it reads written registers only
(R129), the invariant of the status registers, and what a completed and a faulting command leave unchanged, in the terms the statements use. -/

namespace Sys2Proof.Machine

/-- The output `fault` and STATUS.FAULT are 1: the block is halted (R116, R119, R131). -/
def State.bad (s : State) : Bool := s.fault

/-- The state after the host performs one action. Every action answers a next state, so the other cases do not occur. -/
def afterAction (s : State) (a : HostAction) : State :=
  match hostAct a s with
  | .next t => t
  | .fault _ => s
  | .refused _ => s

/-- The state after the host performs these actions in order (R37, R130). -/
def afterActions (s : State) (acts : List HostAction) : State := acts.foldl afterAction s

/-- The end state of a run (R131): a Reset of a block in any state, then a finite sequence of host actions. The run is
bad when this state is. -/
def endOfRun (s : State) (acts : List HostAction) : State := afterActions s (.reset :: acts)

/-! ### The domain of UNWRITTEN_READ = refuse (R16, R129): no read of a register not written since reset -/

/-- The registers written since the last reset, after an action from `s`: a host write adds its register, a command
that completes adds its destinations, a Reset leaves none. -/
def writtenAfter (written : List RegId) (a : HostAction) (s : State) : List RegId :=
  match a with
  | .reset => []
  | .writeReg i _ => i :: written
  | .readReg _ => written
  | .readStatus _ => written
  | .issue c =>
    match decode c with
    | .ok i => if (afterAction s a).fault then written else i.dests ++ written
    | .error _ => written

/-- The action reads no register outside `written`: a register read names one of them, and so does every source of a
command that a block which is not halted runs. -/
def readsOnly (written : List RegId) (a : HostAction) (s : State) : Bool :=
  match a with
  | .readReg i => decide (i ∈ written)
  | .issue c =>
    match decode c with
    | .ok i => s.fault || i.sources.all (fun r => decide (r ∈ written))
    | .error _ => true
  | .reset => true
  | .writeReg _ _ => true
  | .readStatus _ => true

/-- Every action of the sequence reads written registers only (R129). -/
def inDomain (written : List RegId) (s : State) : List HostAction → Bool
  | [] => true
  | a :: rest => readsOnly written a s && inDomain (writtenAfter written a s) (afterAction s a) rest

/-- The registers written since the last reset, after the whole sequence. -/
def writtenAtEnd (written : List RegId) (s : State) : List HostAction → List RegId
  | [] => written
  | a :: rest => writtenAtEnd (writtenAfter written a s) (afterAction s a) rest

/-! ### Invariant and frames -/

/-- The cause a fault recorded fits the word it recorded: each cause has the commands that raise it (R113). -/
def causeFits (c : Cause) (r : Except DecodeReject Instr) : Bool :=
  match c, r with
  | .illegal, .error _ => true
  | .divZero, .ok (.divrem ..) => true
  | .divZero, .ok (.rdiv ..) => true
  | .shiftRange, .ok (.shl ..) => true
  | .shiftRange, .ok (.shr ..) => true
  | .shiftRange, .ok (.wshl ..) => true
  | .shiftRange, .ok (.wshr ..) => true
  | .shiftRange, .ok (.cshl ..) => true
  | .shiftRange, .ok (.cshr ..) => true
  | .msbZero, .ok (.msb ..) => true
  | _, _ => false

/-- The invariant of the status registers. While FAULT = 0, CAUSE, FCMD and FCIX are 0 (R21, R24, R25); once
FAULT = 1, FCIX is the CIX at which the block halted and still is (R17, R115, R116), and CAUSE is a cause that the
recorded word can raise (R113). -/
structure State.Inv (s : State) : Prop where
  running : s.fault = false → s.cause = .none ∧ s.fcmd = 0 ∧ s.fcix = 0
  halted : s.fault = true → s.fcix = s.cix ∧ causeFits s.cause (decode s.fcmd) = true

/-- Nothing but the data registers, CF and CIX differs. -/
structure SameStatus (s t : State) : Prop where
  fault : t.fault = s.fault
  cause : t.cause = s.cause
  fcmd : t.fcmd = s.fcmd
  fcix : t.fcix = s.fcix
  pending : t.pending = s.pending
  answer : t.answer = s.answer
  draws : t.draws = s.draws

/-- From `s` a command completed in `t`: CIX is one more modulo 2^32 (R17), CF is `cf`, every data register that is no
destination keeps its value, and nothing else changed (R26, R52). -/
structure Completed (s t : State) (dests : List RegId) (cf : Bool) : Prop where
  cix : t.cix = s.cix + 1
  carry : t.cf = cf
  others : ∀ r, r ∉ dests → t.reg r = s.reg r
  status : SameStatus s t

/-- From `s` a command with word `w` faulted in `t` with cause `c` (R115): the four writes of the fault entry and
nothing else. -/
structure Faulted (s t : State) (c : Cause) (w : Cmd) : Prop where
  fault : t.fault = true
  cause : t.cause = c
  fcmd : t.fcmd = w
  fcix : t.fcix = s.cix
  cix : t.cix = s.cix
  carry : t.cf = s.cf
  regs : ∀ r, t.reg r = s.reg r
  pending : t.pending = s.pending
  answer : t.answer = s.answer
  draws : t.draws = s.draws

end Sys2Proof.Machine
end

