-- ==== Sys2Proof/Certificates/Slice0/Obligations.lean ====
section
/-! DEFINITION. The statements about the block, each formalising rules of spec/. Every statement holds for every state,
halted or not, unless a hypothesis says otherwise: `exec` is the rule of a command's opcode, the test of the halted
state is the issue's (30_encoding.md R52, 60_exceptions.md R116). -/

open Sys2Proof Sys2Proof.Machine Sys2Proof.Reference

/-- ADD writes the sum modulo 2^N and the carry. R58. -/
def Obligations.AddWritesSumAndCarry : Prop :=
  ∀ (w : Width) (rd rs1 rs2 : RegId) (s : State),
    Encodes (.add w rd rs1 rs2) 0x01 (widthNumber w) rd rs1 rs2 0 0 0 ∧
    ∃ t, exec (.add w rd rs1 rs2) s = .next t ∧
      (t.reg rd).toNat = (s.readInt w rs1 + s.readInt w rs2) % 2 ^ bits w ∧
      Completed s t [rd] (decide (2 ^ bits w ≤ s.readInt w rs1 + s.readInt w rs2))

/-- ADC adds CF in and writes the carry out. R59. -/
def Obligations.AdcWritesSumWithCarryIn : Prop :=
  ∀ (w : Width) (rd rs1 rs2 : RegId) (s : State),
    Encodes (.adc w rd rs1 rs2) 0x02 (widthNumber w) rd rs1 rs2 0 0 0 ∧
    ∃ t, exec (.adc w rd rs1 rs2) s = .next t ∧
      (t.reg rd).toNat = (s.readInt w rs1 + s.readInt w rs2 + s.cf.toNat) % 2 ^ bits w ∧
      Completed s t [rd] (decide (2 ^ bits w ≤ s.readInt w rs1 + s.readInt w rs2 + s.cf.toNat))

/-- SUB writes the difference modulo 2^N and the borrow. R60. -/
def Obligations.SubWritesDifferenceAndBorrow : Prop :=
  ∀ (w : Width) (rd rs1 rs2 : RegId) (s : State),
    Encodes (.sub w rd rs1 rs2) 0x03 (widthNumber w) rd rs1 rs2 0 0 0 ∧
    ∃ t, exec (.sub w rd rs1 rs2) s = .next t ∧
      ((t.reg rd).toNat : ℤ) = ((s.readInt w rs1 : ℤ) - s.readInt w rs2) % (2 ^ bits w : ℕ) ∧
      Completed s t [rd] (decide (s.readInt w rs1 < s.readInt w rs2))

/-- SBB subtracts CF in and writes the borrow out. R61. -/
def Obligations.SbbWritesDifferenceWithBorrowIn : Prop :=
  ∀ (w : Width) (rd rs1 rs2 : RegId) (s : State),
    Encodes (.sbb w rd rs1 rs2) 0x04 (widthNumber w) rd rs1 rs2 0 0 0 ∧
    ∃ t, exec (.sbb w rd rs1 rs2) s = .next t ∧
      ((t.reg rd).toNat : ℤ) = ((s.readInt w rs1 : ℤ) - s.readInt w rs2 - s.cf.toNat) % (2 ^ bits w : ℕ) ∧
      Completed s t [rd] (decide (s.readInt w rs1 < s.readInt w rs2 + s.cf.toNat))

/-- INC and DEC wrap modulo 2^N and leave CF alone. R62, R63. -/
def Obligations.IncDecWrapAndKeepCarry : Prop :=
  ∀ (w : Width) (rd rs1 : RegId) (s : State),
    (Encodes (.inc w rd rs1) 0x05 (widthNumber w) rd rs1 0 0 0 0 ∧
      ∃ t, exec (.inc w rd rs1) s = .next t ∧
        (t.reg rd).toNat = (s.readInt w rs1 + 1) % 2 ^ bits w ∧ Completed s t [rd] s.cf) ∧
    (Encodes (.dec w rd rs1) 0x06 (widthNumber w) rd rs1 0 0 0 0 ∧
      ∃ t, exec (.dec w rd rs1) s = .next t ∧
        ((t.reg rd).toNat : ℤ) = ((s.readInt w rs1 : ℤ) - 1) % (2 ^ bits w : ℕ) ∧ Completed s t [rd] s.cf)

/-- CMP writes 0, 1 or 2 by the unsigned order. R64. -/
def Obligations.CmpWritesOrderCode : Prop :=
  ∀ (w : Width) (rd rs1 rs2 : RegId) (s : State),
    Encodes (.cmp w rd rs1 rs2) 0x07 (widthNumber w) rd rs1 rs2 0 0 0 ∧
    ∃ t, exec (.cmp w rd rs1 rs2) s = .next t ∧
      (t.reg rd).toNat =
        (if s.readInt w rs1 < s.readInt w rs2 then 0 else if s.readInt w rs1 = s.readInt w rs2 then 1 else 2) ∧
      Completed s t [rd] s.cf

/-- ADD then ADC, and SUB then SBB, compute at twice the width. R57, for the two pieces that one link of the chain joins; `rl` and `rh` take the low and the high result. The spec marks it as its own inference from R58 and R59. -/
def Obligations.CarryChainsDoubleTheWidth : Prop :=
  ∀ (w : Width) (rl rh x0 x1 y0 y1 : RegId) (s : State), rl ≠ rh → rl ≠ x1 → rl ≠ y1 →
    (∃ t u, exec (.add w rl x0 y0) s = .next t ∧ exec (.adc w rh x1 y1) t = .next u ∧
      u.readInt w rl + 2 ^ bits w * u.readInt w rh + 2 ^ bits w * 2 ^ bits w * u.cf.toNat =
        (s.readInt w x0 + 2 ^ bits w * s.readInt w x1) + (s.readInt w y0 + 2 ^ bits w * s.readInt w y1)) ∧
    (∃ t u, exec (.sub w rl x0 y0) s = .next t ∧ exec (.sbb w rh x1 y1) t = .next u ∧
      (u.readInt w rl + 2 ^ bits w * u.readInt w rh) + (s.readInt w y0 + 2 ^ bits w * s.readInt w y1) =
        (s.readInt w x0 + 2 ^ bits w * s.readInt w x1) + 2 ^ bits w * 2 ^ bits w * u.cf.toNat)

/-- MULW writes the whole 2N-bit product over two registers. R69; the destinations differ (R45). -/
def Obligations.MulwWritesWholeProduct : Prop :=
  ∀ (w : Width) (rd rd2 rs1 rs2 : RegId) (s : State), rd ≠ rd2 →
    Encodes (.mulw w rd rd2 rs1 rs2) 0x08 (widthNumber w) rd rs1 rs2 0 rd2 0 ∧
    ∃ t, exec (.mulw w rd rd2 rs1 rs2) s = .next t ∧
      (t.reg rd).toNat = s.readInt w rs1 * s.readInt w rs2 % 2 ^ bits w ∧
      (t.reg rd2).toNat = s.readInt w rs1 * s.readInt w rs2 / 2 ^ bits w ∧
      (t.reg rd).toNat + 2 ^ bits w * (t.reg rd2).toNat = s.readInt w rs1 * s.readInt w rs2 ∧
      Completed s t [rd, rd2] s.cf

/-- MULLO and MULHI write the low and the high half of the product. R70, R71. -/
def Obligations.MulloMulhiAreTheHalves : Prop :=
  ∀ (w : Width) (rd rs1 rs2 : RegId) (s : State),
    (Encodes (.mullo w rd rs1 rs2) 0x09 (widthNumber w) rd rs1 rs2 0 0 0 ∧
      ∃ t, exec (.mullo w rd rs1 rs2) s = .next t ∧
        (t.reg rd).toNat = s.readInt w rs1 * s.readInt w rs2 % 2 ^ bits w ∧ Completed s t [rd] s.cf) ∧
    (Encodes (.mulhi w rd rs1 rs2) 0x0A (widthNumber w) rd rs1 rs2 0 0 0 ∧
      ∃ t, exec (.mulhi w rd rs1 rs2) s = .next t ∧
        (t.reg rd).toNat = s.readInt w rs1 * s.readInt w rs2 / 2 ^ bits w ∧ Completed s t [rd] s.cf)

/-- DIVREM writes quotient and remainder, or faults on a zero divisor. R66, R72; the destinations differ (R45). -/
def Obligations.DivremDividesOrFaults : Prop :=
  ∀ (w : Width) (rd rd2 rs1 rs2 : RegId) (s : State), rd ≠ rd2 →
    Encodes (.divrem w rd rd2 rs1 rs2) 0x0B (widthNumber w) rd rs1 rs2 0 rd2 0 ∧
    (s.readInt w rs2 = 0 → ∃ t, exec (.divrem w rd rd2 rs1 rs2) s = .next t ∧
      Faulted s t .divZero (wordOf 0x0B (widthNumber w) rd rs1 rs2 0 rd2 0)) ∧
    (s.readInt w rs2 ≠ 0 → ∃ t, exec (.divrem w rd rd2 rs1 rs2) s = .next t ∧
      (t.reg rd).toNat = s.readInt w rs1 / s.readInt w rs2 ∧
      (t.reg rd2).toNat = s.readInt w rs1 % s.readInt w rs2 ∧
      s.readInt w rs1 = (t.reg rd).toNat * s.readInt w rs2 + (t.reg rd2).toNat ∧
      (t.reg rd2).toNat < s.readInt w rs2 ∧
      Completed s t [rd, rd2] s.cf)

/-- RDIV rounds the exact quotient to nearest even, or faults. R73, with rne over the exact rational (R11). -/
def Obligations.RdivRoundsQuotientToEven : Prop :=
  ∀ (w : Width) (rd rs1 rs2 : RegId) (s : State),
    Encodes (.rdiv w rd rs1 rs2) 0x0C (widthNumber w) rd rs1 rs2 0 0 0 ∧
    (s.readInt w rs2 = 0 → ∃ t, exec (.rdiv w rd rs1 rs2) s = .next t ∧
      Faulted s t .divZero (wordOf 0x0C (widthNumber w) rd rs1 rs2 0 0 0)) ∧
    (s.readInt w rs2 ≠ 0 → ∃ t, exec (.rdiv w rd rs1 rs2) s = .next t ∧
      ((t.reg rd).toNat : ℤ) = rneRat ((s.readInt w rs1 : ℚ) / s.readInt w rs2) ∧
      (t.reg rd).toNat < 2 ^ bits w ∧
      Completed s t [rd] s.cf)

/-- RDIVP2 rounds a / 2^n to nearest even for every n. R74, with rne over the exact rational (R11). -/
def Obligations.Rdivp2RoundsForEveryPower : Prop :=
  ∀ (w : Width) (rd rs1 rs2 : RegId) (s : State),
    Encodes (.rdivp2 w rd rs1 rs2) 0x0D (widthNumber w) rd rs1 rs2 0 0 0 ∧
    ∃ t, exec (.rdivp2 w rd rs1 rs2) s = .next t ∧
      ((t.reg rd).toNat : ℤ) = rneRat ((s.readInt w rs1 : ℚ) / (2 : ℚ) ^ s.readInt w rs2) ∧
      (t.reg rd).toNat < 2 ^ bits w ∧
      Completed s t [rd] s.cf

/-- RDIVP10 rounds a / 10^n to nearest even for every n. R75, with rne over the exact rational (R11). -/
def Obligations.Rdivp10RoundsForEveryPower : Prop :=
  ∀ (w : Width) (rd rs1 rs2 : RegId) (s : State),
    Encodes (.rdivp10 w rd rs1 rs2) 0x0E (widthNumber w) rd rs1 rs2 0 0 0 ∧
    ∃ t, exec (.rdivp10 w rd rs1 rs2) s = .next t ∧
      ((t.reg rd).toNat : ℤ) = rneRat ((s.readInt w rs1 : ℚ) / (10 : ℚ) ^ s.readInt w rs2) ∧
      (t.reg rd).toNat < 2 ^ bits w ∧
      Completed s t [rd] s.cf

/-- SHL and SHR shift by less than the width, or fault. R78, R79. -/
def Obligations.ShlShrShiftOrFault : Prop :=
  ∀ (w : Width) (rd rs1 rs2 : RegId) (s : State),
    (Encodes (.shl w rd rs1 rs2) 0x10 (widthNumber w) rd rs1 rs2 0 0 0 ∧
      (bits w ≤ s.readInt w rs2 → ∃ t, exec (.shl w rd rs1 rs2) s = .next t ∧
        Faulted s t .shiftRange (wordOf 0x10 (widthNumber w) rd rs1 rs2 0 0 0)) ∧
      (s.readInt w rs2 < bits w → ∃ t, exec (.shl w rd rs1 rs2) s = .next t ∧
        (t.reg rd).toNat = s.readInt w rs1 * 2 ^ s.readInt w rs2 % 2 ^ bits w ∧ Completed s t [rd] s.cf)) ∧
    (Encodes (.shr w rd rs1 rs2) 0x11 (widthNumber w) rd rs1 rs2 0 0 0 ∧
      (bits w ≤ s.readInt w rs2 → ∃ t, exec (.shr w rd rs1 rs2) s = .next t ∧
        Faulted s t .shiftRange (wordOf 0x11 (widthNumber w) rd rs1 rs2 0 0 0)) ∧
      (s.readInt w rs2 < bits w → ∃ t, exec (.shr w rd rs1 rs2) s = .next t ∧
        (t.reg rd).toNat = s.readInt w rs1 / 2 ^ s.readInt w rs2 ∧ Completed s t [rd] s.cf))

/-- WSHL and WSHR give the shifted value and the bits that fell off. R80, R81; the destinations differ (R45). -/
def Obligations.WideningShiftsKeepSpilledBits : Prop :=
  ∀ (w : Width) (rd rd2 rs1 rs2 : RegId) (s : State), rd ≠ rd2 →
    (Encodes (.wshl w rd rd2 rs1 rs2) 0x12 (widthNumber w) rd rs1 rs2 0 rd2 0 ∧
      (bits w ≤ s.readInt w rs2 → ∃ t, exec (.wshl w rd rd2 rs1 rs2) s = .next t ∧
        Faulted s t .shiftRange (wordOf 0x12 (widthNumber w) rd rs1 rs2 0 rd2 0)) ∧
      (s.readInt w rs2 < bits w → ∃ t, exec (.wshl w rd rd2 rs1 rs2) s = .next t ∧
        (t.reg rd).toNat = s.readInt w rs1 * 2 ^ s.readInt w rs2 % 2 ^ bits w ∧
        (t.reg rd2).toNat = s.readInt w rs1 * 2 ^ s.readInt w rs2 / 2 ^ bits w ∧
        Completed s t [rd, rd2] s.cf)) ∧
    (Encodes (.wshr w rd rd2 rs1 rs2) 0x13 (widthNumber w) rd rs1 rs2 0 rd2 0 ∧
      (bits w ≤ s.readInt w rs2 → ∃ t, exec (.wshr w rd rd2 rs1 rs2) s = .next t ∧
        Faulted s t .shiftRange (wordOf 0x13 (widthNumber w) rd rs1 rs2 0 rd2 0)) ∧
      (s.readInt w rs2 < bits w → ∃ t, exec (.wshr w rd rd2 rs1 rs2) s = .next t ∧
        (t.reg rd).toNat = s.readInt w rs1 / 2 ^ s.readInt w rs2 ∧
        (t.reg rd2).toNat = s.readInt w rs1 % 2 ^ s.readInt w rs2 * 2 ^ (bits w - s.readInt w rs2) ∧
        Completed s t [rd, rd2] s.cf))

/-- CSHL and CSHR OR the carry operand into the shifted value. R82, R83; the destinations differ (R45). -/
def Obligations.CarryingShiftsOrInTheCarry : Prop :=
  ∀ (w : Width) (rd rd2 rs1 rs2 rs3 : RegId) (s : State), rd ≠ rd2 →
    (Encodes (.cshl w rd rd2 rs1 rs2 rs3) 0x14 (widthNumber w) rd rs1 rs2 rs3 rd2 0 ∧
      (bits w ≤ s.readInt w rs2 → ∃ t, exec (.cshl w rd rd2 rs1 rs2 rs3) s = .next t ∧
        Faulted s t .shiftRange (wordOf 0x14 (widthNumber w) rd rs1 rs2 rs3 rd2 0)) ∧
      (s.readInt w rs2 < bits w → ∃ t, exec (.cshl w rd rd2 rs1 rs2 rs3) s = .next t ∧
        (t.reg rd).toNat = (s.readInt w rs1 * 2 ^ s.readInt w rs2 % 2 ^ bits w) ||| s.readInt w rs3 ∧
        (t.reg rd2).toNat = s.readInt w rs1 * 2 ^ s.readInt w rs2 / 2 ^ bits w ∧
        Completed s t [rd, rd2] s.cf)) ∧
    (Encodes (.cshr w rd rd2 rs1 rs2 rs3) 0x15 (widthNumber w) rd rs1 rs2 rs3 rd2 0 ∧
      (bits w ≤ s.readInt w rs2 → ∃ t, exec (.cshr w rd rd2 rs1 rs2 rs3) s = .next t ∧
        Faulted s t .shiftRange (wordOf 0x15 (widthNumber w) rd rs1 rs2 rs3 rd2 0)) ∧
      (s.readInt w rs2 < bits w → ∃ t, exec (.cshr w rd rd2 rs1 rs2 rs3) s = .next t ∧
        (t.reg rd).toNat = (s.readInt w rs1 / 2 ^ s.readInt w rs2) ||| s.readInt w rs3 ∧
        (t.reg rd2).toNat = s.readInt w rs1 % 2 ^ s.readInt w rs2 * 2 ^ (bits w - s.readInt w rs2) ∧
        Completed s t [rd, rd2] s.cf))

/-- Every shift faults at k >= N, and SHL then SHR restores the low bits. R76. The exact results for k < N are those of `ShlShrShiftOrFault`, `WideningShiftsKeepSpilledBits` and `CarryingShiftsOrInTheCarry`. -/
def Obligations.ShiftAmountBelowWidthLaw : Prop :=
  ∀ (w : Width) (a k c rd rd2 : RegId) (s : State),
    (bits w ≤ s.readInt w k →
      ∀ i ∈ [Instr.shl w rd a k, .shr w rd a k, .wshl w rd rd2 a k, .wshr w rd rd2 a k, .cshl w rd rd2 a k c,
          .cshr w rd rd2 a k c],
        ∃ t, exec i s = .next t ∧ Faulted s t .shiftRange (encode i)) ∧
    (s.readInt w k < bits w → rd ≠ k →
      ∃ t u, exec (.shl w rd a k) s = .next t ∧ exec (.shr w rd2 rd k) t = .next u ∧
        u.readInt w rd2 = s.readInt w a % 2 ^ (bits w - s.readInt w k))

/-- A widening and a carrying shift compose to a shift of a 2N-bit value. R77. The first destination pair is (p, c), the second (p', d). The spec marks it as its own inference from R80 to R83. -/
def Obligations.PairOfShiftsShiftsTwiceTheWidth : Prop :=
  ∀ (w : Width) (lo hi k p c p' d : RegId) (s : State), s.readInt w k < bits w → p ≠ c → p' ≠ d →
    p' ≠ p → d ≠ p → p ≠ k → c ≠ k →
    (p ≠ hi → c ≠ hi → ∃ t u, exec (.wshl w p c lo k) s = .next t ∧ exec (.cshl w p' d hi k c) t = .next u ∧
      u.readInt w p + 2 ^ bits w * u.readInt w p' =
        (s.readInt w lo + 2 ^ bits w * s.readInt w hi) * 2 ^ s.readInt w k % (2 ^ bits w * 2 ^ bits w)) ∧
    (p ≠ lo → c ≠ lo → ∃ t u, exec (.wshr w p c hi k) s = .next t ∧ exec (.cshr w p' d lo k c) t = .next u ∧
      u.readInt w p' + 2 ^ bits w * u.readInt w p =
        (s.readInt w lo + 2 ^ bits w * s.readInt w hi) / 2 ^ s.readInt w k)

/-- CLZ and CTZ count leading and trailing zeros, N for zero. R84, R85. -/
def Obligations.ClzCtzCountZeros : Prop :=
  ∀ (w : Width) (rd rs1 : RegId) (s : State),
    (Encodes (.clz w rd rs1) 0x16 (widthNumber w) rd rs1 0 0 0 0 ∧
      ∃ t, exec (.clz w rd rs1) s = .next t ∧ Completed s t [rd] s.cf ∧
        (s.readInt w rs1 = 0 → (t.reg rd).toNat = bits w) ∧
        (s.readInt w rs1 ≠ 0 → (t.reg rd).toNat < bits w ∧
          2 ^ (bits w - 1 - (t.reg rd).toNat) ≤ s.readInt w rs1 ∧
          s.readInt w rs1 < 2 ^ (bits w - (t.reg rd).toNat))) ∧
    (Encodes (.ctz w rd rs1) 0x17 (widthNumber w) rd rs1 0 0 0 0 ∧
      ∃ t, exec (.ctz w rd rs1) s = .next t ∧ Completed s t [rd] s.cf ∧
        (s.readInt w rs1 = 0 → (t.reg rd).toNat = bits w) ∧
        (s.readInt w rs1 ≠ 0 → s.readInt w rs1 % 2 ^ (t.reg rd).toNat = 0 ∧
          ∀ n, s.readInt w rs1 % 2 ^ n = 0 → n ≤ (t.reg rd).toNat))

/-- MSB gives the index of the top set bit, or faults on zero. R86. -/
def Obligations.MsbIndexOrFault : Prop :=
  ∀ (w : Width) (rd rs1 : RegId) (s : State),
    Encodes (.msb w rd rs1) 0x18 (widthNumber w) rd rs1 0 0 0 0 ∧
    (s.readInt w rs1 = 0 → ∃ t, exec (.msb w rd rs1) s = .next t ∧
      Faulted s t .msbZero (wordOf 0x18 (widthNumber w) rd rs1 0 0 0 0)) ∧
    (s.readInt w rs1 ≠ 0 → ∃ t, exec (.msb w rd rs1) s = .next t ∧ Completed s t [rd] s.cf ∧
      2 ^ (t.reg rd).toNat ≤ s.readInt w rs1 ∧ s.readInt w rs1 < 2 ^ ((t.reg rd).toNat + 1))

/-- ISEVEN and ISODD test bit 0 of the source at every width. R87, R88. -/
def Obligations.ParityIsBitZero : Prop :=
  ∀ (w : Width) (rd rs1 : RegId) (s : State),
    (Encodes (.iseven w rd rs1) 0x19 (widthNumber w) rd rs1 0 0 0 0 ∧
      ∃ t, exec (.iseven w rd rs1) s = .next t ∧ Completed s t [rd] s.cf ∧
        (t.reg rd).toNat = (if (s.reg rs1).getLsbD 0 then 0 else 1)) ∧
    (Encodes (.isodd w rd rs1) 0x1A (widthNumber w) rd rs1 0 0 0 0 ∧
      ∃ t, exec (.isodd w rd rs1) s = .next t ∧ Completed s t [rd] s.cf ∧
        (t.reg rd).toNat = (if (s.reg rs1).getLsbD 0 then 1 else 0))

/-- FCLASS writes the class code of the fields. R97, with the classes of R91 by field positions (R89). -/
def Obligations.FclassCodesByFields : Prop :=
  ∀ (rd rs1 : RegId) (s : State),
    Encodes (.fclass rd rs1) 0x29 1 rd rs1 0 0 0 0 ∧
    ∃ t, exec (.fclass rd rs1) s = .next t ∧ Completed s t [rd] s.cf ∧
      (expBits (s.readFloat rs1) = 524287 ∧ fracBits (s.readFloat rs1) ≠ 0 → (t.reg rd).toNat = 0) ∧
      (expBits (s.readFloat rs1) = 524287 ∧ fracBits (s.readFloat rs1) = 0 →
        (negBit (s.readFloat rs1) → (t.reg rd).toNat = 1) ∧ (¬ negBit (s.readFloat rs1) → (t.reg rd).toNat = 8)) ∧
      (1 ≤ expBits (s.readFloat rs1) ∧ expBits (s.readFloat rs1) ≤ 524286 →
        (negBit (s.readFloat rs1) → (t.reg rd).toNat = 2) ∧ (¬ negBit (s.readFloat rs1) → (t.reg rd).toNat = 7)) ∧
      (expBits (s.readFloat rs1) = 0 ∧ fracBits (s.readFloat rs1) ≠ 0 →
        (negBit (s.readFloat rs1) → (t.reg rd).toNat = 3) ∧ (¬ negBit (s.readFloat rs1) → (t.reg rd).toNat = 6)) ∧
      (expBits (s.readFloat rs1) = 0 ∧ fracBits (s.readFloat rs1) = 0 →
        (negBit (s.readFloat rs1) → (t.reg rd).toNat = 4) ∧ (¬ negBit (s.readFloat rs1) → (t.reg rd).toNat = 5))

/-- FUNPACK writes significand, exponent and sign. R98; the destinations are pairwise different (R45). -/
def Obligations.FunpackWritesTheTriple : Prop :=
  ∀ (rd rd2 rd3 rs1 : RegId) (s : State), rd ≠ rd2 → rd ≠ rd3 → rd2 ≠ rd3 →
    Encodes (.funpack rd rd2 rd3 rs1) 0x2B 1 rd rs1 0 0 rd2 rd3 ∧
    ∃ t, exec (.funpack rd rd2 rd3 rs1) s = .next t ∧ Completed s t [rd, rd2, rd3] s.cf ∧
      (t.reg rd).toNat =
        (if 1 ≤ expBits (s.readFloat rs1) ∧ expBits (s.readFloat rs1) ≤ 524286
          then 2 ^ 236 + fracBits (s.readFloat rs1) else fracBits (s.readFloat rs1)) ∧
      ((t.reg rd2).toNat : ℤ) = ((max (expBits (s.readFloat rs1)) 1 : ℕ) - 262143 - 236 : ℤ) % 2 ^ 32 ∧
      (negBit (s.readFloat rs1) → (t.reg rd3).toNat = 1) ∧ (¬ negBit (s.readFloat rs1) → (t.reg rd3).toNat = 0) ∧
      (isFinite (s.readFloat rs1) = true →
        valRat (s.readFloat rs1) =
          (if (t.reg rd3).toNat = 1 then -1 else 1) * ((t.reg rd).toNat : ℚ) *
            (2 : ℚ) ^ ((t.reg rd2).setWidth 32).toInt) ∧
      ((t.reg rd2).toNat = 261908 ↔ isFinite (s.readFloat rs1) = false)

/-- FPACK packs any significand, exponent and sign with one rounding. R99. -/
def Obligations.FpackRoundsTheTriple : Prop :=
  ∀ (rd rs1 rs2 rs3 : RegId) (s : State),
    Encodes (.fpack rd rs1 rs2 rs3) 0x2A 1 rd rs1 rs2 rs3 0 0 ∧
    ∃ t, exec (.fpack rd rs1 rs2 rs3) s = .next t ∧ Completed s t [rd] s.cf ∧
      t.reg rd = (packRat ((s.reg rs1).toNat % 2 ^ 256) ((s.reg rs2).setWidth 32).toInt
        ((s.reg rs3).getLsbD 0)).setWidth 1024 ∧
      isNaN (t.readFloat rd) = false

/-- FPACK after FUNPACK gives a finite float back, and never a NaN. The corner case of R99, as 90_conflicts.md C11 settles it. -/
def Obligations.FpackInvertsFunpackOnFinite : Prop :=
  ∀ (m q g rd rs1 : RegId) (s : State), m ≠ q → m ≠ g → q ≠ g →
    ∃ t u, exec (.funpack m q g rs1) s = .next t ∧ exec (.fpack rd m q g) t = .next u ∧
      isNaN (u.readFloat rd) = false ∧
      (isFinite (s.readFloat rs1) = true → u.readFloat rd = s.readFloat rs1)

/-- FADD is the exact rational sum rounded once, with its special cases. R103, over exact rationals with one rounding (R95). -/
def Obligations.FaddRoundsTheExactSum : Prop :=
  ∀ (rd rs1 rs2 : RegId) (s : State),
    Encodes (.fadd rd rs1 rs2) 0x20 1 rd rs1 rs2 0 0 0 ∧
    ∃ t, exec (.fadd rd rs1 rs2) s = .next t ∧ Completed s t [rd] s.cf ∧
      t.reg rd = (addRat (s.readFloat rs1) (s.readFloat rs2)).setWidth 1024

/-- FSUB is FADD with the second operand's sign flipped. R104, over exact rationals with one rounding (R95). Adding 2^255 modulo 2^256 flips bit 255. -/
def Obligations.FsubAddsTheNegated : Prop :=
  ∀ (rd rs1 rs2 : RegId) (s : State),
    Encodes (.fsub rd rs1 rs2) 0x21 1 rd rs1 rs2 0 0 0 ∧
    ∃ t, exec (.fsub rd rs1 rs2) s = .next t ∧ Completed s t [rd] s.cf ∧
      t.reg rd = (addRat (s.readFloat rs1) (BitVec.ofNat 256 ((s.readFloat rs2).toNat + 2 ^ 255))).setWidth 1024

/-- FMUL is the exact rational product rounded once, with its special cases. R105, over exact rationals with one rounding (R95). -/
def Obligations.FmulRoundsTheExactProduct : Prop :=
  ∀ (rd rs1 rs2 : RegId) (s : State),
    Encodes (.fmul rd rs1 rs2) 0x22 1 rd rs1 rs2 0 0 0 ∧
    ∃ t, exec (.fmul rd rs1 rs2) s = .next t ∧ Completed s t [rd] s.cf ∧
      t.reg rd = (mulRat (s.readFloat rs1) (s.readFloat rs2)).setWidth 1024

/-- FDIV is the exact rational quotient rounded once, with its special cases. R106, over exact rationals with one rounding (R95). -/
def Obligations.FdivRoundsTheExactQuotient : Prop :=
  ∀ (rd rs1 rs2 : RegId) (s : State),
    Encodes (.fdiv rd rs1 rs2) 0x23 1 rd rs1 rs2 0 0 0 ∧
    ∃ t, exec (.fdiv rd rs1 rs2) s = .next t ∧ Completed s t [rd] s.cf ∧
      t.reg rd = (divRat (s.readFloat rs1) (s.readFloat rs2)).setWidth 1024

/-- FMA is the exact rational x y + z rounded once, with its special cases. R107, over exact rationals with one rounding (R95). -/
def Obligations.FmaRoundsOnce : Prop :=
  ∀ (rd rs1 rs2 rs3 : RegId) (s : State),
    Encodes (.fma rd rs1 rs2 rs3) 0x24 1 rd rs1 rs2 rs3 0 0 ∧
    ∃ t, exec (.fma rd rs1 rs2 rs3) s = .next t ∧ Completed s t [rd] s.cf ∧
      t.reg rd = (fmaRat (s.readFloat rs1) (s.readFloat rs2) (s.readFloat rs3)).setWidth 1024

/-- The integer RoundPack is R95's RoundPack over the exact rationals. R95. -/
def Obligations.RoundPackRefinesRationalRounding : Prop :=
  ∀ (sg : Bool) (num den : ℕ) (e : ℤ), 0 < num → 0 < den →
    roundPack sg num den e = roundPackRat sg ((num : ℚ) / den * (2 : ℚ) ^ e)

/-- RoundPack gives a nearest finite float, ties to even, and overflows at (2^237 - 1/2) 2^261907. R95 read as its purpose: round to the nearest representable value, on a tie to the even one; R96 (a) for the overflow, which the spec marks as derived from R95. -/
def Obligations.RoundPackGivesTheNearestFloat : Prop :=
  ∀ (sg : Bool) (num den : ℕ) (e : ℤ) (v : ℚ), 0 < num → 0 < den → v = (num : ℚ) / den * (2 : ℚ) ^ e →
    (v < ((2 : ℚ) ^ (237 : ℤ) - 1 / 2) * (2 : ℚ) ^ (261907 : ℤ) →
      isFinite (roundPack sg num den e) = true ∧ sgn (roundPack sg num den e) = sg ∧
      ∀ z : Packed, isFinite z = true →
        |valRat (roundPack sg num den e) - (if sg then -v else v)| ≤ |valRat z - (if sg then -v else v)| ∧
        (z ≠ roundPack sg num den e →
          |valRat z - (if sg then -v else v)| = |valRat (roundPack sg num den e) - (if sg then -v else v)| →
          fracBits (roundPack sg num den e) % 2 = 0)) ∧
    (((2 : ℚ) ^ (237 : ℤ) - 1 / 2) * (2 : ℚ) ^ (261907 : ℤ) ≤ v → roundPack sg num den e = infOf sg)

/-- Rounding the value of a finite non-zero float gives that float. R96 (d): a result exactly representable is returned unchanged; the spec marks R96 as derived from R95. -/
def Obligations.ExactResultIsReturnedUnchanged : Prop :=
  ∀ x : Packed, isFinite x = true → isZero x = false → roundExact (val x) = x

/-- The source's testable float identities. R108; 1.0 is 0x3FFFF then 59 zeros, MAX and EPSILON are the constants of 95_test_vectors.md. The spec marks it as its own inference from R103, R105, R106 and R107. -/
def Obligations.FloatIdentitiesHold : Prop :=
  (∀ x, isFinite x = true → addFloat x (negFloat x) = zeroOf false) ∧
  (∀ x, isNaN x = false → mulFloat x (packFields false 262143 0) = x) ∧
  (∀ x, isFinite x = true → isZero x = false → divFloat x x = packFields false 262143 0) ∧
  (∀ x y, addFloat x y = addFloat y x) ∧
  (∀ x y, mulFloat x y = mulFloat y x) ∧
  (∀ sg, addFloat (infOf sg) (infOf sg) = infOf sg) ∧
  (∀ sg, subFloat (infOf sg) (infOf sg) = qNaN) ∧
  (∀ a b, divFloat (zeroOf a) (zeroOf b) = qNaN) ∧
  (∀ a b, mulFloat (zeroOf a) (infOf b) = qNaN ∧ mulFloat (infOf b) (zeroOf a) = qNaN) ∧
  divFloat (packFields false 262143 0) (infOf false) = zeroOf false ∧
  divFloat (packFields false 262143 0) (zeroOf false) = infOf false ∧
  addFloat (packFields false 524286 (BitVec.allOnes 236)) (packFields false 524286 (BitVec.allOnes 236)) =
    infOf false ∧
  addFloat (packFields false 524286 (BitVec.allOnes 236)) (packFields false 261907 0) =
    packFields false 524286 (BitVec.allOnes 236)

/-- FNEG flips and FABS clears bit 255, and no other bit. R109, R110, with the pattern read as a number. -/
def Obligations.FnegFabsTouchOnlyTheSign : Prop :=
  ∀ (rd rs1 : RegId) (s : State),
    (Encodes (.fneg rd rs1) 0x25 1 rd rs1 0 0 0 0 ∧
      ∃ t, exec (.fneg rd rs1) s = .next t ∧ Completed s t [rd] s.cf ∧
        (t.reg rd).toNat = ((s.readFloat rs1).toNat + 2 ^ 255) % 2 ^ 256 ∧
        sgn (t.readFloat rd) = !sgn (s.readFloat rs1) ∧
        expBits (t.readFloat rd) = expBits (s.readFloat rs1) ∧
        fracBits (t.readFloat rd) = fracBits (s.readFloat rs1)) ∧
    (Encodes (.fabs rd rs1) 0x26 1 rd rs1 0 0 0 0 ∧
      ∃ t, exec (.fabs rd rs1) s = .next t ∧ Completed s t [rd] s.cf ∧
        (t.reg rd).toNat = (s.readFloat rs1).toNat % 2 ^ 255 ∧
        sgn (t.readFloat rd) = false ∧
        expBits (t.readFloat rd) = expBits (s.readFloat rs1) ∧
        fracBits (t.readFloat rd) = fracBits (s.readFloat rs1))

/-- FCMP writes 3 for a NaN and else the order of the extended values. R111. -/
def Obligations.FcmpComparesExtendedValues : Prop :=
  ∀ (rd rs1 rs2 : RegId) (s : State),
    Encodes (.fcmp rd rs1 rs2) 0x27 1 rd rs1 rs2 0 0 0 ∧
    ∃ t, exec (.fcmp rd rs1 rs2) s = .next t ∧ Completed s t [rd] s.cf ∧
      (isNaN (s.readFloat rs1) = true ∨ isNaN (s.readFloat rs2) = true → (t.reg rd).toNat = 3) ∧
      (isNaN (s.readFloat rs1) = false ∧ isNaN (s.readFloat rs2) = false →
        (extVal (s.readFloat rs1) < extVal (s.readFloat rs2) → (t.reg rd).toNat = 0) ∧
        (extVal (s.readFloat rs1) = extVal (s.readFloat rs2) → (t.reg rd).toNat = 1) ∧
        (extVal (s.readFloat rs2) < extVal (s.readFloat rs1) → (t.reg rd).toNat = 2))

/-- FTCMP writes the order of the sign-magnitude keys; 1 exactly for equal patterns. R112, the key taken from the pattern read as a number. -/
def Obligations.FtcmpIsATotalOrderOnPatterns : Prop :=
  ∀ (rd rs1 rs2 : RegId) (s : State),
    Encodes (.ftcmp rd rs1 rs2) 0x28 1 rd rs1 rs2 0 0 0 ∧
    ∃ t, exec (.ftcmp rd rs1 rs2) s = .next t ∧ Completed s t [rd] s.cf ∧
      (keyOf (s.readFloat rs1) < keyOf (s.readFloat rs2) → (t.reg rd).toNat = 0) ∧
      (keyOf (s.readFloat rs1) = keyOf (s.readFloat rs2) → (t.reg rd).toNat = 1) ∧
      (keyOf (s.readFloat rs2) < keyOf (s.readFloat rs1) → (t.reg rd).toNat = 2) ∧
      ((t.reg rd).toNat = 1 ↔ s.readFloat rs1 = s.readFloat rs2)

/-- A NaN source gives the canonical NaN, and so does every NaN result. R100, with the pattern of R93 written out. -/
def Obligations.NaNOperandGivesTheCanonicalNaN : Prop :=
  ∀ (rd rs1 rs2 rs3 : RegId) (s : State),
    ∀ i ∈ [Instr.fadd rd rs1 rs2, .fsub rd rs1 rs2, .fmul rd rs1 rs2, .fdiv rd rs1 rs2, .fma rd rs1 rs2 rs3],
      ∃ t, exec i s = .next t ∧
        ((∃ r ∈ i.sources, isNaN (s.readFloat r) = true) ∨ isNaN (t.readFloat rd) = true →
          (t.reg rd).toNat = 0x7FFFF80000000000000000000000000000000000000000000000000000000000)

/-- An exact zero sum is negative only when every addend is a negative zero. R101. -/
def Obligations.ExactZeroSumSign : Prop :=
  ∀ x y z : Packed, isFinite x = true → isFinite y = true → isFinite z = true →
    (valRat x + valRat y = 0 →
      addFloat x y = zeroOf (isZero x && isZero y && sgn x && sgn y)) ∧
    (valRat x * valRat y + valRat z = 0 →
      fmaFloat x y z = zeroOf ((isZero x || isZero y) && isZero z && (sgn x ^^ sgn y) && sgn z))

/-- FMA with addend -0 is FMUL, and with +0 differs only on an exact zero product. The corner cases of R107. -/
def Obligations.FmaWithZeroAddendIsTheProduct : Prop :=
  ∀ x y : Packed,
    fmaFloat x y (zeroOf true) = mulFloat x y ∧
    (isFinite x = true ∧ isFinite y = true ∧ (isZero x = true ∨ isZero y = true) →
      fmaFloat x y (zeroOf false) = zeroOf false) ∧
    (¬ (isFinite x = true ∧ isFinite y = true ∧ (isZero x = true ∨ isZero y = true)) →
      fmaFloat x y (zeroOf false) = mulFloat x y)

/-- Decode refuses a word exactly when R49 calls it illegal. R48, R49, with the fields taken by division from the word's number. That an illegal word faults is `IllegalWordEntersTheFault`; the clause is repeated here. -/
def Obligations.IllegalWordsAreExactlyThose : Prop :=
  ∀ c : Cmd, ((∃ r, decode c = .error r) ↔ IllegalWord c) ∧
    (IllegalWord c → ∀ s : State, s.fault = false →
      ∃ t, issue c s = .next t ∧ Faulted s t .illegal c)

/-- Decoding the encoding of a well-formed command gives it back. R41, R44, R47, R51. -/
def Obligations.DecodeOfEncodeIsTheCommand : Prop :=
  ∀ i : Instr, i.wf = true → decode (encode i) = .ok i

/-- Every word decodes to illegal or to exactly one command, whose encoding is that word. R51. -/
def Obligations.EncodeOfDecodeIsTheWord : Prop :=
  ∀ c : Cmd, (∃ r, decode c = .error r ∧ IllegalWord c) ∨
    (∃ i, decode c = .ok i ∧ i.wf = true ∧ encode i = c)

/-- The encoding examples of the spec decode to the commands they stand for. R55. The spec marks the table as its own inference from R41 and R47. -/
def Obligations.SpecWordsDecodeAsWritten : Prop :=
  decode 0x05312000 = .ok (.add .w256 3 1 2) ∧ (Instr.add .w256 3 1 2).asm = "ADD.256 r3, r1, r2" ∧
  decode 0x0B00F000 = .ok (.adc .w1024 0 0 15) ∧ (Instr.adc .w1024 0 0 15).asm = "ADC.1024 r0, r0, r15" ∧
  decode 0x20412050 = .ok (.mulw .w128 4 5 1 2) ∧ (Instr.mulw .w128 4 5 1 2).asm = "MULW.128 r4, r5, r1, r2" ∧
  decode 0x2D612070 = .ok (.divrem .w256 6 7 1 2) ∧
    (Instr.divrem .w256 6 7 1 2).asm = "DIVREM.256 r6, r7, r1, r2" ∧
  decode 0x50612370 = .ok (.cshl .w128 6 7 1 2 3) ∧
    (Instr.cshl .w128 6 7 1 2 3).asm = "CSHL.128 r6, r7, r1, r2, r3" ∧
  decode 0x81312000 = .ok (.fadd 3 1 2) ∧ (Instr.fadd 3 1 2).asm = "FADD r3, r1, r2" ∧
  decode 0x91412300 = .ok (.fma 4 1 2 3) ∧ (Instr.fma 4 1 2 3).asm = "FMA r4, r1, r2, r3" ∧
  decode 0xAD510067 = .ok (.funpack 5 6 7 1) ∧ (Instr.funpack 5 6 7 1).asm = "FUNPACK r5, r6, r7, r1" ∧
  decode 0x80312000 = .error .floatWidth ∧ decode 0x00000000 = .error .reservedOpcode

/-- A step at an issued legal word runs the decoded command. R52. The queue of host actions and the answer field are the model's own (log entries 3 and 4). -/
def Obligations.StepRunsTheDecodedCommand : Prop :=
  ∀ (s : State) (c : Cmd) (rest : List HostAction) (i : Instr),
    s.pending = .issue c :: rest → s.fault = false → decode c = .ok i →
      step s = exec i { s with pending := rest, answer := .none }

/-- A step at an issued illegal word takes the fault ILLEGAL and nothing else. R49, R115, R117. The queue of host actions and the answer field are the model's own (log entries 3 and 4). -/
def Obligations.IllegalWordEntersTheFault : Prop :=
  ∀ (s : State) (c : Cmd) (rest : List HostAction),
    s.pending = .issue c :: rest → s.fault = false → IllegalWord c →
      ∃ t, step s = .next t ∧ Faulted { s with pending := rest, answer := .none } t .illegal c ∧
        (t.statusWord.toNat = 0x11 + 0x100 * s.cf.toNat)

/-- A halted block ignores issued words and keeps its fault until Reset. R116. The queue of host actions and the answer field are the model's own (log entries 3 and 4). -/
def Obligations.HaltedUntilReset : Prop :=
  ∀ (s : State) (a : HostAction) (rest : List HostAction), s.fault = true → s.pending = a :: rest →
    ∃ t, step s = .next t ∧ t.pending = rest ∧
      (a ≠ .reset → t.fault = true ∧ t.cause = s.cause ∧ t.fcmd = s.fcmd ∧ t.fcix = s.fcix ∧ t.cix = s.cix ∧
        t.cf = s.cf ∧ t.draws = s.draws) ∧
      (∀ c, a = .issue c → ∀ r, t.reg r = s.reg r) ∧
      (∀ i v, a = .writeReg i v → t.reg i = v ∧ ∀ r, r ≠ i → t.reg r = s.reg r) ∧
      (∀ i, a = .readReg i → t.answer = .reg (s.reg i) ∧ ∀ r, t.reg r = s.reg r) ∧
      (∀ n, a = .readStatus n → t.answer = .status (s.statusReg n) ∧ ∀ r, t.reg r = s.reg r) ∧
      (a = .reset → t.fault = false)

/-- WriteReg, ReadReg and ReadStatus do what R130 says and nothing else, in every state. R130. The queue of host actions and the answer field are the model's own (log entries 3 and 4). -/
def Obligations.HostActionsDoOnlyTheirEffect : Prop :=
  ∀ (s : State) (rest : List HostAction),
    (∀ i v, s.pending = .writeReg i v :: rest → ∃ t, step s = .next t ∧ t.reg i = v ∧ t.cf = s.cf ∧ t.cix = s.cix ∧
      (∀ r, r ≠ i → t.reg r = s.reg r) ∧ SameStatus { s with pending := rest, answer := .none } t) ∧
    (∀ i, s.pending = .readReg i :: rest → ∃ t, step s = .next t ∧ t.cf = s.cf ∧ t.cix = s.cix ∧
      (∀ r, t.reg r = s.reg r) ∧ SameStatus { s with pending := rest, answer := .reg (s.reg i) } t) ∧
    (∀ n, s.pending = .readStatus n :: rest → ∃ t v, step s = .next t ∧ t.cf = s.cf ∧ t.cix = s.cix ∧
      (∀ r, t.reg r = s.reg r) ∧ SameStatus { s with pending := rest, answer := .status v } t ∧
      (n = .status → v.toNat = s.fault.toNat + 16 * (causeCode s.cause).toNat + 256 * s.cf.toNat) ∧
      (n = .fcmd → v = s.fcmd) ∧ (n = .fcix → v = s.fcix) ∧ (n = .cix → v = s.cix))

/-- Reset clears CF, CIX, STATUS, FCMD and FCIX, from every state and at the start. R127, R128. The free value of the data registers is the model's form of an unspecified value (log entry 2). -/
def Obligations.ResetClearsControlState : Prop :=
  (State.reset.cf = false ∧ State.reset.cix = 0 ∧ State.reset.statusWord = 0 ∧ State.reset.fcmd = 0 ∧
    State.reset.fcix = 0 ∧ State.reset.fault = false) ∧
  ∀ (s : State) (rest : List HostAction), s.pending = .reset :: rest →
    ∃ t, step s = .next t ∧ t.cf = false ∧ t.cix = 0 ∧ t.statusWord = 0 ∧ t.fcmd = 0 ∧ t.fcix = 0 ∧
      t.fault = false ∧ t.pending = rest ∧ ∀ i, t.reg i = Config.unspecifiedReg s.draws i

/-- STATUS shows FAULT, the code of CAUSE and CF at their bits and zeros elsewhere, and the output `fault` shows FAULT. R22, R23, with the fields of R19; the codes 0 to 4 of R21 and R113, each written out; the output of R119, equal to STATUS.FAULT. -/
def Obligations.StatusWordLayout : Prop :=
  ∀ s : State,
    s.statusWord.getLsbD 0 = s.fault ∧ s.statusWord.extractLsb' 4 4 = causeCode s.cause ∧
    (causeCode .none).toNat = 0 ∧ (causeCode .illegal).toNat = 1 ∧ (causeCode .divZero).toNat = 2 ∧
    (causeCode .shiftRange).toNat = 3 ∧ (causeCode .msbZero).toNat = 4 ∧ (causeCode s.cause).toNat ≤ 4 ∧
    s.statusWord.getLsbD 8 = s.cf ∧ s.faultOutput = s.statusWord.getLsbD 0 ∧
    ∀ n, (1 ≤ n ∧ n ≤ 3) ∨ 9 ≤ n → s.statusWord.getLsbD n = false

/-- The status invariant holds right after reset. The start of `StepKeepsInvariant`. -/
def Obligations.InvariantHoldsAtReset : Prop :=
  State.reset.Inv

/-- Every step keeps the status registers consistent. R17, R21, R24, R25, R113, R115, R116 together: `State.Inv`. -/
def Obligations.StepKeepsInvariant : Prop :=
  ∀ s t : State, s.Inv → step s = .next t → t.Inv

/-- Every command changes only its destinations, CF of the four carry commands, and CIX or the fault registers. R18, R26, R52: the frame of every command. -/
def Obligations.OnlyCarryCommandsWriteCarry : Prop :=
  ∀ (i : Instr) (s t : State), exec i s = .next t →
    (Completed s t i.dests t.cf ∧ (writesCarry i = false → t.cf = s.cf)) ∨
    (∃ c, c ≠ .none ∧ Faulted s t c (encode i))

/-- A legal command faults exactly on the preconditions of R113. R113, R114, R117. -/
def Obligations.FaultsExactlyOnPreconditions : Prop :=
  ∀ (i : Instr) (s : State), ∃ t, exec i s = .next t ∧
    (∀ c, operandFault i s = some c → Faulted s t c (encode i)) ∧
    (operandFault i s = none → Completed s t i.dests t.cf)

/-- A command's outcome is a function of its word, its source registers and CF. R133, as agreement of two runs. The spec marks R133 as its own inference from R28 and R16. -/
def Obligations.ResultDependsOnlyOnSourcesAndCarry : Prop :=
  ∀ (i : Instr) (s s' : State), s.fault = false → s'.fault = false → s.cause = s'.cause → s.cf = s'.cf →
    (∀ r ∈ i.sources, s.reg r = s'.reg r) →
      ∃ t t', exec i s = .next t ∧ exec i s' = .next t' ∧
        t.fault = t'.fault ∧ t.cause = t'.cause ∧ t.cf = t'.cf ∧
        (t.fault = false → ∀ r ∈ i.dests, t.reg r = t'.reg r)

/-- A register transferred in pieces, least significant first, is put together again. R33. -/
def Obligations.RegisterPiecesAreLittleEndian : Prop :=
  ∀ (v : Data), ∀ len ∈ [128, 64, 32, 8],
    (∀ j, j < 1024 / len → (pieces len v)[j]? = some (v.extractLsb' (len * j) len)) ∧
    (pieces len v).length = 1024 / len ∧ ofPieces len (pieces len v) = v

/-- A block whose host does nothing keeps all state. R126. That an empty queue is the idle host is the model's own (log entry 3). -/
def Obligations.IdleBlockKeepsAllState : Prop :=
  ∀ s : State, s.pending = [] → step s = .next s

/-- Sources are read as their low bits at the operation's width. R15, R46, R99. -/
def Obligations.OperandsAreTheLowBits : Prop :=
  ∀ (s : State) (i : RegId),
    (∀ w, s.readInt w i = ((s.reg i).extractLsb' 0 (bits w)).toNat ∧ s.readInt w i < 2 ^ bits w) ∧
    (s.readFloat i).toNat = (s.reg i).toNat % 2 ^ 256 ∧
    (s.readExponent i =
      if (s.reg i).toNat % 2 ^ 32 < 2 ^ 31 then (((s.reg i).toNat % 2 ^ 32 : ℕ) : ℤ)
      else (((s.reg i).toNat % 2 ^ 32 : ℕ) : ℤ) - 2 ^ 32) ∧
    s.readSignificand i = (s.reg i).toNat % 2 ^ 256 ∧
    (s.readSign i = true ↔ (s.reg i).toNat % 2 = 1)

/-- A run that reads written registers only does not depend on what Reset left in the registers. R16, R129 and R133: the one non-determinism of the block is the value of a register not written since reset. `inDomain` is the domain of the spec's parameter UNWRITTEN_READ at `refuse`; the model itself draws a free value (log entry 2); the answer field is the model's own (log entry 4). -/
def Obligations.InDomainRunsIgnoreResetValues : Prop :=
  ∀ (s s' : State) (acts : List HostAction), s.answer = s'.answer → inDomain [] s.hostReset acts = true →
    (afterActions s.hostReset acts).cf = (afterActions s'.hostReset acts).cf ∧
    (afterActions s.hostReset acts).cix = (afterActions s'.hostReset acts).cix ∧
    (afterActions s.hostReset acts).fault = (afterActions s'.hostReset acts).fault ∧
    (afterActions s.hostReset acts).cause = (afterActions s'.hostReset acts).cause ∧
    (afterActions s.hostReset acts).fcmd = (afterActions s'.hostReset acts).fcmd ∧
    (afterActions s.hostReset acts).fcix = (afterActions s'.hostReset acts).fcix ∧
    (afterActions s.hostReset acts).answer = (afterActions s'.hostReset acts).answer ∧
    ∀ r ∈ writtenAtEnd [] s.hostReset acts,
      (afterActions s.hostReset acts).reg r = (afterActions s'.hostReset acts).reg r

/-- As many steps as host actions perform them all in order, and a bad run names its first fault. R36, R37, R131. The queue of host actions is the model's own (log entry 3). -/
def Obligations.MachineRunPerformsTheHostActions : Prop :=
  ∀ (s : State) (acts : List HostAction),
    Sys2Proof.core.run acts.length { s with pending := acts } =
      .next { afterActions s acts with pending := [] } ∧
    (s.fault = true → .reset ∉ acts →
      (afterActions s acts).fault = true ∧ (afterActions s acts).cause = s.cause ∧
      (afterActions s acts).fcmd = s.fcmd ∧ (afterActions s acts).fcix = s.fcix)
end

