-- ==== Sys2Proof/Laws/Encoding.lean ====
section
/-! SUPPORT. Splitting a command word into its fields and joining them are inverse to each other. -/

namespace Sys2Proof

/-- The value of a joined pair of fields, the high one times the weight of the low one. -/
theorem append_toNat {m n : Nat} (x : BitVec m) (y : BitVec n) :
    (x ++ y).toNat = x.toNat * 2 ^ n + y.toNat := by
  rw [BitVec.toNat_append, ← Nat.shiftLeft_add_eq_or_of_lt y.isLt, Nat.shiftLeft_eq]

/-- R41 as arithmetic: the value of the joined word. -/
theorem joinFields_toNat (f : Fields) :
    (joinFields f).toNat = f.op.toNat * 2 ^ 26 + f.w.toNat * 2 ^ 24 + f.rd.val * 2 ^ 20 + f.rs1.val * 2 ^ 16 +
      f.rs2.val * 2 ^ 12 + f.rs3.val * 2 ^ 8 + f.rd2.val * 2 ^ 4 + f.rd3.val := by
  simp only [joinFields, append_toNat, BitVec.toNat_ofFin]
  omega

/-- R51 as arithmetic: the value of a field at bits lo+len-1 : lo. -/
theorem field_toNat (c : Cmd) (lo len : Nat) : (c.extractLsb' lo len).toNat = c.toNat / 2 ^ lo % 2 ^ len := by
  rw [BitVec.extractLsb'_toNat, Nat.shiftRight_eq_div_pow]

theorem splitWord_joinFields (f : Fields) : splitWord (joinFields f) = f := by
  obtain ⟨op, w, rd, rs1, rs2, rs3, rd2, rd3⟩ := f
  have h := joinFields_toNat ⟨op, w, rd, rs1, rs2, rs3, rd2, rd3⟩
  have hop := op.isLt
  have hw := w.isLt
  simp only [splitWord, Fields.mk.injEq, ← BitVec.toNat_inj, Fin.ext_iff, BitVec.val_toFin, field_toNat, h]
  refine ⟨?_, ?_, ?_, ?_, ?_, ?_, ?_, ?_⟩ <;> omega

theorem joinFields_splitWord (c : Cmd) : joinFields (splitWord c) = c := by
  rw [← BitVec.toNat_inj, joinFields_toNat]
  have hc := c.isLt
  simp only [splitWord, BitVec.val_toFin, field_toNat]
  omega

/-- The fields of an encoded command are the command's. -/
theorem splitWord_encode (i : Instr) : splitWord (encode i) = i.fields := splitWord_joinFields _

theorem widthOf_codeOf (w : Width) : widthOf (codeOf w) = w := by cases w <;> rfl

theorem codeOf_widthOf (c : BitVec 2) : codeOf (widthOf c) = c := by revert c; decide

end Sys2Proof
end

