-- ==== Sys2Proof/Laws/Rounding.lean ====
section
/-! SUPPORT. What bitlen, rnePow and rneScaled compute, free of the shortcuts their definitions take. -/

namespace Sys2Proof.Machine

theorem bitlenFrom_eq (k v : Nat) : bitlenFrom k v = if v = 0 then 0 else v.log2 + 1 := by
  induction k generalizing v with
  | zero => rfl
  | succ k ih =>
    simp only [bitlenFrom]
    split
    · rename_i h
      have hv : v ≠ 0 := by have := Nat.two_pow_pos (2 ^ k); omega
      have hq : v / 2 ^ 2 ^ k ≠ 0 := (Nat.div_pos h (Nat.two_pow_pos _)).ne'
      rw [ih, if_neg hq, if_neg hv]
      have hlog : (v / 2 ^ 2 ^ k).log2 = v.log2 - 2 ^ k := by
        rw [Nat.log2_eq_log_two, Nat.log2_eq_log_two, Nat.log_div_base_pow]
      have hle : 2 ^ k ≤ v.log2 := (Nat.le_log2 hv).2 h
      omega
    · exact ih v

/-- bitlen is R9's: 0 for 0, else floor(log2 v) + 1. -/
theorem bitlen_eq (v : Nat) : bitlen v = if v = 0 then 0 else v.log2 + 1 := bitlenFrom_eq 20 v

/-- A value is below two to the power of its bit length, and no smaller power will do. -/
theorem bitlen_le_iff (v n : Nat) : bitlen v ≤ n ↔ v < 2 ^ n := by
  rw [bitlen_eq]
  split
  · next h => simp [h]
  · next h => rw [Nat.succ_le_iff, Nat.log2_lt h]

theorem lt_two_pow_bitlen (v : Nat) : v < 2 ^ bitlen v := (bitlen_le_iff v _).1 le_rfl

/-- Below one half a quotient rounds to 0. -/
theorem rne_of_lt_half {num den : Nat} (h : 2 * num < den) : rne num den = 0 := by
  have hlt : num < den := by omega
  simp only [rne, Nat.div_eq_of_lt hlt, Nat.mod_eq_of_lt hlt]
  rw [if_neg (by omega), if_neg (by omega)]

theorem two_mul_lt_two_pow_of_bitlen_lt {v n : Nat} (h : bitlen v < n) : 2 * v < 2 ^ n := by
  have h1 := lt_two_pow_bitlen v
  have h2 : 2 ^ (bitlen v + 1) ≤ 2 ^ n := Nat.pow_le_pow_right (by decide) h
  rw [Nat.pow_succ] at h2
  omega

/-- The shortcut of `rnePow` changes nothing: R74 and R75 hold for every n. -/
theorem rnePow_eq {base : Nat} (hb : 2 ≤ base) (a n : Nat) : rnePow base a n = rne a (base ^ n) := by
  simp only [rnePow]
  split
  · next h =>
    exact (rne_of_lt_half (lt_of_lt_of_le (two_mul_lt_two_pow_of_bitlen_lt h) (Nat.pow_le_pow_left hb n))).symm
  · rfl

/-- The shortcut of `rneScaled` changes nothing. -/
theorem rneScaled_eq {num den : Nat} (hd : 0 < den) (k : Int) :
    rneScaled num den k = rne (num * 2 ^ k.toNat) (den * 2 ^ (-k).toNat) := by
  simp only [rneScaled]
  split
  · next h =>
    have hk : k.toNat = 0 := by omega
    have h1 := two_mul_lt_two_pow_of_bitlen_lt h
    have h2 : 2 ^ (-k).toNat ≤ den * 2 ^ (-k).toNat := Nat.le_mul_of_pos_left _ hd
    refine (rne_of_lt_half ?_).symm
    rw [hk]
    omega
  · rfl

end Sys2Proof.Machine
end

