-- ==== Sys2Proof/Laws/Exact.lean ====
section
/-! SUPPORT. What the integer routines of the float core compute, in exact rationals: one lemma per routine. -/

namespace Sys2Proof.Machine

open Sys2Proof.Reference

/-- R11 on integers is R11 on the rational they stand for. -/
theorem rne_eq_rneRat (num : Nat) {den : Nat} (hd : 0 < den) :
    (rne num den : ℤ) = rneRat ((num : ℚ) / den) := by
  have hq : (0 : ℚ) < den := by exact_mod_cast hd
  have hfl : ⌊(num : ℚ) / den⌋ = ((num / den : Nat) : ℤ) := by
    rw [← Int.natCast_floor_eq_floor (by positivity), Nat.floor_div_eq_div]
  have hfrac : (num : ℚ) / den - ((num / den : Nat) : ℤ) = ((num % den : Nat) : ℚ) / den := by
    have h := Nat.div_add_mod num den
    have h' : (num : ℚ) = den * (num / den : Nat) + (num % den : Nat) := by exact_mod_cast h.symm
    rw [Int.cast_natCast, eq_div_iff hq.ne', sub_mul, div_mul_cancel₀ _ hq.ne', h']
    ring
  have hgt : ((num % den : Nat) : ℚ) / den > 1 / 2 ↔ den < 2 * (num % den) := by
    rw [gt_iff_lt, div_lt_div_iff₀ (by norm_num) hq]
    constructor
    · intro h; have : ((1 * den : Nat) : ℚ) < ((num % den * 2 : Nat) : ℚ) := by push_cast; linarith
      have := Nat.cast_lt.1 this; omega
    · intro h; have : ((den : Nat) : ℚ) < ((2 * (num % den) : Nat) : ℚ) := Nat.cast_lt.2 h
      push_cast at this; linarith
  have heq : ((num % den : Nat) : ℚ) / den = 1 / 2 ↔ 2 * (num % den) = den := by
    rw [div_eq_div_iff hq.ne' (by norm_num)]
    constructor
    · intro h; have : ((num % den * 2 : Nat) : ℚ) = ((1 * den : Nat) : ℚ) := by push_cast; linarith
      have := Nat.cast_injective this; omega
    · intro h; have : ((2 * (num % den) : Nat) : ℚ) = ((den : Nat) : ℚ) := by rw [h]
      push_cast at this; linarith
  have hodd : ((num / den : Nat) : ℤ) % 2 = 1 ↔ num / den % 2 = 1 := by omega
  simp only [rneRat, hfl, hfrac, hgt, heq, hodd, rne]
  split
  · push_cast; rfl
  · split
    · push_cast; rfl
    · rfl

/-- rneScaled is R11 on the rational num / den * 2^k. -/
theorem rneScaled_eq_rneRat (num : Nat) {den : Nat} (hd : 0 < den) (k : Int) :
    (rneScaled num den k : ℤ) = rneRat ((num : ℚ) / den * (2 : ℚ) ^ k) := by
  rw [rneScaled_eq hd, rne_eq_rneRat _ (Nat.mul_pos hd (Nat.two_pow_pos _))]
  congr 1
  push_cast
  rcases le_total 0 k with h | h
  · have a1 : (-k).toNat = 0 := by omega
    have a2 : ((k.toNat : ℕ) : ℤ) = k := Int.toNat_of_nonneg h
    rw [a1, pow_zero, mul_one, ← zpow_natCast, a2, div_mul_eq_mul_div]
  · have a1 : k.toNat = 0 := by omega
    have a2 : (((-k).toNat : ℕ) : ℤ) = -k := Int.toNat_of_nonneg (by omega)
    rw [a1, pow_zero, mul_one, ← zpow_natCast, a2, zpow_neg, ← div_div, div_inv_eq_mul]

/-- The exact value of a finite float is R92's rational. -/
theorem exactRat_val (x : Packed) : exactRat (val x) = valRat x := by
  simp only [exactRat, val, valRat]
  split <;> push_cast <;> ring

theorem exactRat_eq_mantAt (v : Exact) {e : Int} (h : e ≤ v.exp) :
    exactRat v = (v.mantAt e : ℚ) * (2 : ℚ) ^ e := by
  have hk : ((v.exp - e).toNat : ℤ) = v.exp - e := Int.toNat_of_nonneg (by omega)
  simp only [exactRat, Exact.mantAt]
  push_cast
  rw [mul_assoc, ← zpow_natCast, hk, ← zpow_add₀ (by norm_num)]
  congr 2
  ring

/-- Exact.add is the sum of the rationals. -/
theorem exactRat_add (u v : Exact) : exactRat (u.add v) = exactRat u + exactRat v := by
  rw [exactRat_eq_mantAt u (min_le_left _ v.exp), exactRat_eq_mantAt v (min_le_right u.exp _)]
  simp only [Exact.add, exactRat]
  push_cast
  ring

/-- Exact.mul is the product of the rationals. -/
theorem exactRat_mul (u v : Exact) : exactRat (u.mul v) = exactRat u * exactRat v := by
  simp only [Exact.mul, exactRat]
  push_cast
  rw [zpow_add₀ (by norm_num)]
  ring

/-- The sign of an exact value is its mantissa's. -/
theorem exactRat_neg_iff (v : Exact) : exactRat v < 0 ↔ v.mant < 0 := by
  have h : (0 : ℚ) < (2 : ℚ) ^ v.exp := by positivity
  simp only [exactRat, mul_neg_iff, h, h.not_gt, and_true, and_false, false_or]
  exact_mod_cast Iff.rfl

theorem exactRat_eq_zero_iff (v : Exact) : exactRat v = 0 ↔ v.mant = 0 := by
  have h : (2 : ℚ) ^ v.exp ≠ 0 := zpow_ne_zero _ (by norm_num)
  simp only [exactRat, mul_eq_zero, h, or_false, Int.cast_eq_zero]

/-- Exact.cmp compares the rationals. -/
theorem exactCmp_eq (u v : Exact) : u.cmp v = compare (exactRat u) (exactRat v) := by
  have h : (0 : ℚ) < (2 : ℚ) ^ (min u.exp v.exp) := by positivity
  rw [exactRat_eq_mantAt u (min_le_left _ v.exp), exactRat_eq_mantAt v (min_le_right u.exp _)]
  simp only [Exact.cmp]
  rcases lt_trichotomy (u.mantAt (min u.exp v.exp)) (v.mantAt (min u.exp v.exp)) with hlt | heq | hgt
  · rw [compare_lt_iff_lt.2 hlt,
      compare_lt_iff_lt.2 (mul_lt_mul_of_pos_right (Int.cast_lt.2 hlt) h)]
  · rw [heq, compare_eq_iff_eq.2 rfl, compare_eq_iff_eq.2 rfl]
  · rw [compare_gt_iff_gt.2 hgt,
      compare_gt_iff_gt.2 (mul_lt_mul_of_pos_right (Int.cast_lt.2 hgt) h)]

/-- floorLog2 is the integer part of the binary logarithm (R95). -/
theorem floorLog2_eq {num den : Nat} (hn : 0 < num) (hd : 0 < den) (e : Int) :
    floorLog2 num den e = Int.log 2 ((num : ℚ) / den * (2 : ℚ) ^ e) := by
  have hnq : (0 : ℚ) < num := by exact_mod_cast hn
  have hdq : (0 : ℚ) < den := by exact_mod_cast hd
  have two_ne : (2 : ℚ) ≠ 0 := by norm_num
  -- a logarithm is settled by its two bounds
  have key : ∀ E : ℤ, (2 : ℚ) ^ E ≤ (num : ℚ) / den → (num : ℚ) / den < (2 : ℚ) ^ (E + 1) →
      E + e = Int.log 2 ((num : ℚ) / den * (2 : ℚ) ^ e) := by
    intro E h1 h2
    have hp : (0 : ℚ) < (2 : ℚ) ^ e := by positivity
    have hv : (0 : ℚ) < (num : ℚ) / den * (2 : ℚ) ^ e := by positivity
    apply le_antisymm
    · rw [← Int.zpow_le_iff_le_log (by norm_num) hv]
      push_cast
      rw [zpow_add₀ two_ne]
      exact mul_le_mul_of_nonneg_right h1 hp.le
    · rw [← Int.lt_add_one_iff, ← Int.lt_zpow_iff_log_lt (by norm_num) hv]
      push_cast
      rw [show E + e + 1 = (E + 1) + e by ring, zpow_add₀ two_ne]
      exact mul_lt_mul_of_pos_right h2 hp
  have hbn : bitlen num = num.log2 + 1 := by rw [bitlen_eq, if_neg hn.ne']
  have hbd : bitlen den = den.log2 + 1 := by rw [bitlen_eq, if_neg hd.ne']
  have n1 : ((2 : ℚ) ^ (num.log2 : ℤ)) ≤ num := by
    rw [zpow_natCast]; exact_mod_cast Nat.log2_self_le hn.ne'
  have n2 : (num : ℚ) < (2 : ℚ) ^ ((num.log2 : ℤ) + 1) := by
    have := (Nat.log2_lt hn.ne').1 (Nat.lt_succ_self num.log2)
    rw [show ((num.log2 : ℤ) + 1) = ((num.log2 + 1 : Nat) : ℤ) by push_cast; rfl, zpow_natCast]
    exact_mod_cast this
  have d1 : ((2 : ℚ) ^ (den.log2 : ℤ)) ≤ den := by
    rw [zpow_natCast]; exact_mod_cast Nat.log2_self_le hd.ne'
  have d2 : (den : ℚ) < (2 : ℚ) ^ ((den.log2 : ℤ) + 1) := by
    have := (Nat.log2_lt hd.ne').1 (Nat.lt_succ_self den.log2)
    rw [show ((den.log2 : ℤ) + 1) = ((den.log2 + 1 : Nat) : ℤ) by push_cast; rfl, zpow_natCast]
    exact_mod_cast this
  simp only [floorLog2, hbn, hbd]
  obtain ⟨g, hg'⟩ : ∃ g : ℤ, g = (num.log2 : ℤ) - den.log2 := ⟨_, rfl⟩
  have hg : ((num.log2 + 1 : Nat) : ℤ) - ((den.log2 + 1 : Nat) : ℤ) = g := by rw [hg']; push_cast; ring
  rw [hg]
  clear hbn hbd
  -- the comparison that decides is the one of num / den with 2^g
  have hcmp : den * 2 ^ g.toNat ≤ num * 2 ^ (-g).toNat ↔ (2 : ℚ) ^ g ≤ (num : ℚ) / den := by
    rw [le_div_iff₀ hdq, ← Nat.cast_le (α := ℚ)]
    push_cast
    rcases le_total 0 g with h | h
    · have a1 : (-g).toNat = 0 := by omega
      have a2 : ((g.toNat : ℕ) : ℤ) = g := Int.toNat_of_nonneg h
      rw [a1, pow_zero, mul_one, ← zpow_natCast, a2, mul_comm]
    · have a1 : g.toNat = 0 := by omega
      have a2 : (((-g).toNat : ℕ) : ℤ) = -g := Int.toNat_of_nonneg (by omega)
      have hp : (0 : ℚ) < (2 : ℚ) ^ g := by positivity
      rw [a1, pow_zero, mul_one, ← zpow_natCast, a2, zpow_neg, ← div_eq_mul_inv, le_div_iff₀ hp, mul_comm]
  split
  · next h =>
    refine key g (hcmp.1 h) ?_
    rw [div_lt_iff₀ hdq]
    calc (num : ℚ) < (2 : ℚ) ^ ((num.log2 : ℤ) + 1) := n2
      _ = (2 : ℚ) ^ (g + 1) * (2 : ℚ) ^ (den.log2 : ℤ) := by
        rw [← zpow_add₀ two_ne, show (g + 1) + (den.log2 : ℤ) = (num.log2 : ℤ) + 1 by rw [hg']; ring]
      _ ≤ (2 : ℚ) ^ (g + 1) * den := mul_le_mul_of_nonneg_left d1 (by positivity)
  · next h =>
    have hlt : (num : ℚ) / den < (2 : ℚ) ^ g := not_le.1 (fun hh => h (hcmp.2 hh))
    refine key (g - 1) ?_ (by rw [sub_add_cancel]; exact hlt)
    rw [le_div_iff₀ hdq]
    calc (2 : ℚ) ^ (g - 1) * den ≤ (2 : ℚ) ^ (g - 1) * (2 : ℚ) ^ ((den.log2 : ℤ) + 1) :=
          mul_le_mul_of_nonneg_left d2.le (by positivity)
      _ = (2 : ℚ) ^ (num.log2 : ℤ) := by
        rw [← zpow_add₀ two_ne, show (g - 1) + ((den.log2 : ℤ) + 1) = (num.log2 : ℤ) by rw [hg']; ring]
      _ ≤ num := n1

end Sys2Proof.Machine
end

