-- ==== Sys2Proof/Laws/Float.lean ====
section
/-! SUPPORT. The fields of a packed float: a pattern is its fields, and the fields of a packed triple are the triple's
(R89); the classes by their fields (R91). -/

namespace Sys2Proof.Machine

theorem packFields_toNat (s : Bool) (e : BitVec 19) (f : BitVec 236) :
    (packFields s e f).toNat = s.toNat * 2 ^ 255 + e.toNat * 2 ^ 236 + f.toNat := by
  have happ : ∀ {m n : Nat} (x : BitVec m) (y : BitVec n), (x ++ y).toNat = x.toNat * 2 ^ n + y.toNat := by
    intro m n x y
    rw [BitVec.toNat_append, ← Nat.shiftLeft_add_eq_or_of_lt y.isLt, Nat.shiftLeft_eq]
  have hs : (BitVec.ofBool s).toNat = s.toNat := by cases s <;> rfl
  simp only [packFields, happ, hs]
  omega

theorem expField_eq (x : Packed) : expField x = x.toNat / 2 ^ 236 % 2 ^ 19 := by
  rw [expField, BitVec.extractLsb'_toNat, Nat.shiftRight_eq_div_pow]

theorem fracField_eq (x : Packed) : fracField x = x.toNat % 2 ^ 236 := by
  rw [fracField, BitVec.extractLsb'_toNat, Nat.shiftRight_eq_div_pow, Nat.pow_zero, Nat.div_one]

theorem sgn_eq (x : Packed) : sgn x = decide (2 ^ 255 ≤ x.toNat) := by
  have h := x.isLt
  rw [sgn, BitVec.getLsbD, Nat.testBit_eq_decide_div_mod_eq]
  congr 1
  apply propext
  constructor <;> intro hh <;> omega

theorem expField_lt (x : Packed) : expField x < 2 ^ 19 := by rw [expField_eq]; exact Nat.mod_lt _ (by decide)

theorem fracField_lt (x : Packed) : fracField x < 2 ^ 236 := by
  rw [fracField_eq]; exact Nat.mod_lt _ (Nat.two_pow_pos _)

/-- A pattern is the sum of its fields. -/
theorem toNat_eq_fields (x : Packed) :
    x.toNat = (sgn x).toNat * 2 ^ 255 + expField x * 2 ^ 236 + fracField x := by
  have h := x.isLt
  rw [expField_eq, fracField_eq, sgn_eq]
  by_cases hs : 2 ^ 255 ≤ x.toNat <;> simp only [hs, decide_true, decide_false, Bool.toNat_true, Bool.toNat_false] <;> omega

/-- Two patterns with the same fields are the same (R89). -/
theorem packed_ext {x y : Packed} (hs : sgn x = sgn y) (he : expField x = expField y) (hf : fracField x = fracField y) :
    x = y := by
  apply BitVec.eq_of_toNat_eq
  rw [toNat_eq_fields x, toNat_eq_fields y, hs, he, hf]

@[simp] theorem sgn_packFields (s : Bool) (e : BitVec 19) (f : BitVec 236) : sgn (packFields s e f) = s := by
  have he := e.isLt
  have hf := f.isLt
  rw [sgn_eq, packFields_toNat]
  cases s <;> simp only [Bool.toNat_true, Bool.toNat_false, decide_eq_true_eq, decide_eq_false_iff_not] <;> omega

@[simp] theorem expField_packFields (s : Bool) (e : BitVec 19) (f : BitVec 236) :
    expField (packFields s e f) = e.toNat := by
  have he := e.isLt
  have hf := f.isLt
  rw [expField_eq, packFields_toNat]
  cases s <;> simp only [Bool.toNat_true, Bool.toNat_false] <;> omega

@[simp] theorem fracField_packFields (s : Bool) (e : BitVec 19) (f : BitVec 236) :
    fracField (packFields s e f) = f.toNat := by
  have he := e.isLt
  have hf := f.isLt
  rw [fracField_eq, packFields_toNat]
  cases s <;> simp only [Bool.toNat_true, Bool.toNat_false] <;> omega

/-! ### Classes by fields (R91) -/

theorem isNaN_iff (x : Packed) : isNaN x = true ↔ expField x = 524287 ∧ fracField x ≠ 0 := by
  simp only [isNaN, classOf, Config.eall, beq_iff_eq]
  split_ifs <;> simp_all

theorem isInf_iff (x : Packed) : isInf x = true ↔ expField x = 524287 ∧ fracField x = 0 := by
  simp only [isInf, classOf, Config.eall, beq_iff_eq]
  split_ifs <;> simp_all

theorem isZero_iff (x : Packed) : isZero x = true ↔ expField x = 0 ∧ fracField x = 0 := by
  simp only [isZero, classOf, Config.eall, beq_iff_eq]
  split_ifs <;> simp_all

theorem isFinite_iff (x : Packed) : isFinite x = true ↔ expField x ≠ 524287 := by
  simp only [isFinite, Bool.and_eq_true, Bool.not_eq_true', ← Bool.not_eq_true, isNaN_iff, isInf_iff]
  tauto

end Sys2Proof.Machine
end

