-- ==== Sys2Proof/Laws/State.lean ====
section
/-! SUPPORT. One lemma per field per update of the state, true by rfl, and the read-after-write law of the data
registers, so that no proof unfolds a record update. -/

namespace Sys2Proof.Machine

variable (s : State)

/-! ### Registers -/

/-- Two register files are equal when every register reads the same. -/
theorem State.regs_ext {s t : State} (h : ∀ i, s.reg i = t.reg i) : s.regs = t.regs := by
  apply Vector.ext
  intro i hi
  exact h ⟨i, hi⟩

theorem State.reg_eq_of_regs {s t : State} (h : s.regs = t.regs) (i : RegId) : s.reg i = t.reg i := by
  simp only [State.reg, h]

/-- Read after write: the register written holds the value, every other keeps its own (R10). -/
@[simp] theorem State.setReg_reg (i j : RegId) (v : Data) :
    (s.setReg i v).reg j = if j = i then v else s.reg j := by
  simp only [State.setReg, State.reg, Vector.get_eq_getElem, Vector.getElem_set, Fin.ext_iff, eq_comm]

@[simp] theorem State.writeInt_reg (i j : RegId) (n : Nat) :
    (s.writeInt i n).reg j = if j = i then BitVec.ofNat 1024 n else s.reg j := by
  simp only [State.writeInt, State.setReg_reg]

@[simp] theorem State.writeFloat_reg (i j : RegId) (x : Packed) :
    (s.writeFloat i x).reg j = if j = i then x.setWidth 1024 else s.reg j := by
  simp only [State.writeFloat, State.setReg_reg]

@[simp] theorem State.hostReset_reg (i : RegId) : s.hostReset.reg i = Config.unspecifiedReg s.draws i := by
  simp [State.hostReset, State.reg, drawRegs, Vector.get_eq_getElem]

/-! ### setReg -/

@[simp] theorem State.setReg_cix (i : RegId) (v : Data) : (s.setReg i v).cix = s.cix := rfl
@[simp] theorem State.setReg_cf (i : RegId) (v : Data) : (s.setReg i v).cf = s.cf := rfl
@[simp] theorem State.setReg_fault (i : RegId) (v : Data) : (s.setReg i v).fault = s.fault := rfl
@[simp] theorem State.setReg_cause (i : RegId) (v : Data) : (s.setReg i v).cause = s.cause := rfl
@[simp] theorem State.setReg_fcmd (i : RegId) (v : Data) : (s.setReg i v).fcmd = s.fcmd := rfl
@[simp] theorem State.setReg_fcix (i : RegId) (v : Data) : (s.setReg i v).fcix = s.fcix := rfl
@[simp] theorem State.setReg_pending (i : RegId) (v : Data) : (s.setReg i v).pending = s.pending := rfl
@[simp] theorem State.setReg_answer (i : RegId) (v : Data) : (s.setReg i v).answer = s.answer := rfl
@[simp] theorem State.setReg_draws (i : RegId) (v : Data) : (s.setReg i v).draws = s.draws := rfl

/-! ### setCf -/

@[simp] theorem State.setCf_reg (c : Bool) (j : RegId) : (s.setCf c).reg j = s.reg j := rfl
@[simp] theorem State.setCf_regs (c : Bool) : (s.setCf c).regs = s.regs := rfl
@[simp] theorem State.setCf_cix (c : Bool) : (s.setCf c).cix = s.cix := rfl
@[simp] theorem State.setCf_cf (c : Bool) : (s.setCf c).cf = c := rfl
@[simp] theorem State.setCf_fault (c : Bool) : (s.setCf c).fault = s.fault := rfl
@[simp] theorem State.setCf_cause (c : Bool) : (s.setCf c).cause = s.cause := rfl
@[simp] theorem State.setCf_fcmd (c : Bool) : (s.setCf c).fcmd = s.fcmd := rfl
@[simp] theorem State.setCf_fcix (c : Bool) : (s.setCf c).fcix = s.fcix := rfl
@[simp] theorem State.setCf_pending (c : Bool) : (s.setCf c).pending = s.pending := rfl
@[simp] theorem State.setCf_answer (c : Bool) : (s.setCf c).answer = s.answer := rfl
@[simp] theorem State.setCf_draws (c : Bool) : (s.setCf c).draws = s.draws := rfl

/-! ### advance -/

@[simp] theorem State.advance_reg (j : RegId) : (s.advance).reg j = s.reg j := rfl
@[simp] theorem State.advance_regs : (s.advance).regs = s.regs := rfl
@[simp] theorem State.advance_cix : (s.advance).cix = s.cix + 1 := rfl
@[simp] theorem State.advance_cf : (s.advance).cf = s.cf := rfl
@[simp] theorem State.advance_fault : (s.advance).fault = s.fault := rfl
@[simp] theorem State.advance_cause : (s.advance).cause = s.cause := rfl
@[simp] theorem State.advance_fcmd : (s.advance).fcmd = s.fcmd := rfl
@[simp] theorem State.advance_fcix : (s.advance).fcix = s.fcix := rfl
@[simp] theorem State.advance_pending : (s.advance).pending = s.pending := rfl
@[simp] theorem State.advance_answer : (s.advance).answer = s.answer := rfl
@[simp] theorem State.advance_draws : (s.advance).draws = s.draws := rfl

/-! ### writeInt -/

@[simp] theorem State.writeInt_cix (i : RegId) (n : Nat) : (s.writeInt i n).cix = s.cix := rfl
@[simp] theorem State.writeInt_cf (i : RegId) (n : Nat) : (s.writeInt i n).cf = s.cf := rfl
@[simp] theorem State.writeInt_fault (i : RegId) (n : Nat) : (s.writeInt i n).fault = s.fault := rfl
@[simp] theorem State.writeInt_cause (i : RegId) (n : Nat) : (s.writeInt i n).cause = s.cause := rfl
@[simp] theorem State.writeInt_fcmd (i : RegId) (n : Nat) : (s.writeInt i n).fcmd = s.fcmd := rfl
@[simp] theorem State.writeInt_fcix (i : RegId) (n : Nat) : (s.writeInt i n).fcix = s.fcix := rfl
@[simp] theorem State.writeInt_pending (i : RegId) (n : Nat) : (s.writeInt i n).pending = s.pending := rfl
@[simp] theorem State.writeInt_answer (i : RegId) (n : Nat) : (s.writeInt i n).answer = s.answer := rfl
@[simp] theorem State.writeInt_draws (i : RegId) (n : Nat) : (s.writeInt i n).draws = s.draws := rfl

/-! ### writeFloat -/

@[simp] theorem State.writeFloat_cix (i : RegId) (x : Packed) : (s.writeFloat i x).cix = s.cix := rfl
@[simp] theorem State.writeFloat_cf (i : RegId) (x : Packed) : (s.writeFloat i x).cf = s.cf := rfl
@[simp] theorem State.writeFloat_fault (i : RegId) (x : Packed) : (s.writeFloat i x).fault = s.fault := rfl
@[simp] theorem State.writeFloat_cause (i : RegId) (x : Packed) : (s.writeFloat i x).cause = s.cause := rfl
@[simp] theorem State.writeFloat_fcmd (i : RegId) (x : Packed) : (s.writeFloat i x).fcmd = s.fcmd := rfl
@[simp] theorem State.writeFloat_fcix (i : RegId) (x : Packed) : (s.writeFloat i x).fcix = s.fcix := rfl
@[simp] theorem State.writeFloat_pending (i : RegId) (x : Packed) : (s.writeFloat i x).pending = s.pending := rfl
@[simp] theorem State.writeFloat_answer (i : RegId) (x : Packed) : (s.writeFloat i x).answer = s.answer := rfl
@[simp] theorem State.writeFloat_draws (i : RegId) (x : Packed) : (s.writeFloat i x).draws = s.draws := rfl

/-! ### enterFault -/

@[simp] theorem State.enterFault_reg (c : Cause) (w : Cmd) (j : RegId) : (s.enterFault c w).reg j = s.reg j := rfl
@[simp] theorem State.enterFault_regs (c : Cause) (w : Cmd) : (s.enterFault c w).regs = s.regs := rfl
@[simp] theorem State.enterFault_cix (c : Cause) (w : Cmd) : (s.enterFault c w).cix = s.cix := rfl
@[simp] theorem State.enterFault_cf (c : Cause) (w : Cmd) : (s.enterFault c w).cf = s.cf := rfl
@[simp] theorem State.enterFault_fault (c : Cause) (w : Cmd) : (s.enterFault c w).fault = true := rfl
@[simp] theorem State.enterFault_cause (c : Cause) (w : Cmd) : (s.enterFault c w).cause = c := rfl
@[simp] theorem State.enterFault_fcmd (c : Cause) (w : Cmd) : (s.enterFault c w).fcmd = w := rfl
@[simp] theorem State.enterFault_fcix (c : Cause) (w : Cmd) : (s.enterFault c w).fcix = s.cix := rfl
@[simp] theorem State.enterFault_pending (c : Cause) (w : Cmd) : (s.enterFault c w).pending = s.pending := rfl
@[simp] theorem State.enterFault_answer (c : Cause) (w : Cmd) : (s.enterFault c w).answer = s.answer := rfl
@[simp] theorem State.enterFault_draws (c : Cause) (w : Cmd) : (s.enterFault c w).draws = s.draws := rfl

/-! ### hostReset -/

@[simp] theorem State.hostReset_regs : (s.hostReset).regs = drawRegs s.draws := rfl
@[simp] theorem State.hostReset_cix : (s.hostReset).cix = 0 := rfl
@[simp] theorem State.hostReset_cf : (s.hostReset).cf = false := rfl
@[simp] theorem State.hostReset_fault : (s.hostReset).fault = false := rfl
@[simp] theorem State.hostReset_cause : (s.hostReset).cause = .none := rfl
@[simp] theorem State.hostReset_fcmd : (s.hostReset).fcmd = 0 := rfl
@[simp] theorem State.hostReset_fcix : (s.hostReset).fcix = 0 := rfl
@[simp] theorem State.hostReset_pending : (s.hostReset).pending = s.pending := rfl
@[simp] theorem State.hostReset_answer : (s.hostReset).answer = s.answer := rfl
@[simp] theorem State.hostReset_draws : (s.hostReset).draws = s.draws + 1 := rfl

/-! ### take -/

@[simp] theorem State.take_reg (l : List HostAction) (j : RegId) : (s.take l).reg j = s.reg j := rfl
@[simp] theorem State.take_regs (l : List HostAction) : (s.take l).regs = s.regs := rfl
@[simp] theorem State.take_cix (l : List HostAction) : (s.take l).cix = s.cix := rfl
@[simp] theorem State.take_cf (l : List HostAction) : (s.take l).cf = s.cf := rfl
@[simp] theorem State.take_fault (l : List HostAction) : (s.take l).fault = s.fault := rfl
@[simp] theorem State.take_cause (l : List HostAction) : (s.take l).cause = s.cause := rfl
@[simp] theorem State.take_fcmd (l : List HostAction) : (s.take l).fcmd = s.fcmd := rfl
@[simp] theorem State.take_fcix (l : List HostAction) : (s.take l).fcix = s.fcix := rfl
@[simp] theorem State.take_pending (l : List HostAction) : (s.take l).pending = l := rfl
@[simp] theorem State.take_answer (l : List HostAction) : (s.take l).answer = s.answer := rfl
@[simp] theorem State.take_draws (l : List HostAction) : (s.take l).draws = s.draws := rfl

/-! ### give -/

@[simp] theorem State.give_reg (a : HostAction) (j : RegId) : (s.give a).reg j = s.reg j := rfl
@[simp] theorem State.give_regs (a : HostAction) : (s.give a).regs = s.regs := rfl
@[simp] theorem State.give_cix (a : HostAction) : (s.give a).cix = s.cix := rfl
@[simp] theorem State.give_cf (a : HostAction) : (s.give a).cf = s.cf := rfl
@[simp] theorem State.give_fault (a : HostAction) : (s.give a).fault = s.fault := rfl
@[simp] theorem State.give_cause (a : HostAction) : (s.give a).cause = s.cause := rfl
@[simp] theorem State.give_fcmd (a : HostAction) : (s.give a).fcmd = s.fcmd := rfl
@[simp] theorem State.give_fcix (a : HostAction) : (s.give a).fcix = s.fcix := rfl
@[simp] theorem State.give_pending (a : HostAction) : (s.give a).pending = a :: s.pending := rfl
@[simp] theorem State.give_answer (a : HostAction) : (s.give a).answer = s.answer := rfl
@[simp] theorem State.give_draws (a : HostAction) : (s.give a).draws = s.draws := rfl

end Sys2Proof.Machine
end

