-- ==== Sys2Proof/Laws/Ops.lean ====
section
/-! SUPPORT. One lemma per shared operation that says what it does: the widths, reading and writing an operand, the
end of a command, the fault entry, the issue of a word, one step. -/

namespace Sys2Proof.Machine

/-! ### Widths and operands -/

theorem bits_le (w : Width) : bits w ≤ 1024 := by cases w <;> decide

theorem bits_pos (w : Width) : 0 < bits w := by cases w <;> decide

theorem two_pow_bits_le (w : Width) : 2 ^ bits w ≤ 2 ^ 1024 := Nat.pow_le_pow_right Nat.two_pos (bits_le w)

theorem readInt_lt (s : State) (w : Width) (i : RegId) : s.readInt w i < 2 ^ bits w :=
  Nat.mod_lt _ (Nat.two_pow_pos _)

/-- Only the register's own value matters to a read at any width. -/
theorem readInt_congr {s t : State} {i j : RegId} (h : s.reg i = t.reg j) (w : Width) : s.readInt w i = t.readInt w j := by
  simp only [State.readInt, h]

theorem readFloat_congr {s t : State} {i j : RegId} (h : s.reg i = t.reg j) : s.readFloat i = t.readFloat j := by
  simp only [State.readFloat, h]

/-- A value of at most 1024 bits is stored whole (R10, R15). -/
theorem ofNat_toNat_of_lt {v : Nat} (h : v < 2 ^ 1024) : (BitVec.ofNat 1024 v).toNat = v := by
  rw [BitVec.toNat_ofNat, Nat.mod_eq_of_lt h]

theorem ofNat_toNat_of_lt_bits {v : Nat} {w : Width} (h : v < 2 ^ bits w) : (BitVec.ofNat 1024 v).toNat = v :=
  ofNat_toNat_of_lt (h.trans_le (two_pow_bits_le w))

/-- An N-bit result written to a register is read back at width N (R15). -/
theorem readInt_writeInt_self (s : State) (w : Width) (i : RegId) {v : Nat} (h : v < 2 ^ bits w) :
    (s.writeInt i v).readInt w i = v := by
  rw [State.readInt, State.writeInt_reg, if_pos rfl, ofNat_toNat_of_lt_bits h, Nat.mod_eq_of_lt h]

/-- A float written to a register is read back (R15, R27). -/
theorem readFloat_writeFloat_self (s : State) (i : RegId) (x : Packed) : (s.writeFloat i x).readFloat i = x := by
  rw [State.readFloat, State.writeFloat_reg, if_pos rfl, BitVec.setWidth_setWidth_of_le x (by decide), BitVec.setWidth_eq]

theorem wrapNat_lt (w : Width) (t : Nat) : wrapNat w t < 2 ^ bits w := Nat.mod_lt _ (Nat.two_pow_pos _)

theorem wrapInt_lt (w : Width) (t : Int) : wrapInt w t < 2 ^ bits w := by
  have hp : (0 : Int) < ((2 ^ bits w : Nat) : Int) := by exact_mod_cast Nat.two_pow_pos _
  have h1 := Int.emod_nonneg t hp.ne'
  have h2 := Int.emod_lt_of_pos t hp
  simp only [wrapInt]
  omega

/-! ### The end of a command -/

theorem completes_eq_next {s t : State} : completes s = .next t ↔ t = s.advance := by
  simp only [completes, Host.Outcome.next.injEq, eq_comm]

theorem takeFault_eq_next {c : Cause} {i : Instr} {s t : State} :
    takeFault c i s = .next t ↔ t = s.enterFault c (encode i) := by
  simp only [takeFault, Host.Outcome.next.injEq, eq_comm]

/-- The end of an addition: the wrapped sum, the carry, the index (R58, R59). -/
theorem finishAdd_eq_next {w : Width} {rd : RegId} {n : Nat} {s t : State} :
    finishAdd w rd n s = .next t ↔ t = ((s.writeInt rd (wrapNat w n)).setCf (carryOut w n)).advance :=
  completes_eq_next

/-- The end of a subtraction: the wrapped difference, the borrow, the index (R60, R61). -/
theorem finishSub_eq_next {w : Width} {rd : RegId} {d : Int} {s t : State} :
    finishSub w rd d s = .next t ↔ t = ((s.writeInt rd (wrapInt w d)).setCf (borrowOut d)).advance :=
  completes_eq_next

/-! ### The host's side -/

/-- What the issue of a word can do (R52): ignored while halted, a fault ILLEGAL, or the decoded command. -/
theorem issue_cases {c : Cmd} {s t : State} (h : issue c s = .next t) :
    (s.fault = true ∧ t = s) ∨
    (s.fault = false ∧ (∃ r, decode c = .error r) ∧ t = s.enterFault .illegal c) ∨
    (s.fault = false ∧ ∃ i, decode c = .ok i ∧ exec i s = .next t) := by
  cases hf : s.fault with
  | true =>
    simp only [issue, hf, if_true, Host.Outcome.next.injEq] at h
    exact .inl ⟨rfl, h.symm⟩
  | false =>
    cases hd : decode c with
    | error r =>
      simp only [issue, hf, hd, Bool.false_eq_true, if_false, Host.Outcome.next.injEq] at h
      exact .inr (.inl ⟨rfl, ⟨r, rfl⟩, h.symm⟩)
    | ok i =>
      simp only [issue, hf, hd, Bool.false_eq_true, if_false] at h
      exact .inr (.inr ⟨rfl, i, rfl, h⟩)

/-- What one step can do: nothing when the host does nothing, else the host's next action (R37, R126). -/
theorem step_cases {s t : State} (h : step s = .next t) :
    (s.pending = [] ∧ t = s) ∨ ∃ a rest, s.pending = a :: rest ∧ hostAct a (s.take rest) = .next t := by
  cases hp : s.pending with
  | nil =>
    simp only [step, hp, Host.Outcome.next.injEq] at h
    exact .inl ⟨rfl, h.symm⟩
  | cons a rest =>
    simp only [step, hp] at h
    exact .inr ⟨a, rest, rfl, h⟩

/-- What a host action other than an issue does (R130). -/
theorem hostAct_cases {a : HostAction} {s t : State} (h : hostAct a s = .next t) :
    (a = .reset ∧ t = { s.hostReset with answer := .none }) ∨
    (∃ i v, a = .writeReg i v ∧ t = { s.setReg i v with answer := .none }) ∨
    (∃ i, a = .readReg i ∧ t = { s with answer := .reg (s.reg i) }) ∨
    (∃ n, a = .readStatus n ∧ t = { s with answer := .status (s.statusReg n) }) ∨
    (∃ c, a = .issue c ∧ issue c { s with answer := .none } = .next t) := by
  cases a with
  | reset => exact .inl ⟨rfl, (Host.Outcome.next.inj h).symm⟩
  | writeReg i v => exact .inr (.inl ⟨i, v, rfl, (Host.Outcome.next.inj h).symm⟩)
  | readReg i => exact .inr (.inr (.inl ⟨i, rfl, (Host.Outcome.next.inj h).symm⟩))
  | readStatus n => exact .inr (.inr (.inr (.inl ⟨n, rfl, (Host.Outcome.next.inj h).symm⟩)))
  | issue c => exact .inr (.inr (.inr (.inr ⟨c, rfl, h⟩)))

end Sys2Proof.Machine
end

