-- ==== Sys2Proof/Laws/PerInstr.lean ====
section
/-! SUPPORT. A statement about every command, one lemma per constructor: the word it is encoded as splits into the
fields of its row (30_encoding.md R41, R44, R47). -/

namespace Sys2Proof.Laws

/-- The fields of the encoded word are the fields the command's row and format give it. -/
def FieldsOfEncode.Statement (i : Instr) : Prop := splitWord (encode i) = i.fields

theorem FieldsOfEncode.add (w : Width) (rd rs1 rs2 : RegId) : FieldsOfEncode.Statement (.add w rd rs1 rs2) := splitWord_encode _
theorem FieldsOfEncode.adc (w : Width) (rd rs1 rs2 : RegId) : FieldsOfEncode.Statement (.adc w rd rs1 rs2) := splitWord_encode _
theorem FieldsOfEncode.sub (w : Width) (rd rs1 rs2 : RegId) : FieldsOfEncode.Statement (.sub w rd rs1 rs2) := splitWord_encode _
theorem FieldsOfEncode.sbb (w : Width) (rd rs1 rs2 : RegId) : FieldsOfEncode.Statement (.sbb w rd rs1 rs2) := splitWord_encode _
theorem FieldsOfEncode.inc (w : Width) (rd rs1 : RegId) : FieldsOfEncode.Statement (.inc w rd rs1) := splitWord_encode _
theorem FieldsOfEncode.dec (w : Width) (rd rs1 : RegId) : FieldsOfEncode.Statement (.dec w rd rs1) := splitWord_encode _
theorem FieldsOfEncode.cmp (w : Width) (rd rs1 rs2 : RegId) : FieldsOfEncode.Statement (.cmp w rd rs1 rs2) := splitWord_encode _
theorem FieldsOfEncode.mulw (w : Width) (rd rd2 rs1 rs2 : RegId) : FieldsOfEncode.Statement (.mulw w rd rd2 rs1 rs2) := splitWord_encode _
theorem FieldsOfEncode.mullo (w : Width) (rd rs1 rs2 : RegId) : FieldsOfEncode.Statement (.mullo w rd rs1 rs2) := splitWord_encode _
theorem FieldsOfEncode.mulhi (w : Width) (rd rs1 rs2 : RegId) : FieldsOfEncode.Statement (.mulhi w rd rs1 rs2) := splitWord_encode _
theorem FieldsOfEncode.divrem (w : Width) (rd rd2 rs1 rs2 : RegId) : FieldsOfEncode.Statement (.divrem w rd rd2 rs1 rs2) := splitWord_encode _
theorem FieldsOfEncode.rdiv (w : Width) (rd rs1 rs2 : RegId) : FieldsOfEncode.Statement (.rdiv w rd rs1 rs2) := splitWord_encode _
theorem FieldsOfEncode.rdivp2 (w : Width) (rd rs1 rs2 : RegId) : FieldsOfEncode.Statement (.rdivp2 w rd rs1 rs2) := splitWord_encode _
theorem FieldsOfEncode.rdivp10 (w : Width) (rd rs1 rs2 : RegId) : FieldsOfEncode.Statement (.rdivp10 w rd rs1 rs2) := splitWord_encode _
theorem FieldsOfEncode.shl (w : Width) (rd rs1 rs2 : RegId) : FieldsOfEncode.Statement (.shl w rd rs1 rs2) := splitWord_encode _
theorem FieldsOfEncode.shr (w : Width) (rd rs1 rs2 : RegId) : FieldsOfEncode.Statement (.shr w rd rs1 rs2) := splitWord_encode _
theorem FieldsOfEncode.wshl (w : Width) (rd rd2 rs1 rs2 : RegId) : FieldsOfEncode.Statement (.wshl w rd rd2 rs1 rs2) := splitWord_encode _
theorem FieldsOfEncode.wshr (w : Width) (rd rd2 rs1 rs2 : RegId) : FieldsOfEncode.Statement (.wshr w rd rd2 rs1 rs2) := splitWord_encode _
theorem FieldsOfEncode.cshl (w : Width) (rd rd2 rs1 rs2 rs3 : RegId) : FieldsOfEncode.Statement (.cshl w rd rd2 rs1 rs2 rs3) := splitWord_encode _
theorem FieldsOfEncode.cshr (w : Width) (rd rd2 rs1 rs2 rs3 : RegId) : FieldsOfEncode.Statement (.cshr w rd rd2 rs1 rs2 rs3) := splitWord_encode _
theorem FieldsOfEncode.clz (w : Width) (rd rs1 : RegId) : FieldsOfEncode.Statement (.clz w rd rs1) := splitWord_encode _
theorem FieldsOfEncode.ctz (w : Width) (rd rs1 : RegId) : FieldsOfEncode.Statement (.ctz w rd rs1) := splitWord_encode _
theorem FieldsOfEncode.msb (w : Width) (rd rs1 : RegId) : FieldsOfEncode.Statement (.msb w rd rs1) := splitWord_encode _
theorem FieldsOfEncode.iseven (w : Width) (rd rs1 : RegId) : FieldsOfEncode.Statement (.iseven w rd rs1) := splitWord_encode _
theorem FieldsOfEncode.isodd (w : Width) (rd rs1 : RegId) : FieldsOfEncode.Statement (.isodd w rd rs1) := splitWord_encode _
theorem FieldsOfEncode.fadd (rd rs1 rs2 : RegId) : FieldsOfEncode.Statement (.fadd rd rs1 rs2) := splitWord_encode _
theorem FieldsOfEncode.fsub (rd rs1 rs2 : RegId) : FieldsOfEncode.Statement (.fsub rd rs1 rs2) := splitWord_encode _
theorem FieldsOfEncode.fmul (rd rs1 rs2 : RegId) : FieldsOfEncode.Statement (.fmul rd rs1 rs2) := splitWord_encode _
theorem FieldsOfEncode.fdiv (rd rs1 rs2 : RegId) : FieldsOfEncode.Statement (.fdiv rd rs1 rs2) := splitWord_encode _
theorem FieldsOfEncode.fma (rd rs1 rs2 rs3 : RegId) : FieldsOfEncode.Statement (.fma rd rs1 rs2 rs3) := splitWord_encode _
theorem FieldsOfEncode.fneg (rd rs1 : RegId) : FieldsOfEncode.Statement (.fneg rd rs1) := splitWord_encode _
theorem FieldsOfEncode.fabs (rd rs1 : RegId) : FieldsOfEncode.Statement (.fabs rd rs1) := splitWord_encode _
theorem FieldsOfEncode.fcmp (rd rs1 rs2 : RegId) : FieldsOfEncode.Statement (.fcmp rd rs1 rs2) := splitWord_encode _
theorem FieldsOfEncode.ftcmp (rd rs1 rs2 : RegId) : FieldsOfEncode.Statement (.ftcmp rd rs1 rs2) := splitWord_encode _
theorem FieldsOfEncode.fclass (rd rs1 : RegId) : FieldsOfEncode.Statement (.fclass rd rs1) := splitWord_encode _
theorem FieldsOfEncode.fpack (rd rs1 rs2 rs3 : RegId) : FieldsOfEncode.Statement (.fpack rd rs1 rs2 rs3) := splitWord_encode _
theorem FieldsOfEncode.funpack (rd rd2 rd3 rs1 : RegId) : FieldsOfEncode.Statement (.funpack rd rd2 rd3 rs1) := splitWord_encode _

end Sys2Proof.Laws
end

