-- ==== Sys2Proof/Tests/Slice0.lean ====
section
/-! SUPPORT. The model's own tests. Words and expected values are the spec's: 30_encoding.md R55 and 95_test_vectors.md
(A, M, B, F and E name its rows). Then the ill-formed terms, and a witness for the hypotheses of each statement. -/

-- one theorem after another: a thread for each of these many small theorems would exhaust the checker's memory limit
set_option Elab.async false

namespace Sys2Proof.Tests

open Sys2Proof.Machine Sys2Proof.Reference

/-- A block right after reset in which the host has written these registers. -/
def withRegs (l : List (RegId × Nat)) : State :=
  l.foldl (fun s p => s.setReg p.1 (BitVec.ofNat 1024 p.2)) State.reset

/-- The state after the host issues one word. -/
def afterWord (s : State) (w : Nat) : Option State :=
  match step (s.withFetchWord 32 w) with
  | .next t => some t
  | .fault _ => none
  | .refused _ => none

/-- What a test looks at: these registers, STATUS (with CF at bit 8), CIX and FCMD. -/
def seen (s : Option State) (rs : List RegId) : Option (List Nat × Nat × Nat × Nat) :=
  s.map fun t => (rs.map fun r => (t.reg r).toNat, t.statusWord.toNat, t.cix.toNat, t.fcmd.toNat)

/-! ### Decoding: a word of every row, from the spec's own tables (R55, 95_test_vectors.md) -/

theorem test_decode_add : decode 0x04312000 = .ok (.add .w128 3 1 2) := by decide
theorem test_decode_adc : decode 0x09312000 = .ok (.adc .w256 3 1 2) := by decide
theorem test_decode_sub : decode 0x0C312000 = .ok (.sub .w128 3 1 2) := by decide
theorem test_decode_sbb : decode 0x11312000 = .ok (.sbb .w256 3 1 2) := by decide
theorem test_decode_inc : decode 0x16310000 = .ok (.inc .w512 3 1) := by decide
theorem test_decode_dec : decode 0x18310000 = .ok (.dec .w128 3 1) := by decide
theorem test_decode_cmp : decode 0x1C312000 = .ok (.cmp .w128 3 1 2) := by decide
theorem test_decode_mulw : decode 0x20412050 = .ok (.mulw .w128 4 5 1 2) := by decide
theorem test_decode_mullo : decode 0x25412000 = .ok (.mullo .w256 4 1 2) := by decide
theorem test_decode_mulhi : decode 0x28412000 = .ok (.mulhi .w128 4 1 2) := by decide
theorem test_decode_divrem : decode 0x2D412050 = .ok (.divrem .w256 4 5 1 2) := by decide
theorem test_decode_rdiv : decode 0x30412000 = .ok (.rdiv .w128 4 1 2) := by decide
theorem test_decode_rdivp2 : decode 0x35412000 = .ok (.rdivp2 .w256 4 1 2) := by decide
theorem test_decode_rdivp10 : decode 0x39412000 = .ok (.rdivp10 .w256 4 1 2) := by decide
theorem test_decode_shl : decode 0x40312000 = .ok (.shl .w128 3 1 2) := by decide
theorem test_decode_shr : decode 0x45312000 = .ok (.shr .w256 3 1 2) := by decide
theorem test_decode_wshl : decode 0x48312040 = .ok (.wshl .w128 3 4 1 2) := by decide
theorem test_decode_wshr : decode 0x4C312040 = .ok (.wshr .w128 3 4 1 2) := by decide
theorem test_decode_cshl : decode 0x50612370 = .ok (.cshl .w128 6 7 1 2 3) := by decide
theorem test_decode_cshr : decode 0x54612370 = .ok (.cshr .w128 6 7 1 2 3) := by decide
theorem test_decode_clz : decode 0x59310000 = .ok (.clz .w256 3 1) := by decide
theorem test_decode_ctz : decode 0x5C310000 = .ok (.ctz .w128 3 1) := by decide
theorem test_decode_msb : decode 0x62310000 = .ok (.msb .w512 3 1) := by decide
theorem test_decode_iseven : decode 0x64310000 = .ok (.iseven .w128 3 1) := by decide
theorem test_decode_isodd : decode 0x68310000 = .ok (.isodd .w128 3 1) := by decide
theorem test_decode_fadd : decode 0x81312000 = .ok (.fadd 3 1 2) := by decide
theorem test_decode_fsub : decode 0x85312000 = .ok (.fsub 3 1 2) := by decide
theorem test_decode_fmul : decode 0x89312000 = .ok (.fmul 3 1 2) := by decide
theorem test_decode_fdiv : decode 0x8D312000 = .ok (.fdiv 3 1 2) := by decide
theorem test_decode_fma : decode 0x91312400 = .ok (.fma 3 1 2 4) := by decide
theorem test_decode_fneg : decode 0x95310000 = .ok (.fneg 3 1) := by decide
theorem test_decode_fabs : decode 0x99310000 = .ok (.fabs 3 1) := by decide
theorem test_decode_fcmp : decode 0x9D312000 = .ok (.fcmp 3 1 2) := by decide
theorem test_decode_ftcmp : decode 0xA1312000 = .ok (.ftcmp 3 1 2) := by decide
theorem test_decode_fclass : decode 0xA5310000 = .ok (.fclass 3 1) := by decide
theorem test_decode_fpack : decode 0xA9312400 = .ok (.fpack 3 1 2 4) := by decide
theorem test_decode_funpack : decode 0xAD310056 = .ok (.funpack 3 5 6 1) := by decide

/-- R54: the second example word of R55 for a command at width 1024. -/
theorem test_decode_adc_wide : decode 0x0B00F000 = .ok (.adc .w1024 0 0 15) := by decide

/-! ### Words that are refused (95_test_vectors.md E1 to E10) -/

theorem test_refuse_zero_word : decode 0x00000000 = .error .reservedOpcode := by decide
theorem test_refuse_fadd_width_00 : decode 0x80312000 = .error .floatWidth := by decide
theorem test_refuse_fadd_width_10 : decode 0x82312000 = .error .floatWidth := by decide
theorem test_refuse_add_unused_rs3 : decode 0x05312100 = .error .unusedField := by decide
theorem test_refuse_inc_unused_rs2 : decode 0x14312000 = .error .unusedField := by decide
theorem test_refuse_mulw_repeats_rd : decode 0x20412040 = .error .repeatedDestination := by decide
theorem test_refuse_funpack_repeats_rd : decode 0xAD510065 = .error .repeatedDestination := by decide
theorem test_refuse_cshl_unused_rd3 : decode 0x50612371 = .error .unusedField := by decide
theorem test_refuse_opcode_0F : decode 0x3C000000 = .error .reservedOpcode := by decide
theorem test_refuse_opcode_3F : decode 0xFC000000 = .error .reservedOpcode := by decide

/-! ### Ill-formed terms (R45), refused by the check -/

theorem test_wf_mulw : (Instr.mulw .w128 4 4 1 2).wf = false := by decide
theorem test_wf_divrem : (Instr.divrem .w256 0 0 1 2).wf = false := by decide
theorem test_wf_wshl : (Instr.wshl .w128 3 3 1 2).wf = false := by decide
theorem test_wf_wshr : (Instr.wshr .w1024 15 15 1 2).wf = false := by decide
theorem test_wf_cshl : (Instr.cshl .w128 6 6 1 2 3).wf = false := by decide
theorem test_wf_cshr : (Instr.cshr .w512 6 6 1 2 3).wf = false := by decide
theorem test_wf_funpack_rd_rd2 : (Instr.funpack 5 5 6 1).wf = false := by decide
theorem test_wf_funpack_rd_rd3 : (Instr.funpack 5 6 5 1).wf = false := by decide
theorem test_wf_funpack_rd2_rd3 : (Instr.funpack 5 6 6 1).wf = false := by decide

/-- E11: a destination may equal a source. -/
theorem test_wf_source_overlap : (Instr.mulw .w128 1 2 1 2).wf = true := by decide

/-! ### One step of each command, on vectors of 95_test_vectors.md -/

/-- A1. -/
theorem test_add_A1 : seen (afterWord (withRegs [(1, 2 ^ 128 - 1), (2, 1)]) 0x04312000) [3] =
    some ([0], 0x100, 1, 0) := by decide +kernel

/-- A3. -/
theorem test_add_A3 : seen (afterWord (withRegs [(1, 2 ^ 200 + 1), (2, 1)]) 0x04312000) [3] =
    some ([2], 0x0, 1, 0) := by decide +kernel

/-- A4. -/
theorem test_adc_A4 : seen (afterWord ((withRegs [(1, 0), (2, 0)]).setCf true) 0x09312000) [3] =
    some ([1], 0x0, 1, 0) := by decide +kernel

/-- A5. -/
theorem test_adc_A5 : seen (afterWord ((withRegs [(1, 2 ^ 256 - 1), (2, 2 ^ 256 - 1)]).setCf true) 0x09312000) [3] =
    some ([2 ^ 256 - 1], 0x100, 1, 0) := by decide +kernel

/-- A6. -/
theorem test_sub_A6 : seen (afterWord (withRegs [(1, 5), (2, 7)]) 0x0C312000) [3] =
    some ([2 ^ 128 - 2], 0x100, 1, 0) := by decide +kernel

/-- A8. -/
theorem test_sub_A8 : seen (afterWord (withRegs [(1, 99)]) 0x0C311000) [3] =
    some ([0], 0x0, 1, 0) := by decide +kernel

/-- A9. -/
theorem test_sbb_A9 : seen (afterWord ((withRegs [(1, 10), (2, 3)]).setCf true) 0x11312000) [3] =
    some ([6], 0x0, 1, 0) := by decide +kernel

/-- A10. -/
theorem test_sbb_A10 : seen (afterWord ((withRegs [(1, 0), (2, 2 ^ 256 - 1)]).setCf true) 0x11312000) [3] =
    some ([0], 0x100, 1, 0) := by decide +kernel

/-- A12. -/
theorem test_inc_A12 : seen (afterWord ((withRegs [(1, 41)]).setCf true) 0x16310000) [3] =
    some ([42], 0x100, 1, 0) := by decide +kernel

/-- A13. -/
theorem test_inc_A13 : seen (afterWord (withRegs [(1, 2 ^ 128 - 1)]) 0x14310000) [3] =
    some ([0], 0x0, 1, 0) := by decide +kernel

/-- A14. -/
theorem test_dec_A14 : seen (afterWord (withRegs [(1, 0)]) 0x18310000) [3] =
    some ([2 ^ 128 - 1], 0x0, 1, 0) := by decide +kernel

/-- A15. -/
theorem test_cmp_A15 : seen (afterWord (withRegs [(1, 1), (2, 2 ^ 127)]) 0x1C312000) [3] =
    some ([0], 0x0, 1, 0) := by decide +kernel

/-- A16. -/
theorem test_cmp_A16 : seen (afterWord ((withRegs [(1, 2 ^ 128 + 5), (2, 5)]).setCf true) 0x1C312000) [3] =
    some ([1], 0x100, 1, 0) := by decide +kernel

/-- M2. -/
theorem test_mulw_M2 : seen (afterWord (withRegs [(1, 2 ^ 128 - 1), (2, 2 ^ 128 - 1)]) 0x20412050) [4, 5] =
    some ([1, 2 ^ 128 - 2], 0x0, 1, 0) := by decide +kernel

/-- M3. -/
theorem test_mulw_M3 : seen (afterWord (withRegs [(1, 3), (2, 5)]) 0x20112020) [1, 2] =
    some ([15, 0], 0x0, 1, 0) := by decide +kernel

/-- M5. -/
theorem test_mullo_M5 : seen (afterWord (withRegs [(1, 2 ^ 256 - 1), (2, 2 ^ 256 - 1)]) 0x25412000) [4] =
    some ([1], 0x0, 1, 0) := by decide +kernel

/-- M6. -/
theorem test_mulhi_M6 : seen (afterWord (withRegs [(1, 2 ^ 127), (2, 4)]) 0x28412000) [4] =
    some ([2], 0x0, 1, 0) := by decide +kernel

/-- M7. -/
theorem test_mulhi_M7 : seen (afterWord (withRegs [(1, 2 ^ 128 - 1), (2, 2 ^ 128 - 1)]) 0x28412000) [4] =
    some ([2 ^ 128 - 2], 0x0, 1, 0) := by decide +kernel

/-- M9. -/
theorem test_divrem_M9 : seen (afterWord (withRegs [(1, 2 ^ 256 - 1), (2, 2 ^ 128 - 1)]) 0x2D412050) [4, 5] =
    some ([2 ^ 128 + 1, 0], 0x0, 1, 0) := by decide +kernel

/-- M11. -/
theorem test_divrem_M11 : seen (afterWord (withRegs [(1, 100), (2, 0), (4, 9), (5, 8)]) 0x2C412050) [4, 5] =
    some ([9, 8], 0x21, 0, 0x2c412050) := by decide +kernel

/-- M15. -/
theorem test_rdiv_M15 : seen (afterWord (withRegs [(1, 2 ^ 128 - 1), (2, 2)]) 0x30412000) [4] =
    some ([2 ^ 127], 0x0, 1, 0) := by decide +kernel

/-- M16. -/
theorem test_rdiv_M16 : seen (afterWord (withRegs [(1, 7), (2, 0)]) 0x30412000) [] =
    some ([], 0x21, 0, 0x30412000) := by decide +kernel

/-- M19. -/
theorem test_rdivp2_M19 : seen (afterWord (withRegs [(1, 2 ^ 256 - 1), (2, 256)]) 0x35412000) [4] =
    some ([1], 0x0, 1, 0) := by decide +kernel

/-- M22. -/
theorem test_rdivp2_M22 : seen (afterWord (withRegs [(1, 2 ^ 127 + 1), (2, 128)]) 0x34412000) [4] =
    some ([1], 0x0, 1, 0) := by decide +kernel

/-- M26. -/
theorem test_rdivp10_M26 : seen (afterWord (withRegs [(1, 0x178287F49C4A1D6622FB2AB4000000001), (2, 39)]) 0x39412000) [4] =
    some ([1], 0x0, 1, 0) := by decide +kernel

/-- M28. -/
theorem test_rdivp10_M28 : seen (afterWord (withRegs [(1, 2 ^ 128 - 1), (2, 2 ^ 128 - 1)]) 0x38412000) [4] =
    some ([0], 0x0, 1, 0) := by decide +kernel

/-- B4. -/
theorem test_shl_B4 : seen (afterWord (withRegs [(1, 1), (2, 2 ^ 128 + 1)]) 0x40312000) [3] =
    some ([2], 0x0, 1, 0) := by decide +kernel

/-- B3. -/
theorem test_shl_B3 : seen (afterWord (withRegs [(1, 1), (2, 128), (3, 7)]) 0x40312000) [3] =
    some ([7], 0x31, 0, 0x40312000) := by decide +kernel

/-- B5. -/
theorem test_shr_B5 : seen (afterWord (withRegs [(1, 2 ^ 255), (2, 255)]) 0x45312000) [3] =
    some ([1], 0x0, 1, 0) := by decide +kernel

/-- B6. -/
theorem test_shr_B6 : seen (afterWord (withRegs [(1, 2 ^ 255), (2, 256)]) 0x45312000) [] =
    some ([], 0x31, 0, 0x45312000) := by decide +kernel

/-- B7. -/
theorem test_wshl_B7 : seen (afterWord (withRegs [(1, 2 ^ 127 + 1), (2, 1)]) 0x48312040) [3, 4] =
    some ([2, 1], 0x0, 1, 0) := by decide +kernel

/-- B8. -/
theorem test_wshl_B8 : seen (afterWord (withRegs [(1, 2 ^ 128 - 1), (2, 127)]) 0x48312040) [3, 4] =
    some ([2 ^ 127, 2 ^ 127 - 1], 0x0, 1, 0) := by decide +kernel

/-- B10. -/
theorem test_wshr_B10 : seen (afterWord (withRegs [(1, 3), (2, 1)]) 0x4C312040) [3, 4] =
    some ([1, 2 ^ 127], 0x0, 1, 0) := by decide +kernel

/-- B12. -/
theorem test_wshr_B12 : seen (afterWord (withRegs [(1, 2 ^ 128 - 1), (2, 127)]) 0x4C312040) [3, 4] =
    some ([1, 2 ^ 128 - 2], 0x0, 1, 0) := by decide +kernel

/-- B14. -/
theorem test_cshl_B14 : seen (afterWord (withRegs [(1, 1), (2, 4), (3, 255)]) 0x50612370) [6, 7] =
    some ([255, 0], 0x0, 1, 0) := by decide +kernel

/-- B15. -/
theorem test_cshr_B15 : seen (afterWord (withRegs [(1, 2), (2, 1), (3, 2 ^ 127)]) 0x54612370) [6, 7] =
    some ([2 ^ 127 + 1, 0], 0x0, 1, 0) := by decide +kernel

/-- B16. -/
theorem test_cshr_B16 : seen (afterWord (withRegs [(1, 2), (2, 128), (3, 0)]) 0x54612370) [] =
    some ([], 0x31, 0, 0x54612370) := by decide +kernel

/-- B18. -/
theorem test_clz_B18 : seen (afterWord (withRegs [(1, 0)]) 0x59310000) [3] =
    some ([256], 0x0, 1, 0) := by decide +kernel

/-- B19. -/
theorem test_clz_B19 : seen (afterWord (withRegs [(1, 2 ^ 128)]) 0x58310000) [3] =
    some ([128], 0x0, 1, 0) := by decide +kernel

/-- B22. -/
theorem test_ctz_B22 : seen (afterWord (withRegs [(1, 0)]) 0x5C310000) [3] =
    some ([128], 0x0, 1, 0) := by decide +kernel

/-- B23. -/
theorem test_ctz_B23 : seen (afterWord (withRegs [(1, 2 ^ 511)]) 0x5E310000) [3] =
    some ([511], 0x0, 1, 0) := by decide +kernel

/-- B24. -/
theorem test_msb_B24 : seen (afterWord (withRegs [(1, 2 ^ 300 + 5)]) 0x62310000) [3] =
    some ([300], 0x0, 1, 0) := by decide +kernel

/-- B27. -/
theorem test_msb_B27 : seen (afterWord (withRegs [(1, 2 ^ 128)]) 0x60310000) [] =
    some ([], 0x41, 0, 0x60310000) := by decide +kernel

/-- B28. -/
theorem test_iseven_B28 : seen (afterWord (withRegs [(1, 7)]) 0x64310000) [3] =
    some ([0], 0x0, 1, 0) := by decide +kernel

/-- B29. -/
theorem test_iseven_B29 : seen (afterWord (withRegs [(1, 0)]) 0x64310000) [3] =
    some ([1], 0x0, 1, 0) := by decide +kernel

/-- B30. -/
theorem test_isodd_B30 : seen (afterWord (withRegs [(1, 7)]) 0x68310000) [3] =
    some ([1], 0x0, 1, 0) := by decide +kernel

/-- B31. -/
theorem test_isodd_B31 : seen (afterWord (withRegs [(1, 0)]) 0x6B310000) [3] =
    some ([0], 0x0, 1, 0) := by decide +kernel

/-- F3. -/
theorem test_fadd_F3 : seen (afterWord (withRegs [(1, 0x3FFFF00000000000000000000000000000000000000000000000000000000001), (2, 0x3FF1200000000000000000000000000000000000000000000000000000000000)]) 0x81312000) [3] =
    some ([0x3FFFF00000000000000000000000000000000000000000000000000000000002], 0x0, 1, 0) := by decide +kernel

/-- F9. -/
theorem test_fadd_F9 : seen (afterWord (withRegs [(1, 0x7FFFEFFFFFFFFFFFFFFFFFFFFFFFFFFFFFFFFFFFFFFFFFFFFFFFFFFFFFFFFFFF), (2, 0x3FF1300000000000000000000000000000000000000000000000000000000000)]) 0x81312000) [3] =
    some ([0x7FFFEFFFFFFFFFFFFFFFFFFFFFFFFFFFFFFFFFFFFFFFFFFFFFFFFFFFFFFFFFFF], 0x0, 1, 0) := by decide +kernel

/-- F6. -/
theorem test_fsub_F6 : seen (afterWord (withRegs [(1, 0x4000000000000000000000000000000000000000000000000000000000000000), (2, 0x3FF1200000000000000000000000000000000000000000000000000000000000)]) 0x85312000) [3] =
    some ([0x4000000000000000000000000000000000000000000000000000000000000000], 0x0, 1, 0) := by decide +kernel

/-- F14. -/
theorem test_fsub_F14 : seen (afterWord (withRegs [(1, 2 ^ 236), (2, 1)]) 0x85312000) [3] =
    some ([2 ^ 236 - 1], 0x0, 1, 0) := by decide +kernel

/-- F16. -/
theorem test_fmul_F16 : seen (afterWord (withRegs [(1, 1), (2, 0x3FFFF80000000000000000000000000000000000000000000000000000000000)]) 0x89312000) [3] =
    some ([2], 0x0, 1, 0) := by decide +kernel

/-- F17. -/
theorem test_fmul_F17 : seen (afterWord (withRegs [(1, 2 ^ 255 + 1), (2, 0x3FFFE00000000000000000000000000000000000000000000000000000000000)]) 0x89312000) [3] =
    some ([2 ^ 255], 0x0, 1, 0) := by decide +kernel

/-- F18. -/
theorem test_fdiv_F18 : seen (afterWord (withRegs [(1, 0x3FFFF00000000000000000000000000000000000000000000000000000000000), (2, 0x4000080000000000000000000000000000000000000000000000000000000000)]) 0x8D312000) [3] =
    some ([0x3FFFD55555555555555555555555555555555555555555555555555555555555], 0x0, 1, 0) := by decide +kernel

/-- F33. -/
theorem test_fdiv_F33 : seen (afterWord (withRegs [(1, 0xBFFFF00000000000000000000000000000000000000000000000000000000000), (2, 0)]) 0x8D312000) [3] =
    some ([0xFFFFF00000000000000000000000000000000000000000000000000000000000], 0x0, 1, 0) := by decide +kernel

/-- F50. -/
theorem test_fma_F50 : seen (afterWord (withRegs [(1, 0x3FFFF00000000000000000000000000000000000000000000000000000000001), (2, 0x3FFFF00000000000000000000000000000000000000000000000000000000001), (4, 0xBFFFF00000000000000000000000000000000000000000000000000000000002)]) 0x91312400) [3] =
    some ([0x3FE2700000000000000000000000000000000000000000000000000000000000], 0x0, 1, 0) := by decide +kernel

/-- F41. -/
theorem test_fma_F41 : seen (afterWord (withRegs [(1, 0x7FFFF00000000000000000000000000000000000000000000000000000000000), (2, 0), (4, 0x3FFFF00000000000000000000000000000000000000000000000000000000000)]) 0x91312400) [3] =
    some ([0x7FFFF80000000000000000000000000000000000000000000000000000000000], 0x0, 1, 0) := by decide +kernel

/-- F53. -/
theorem test_fneg_F53 : seen (afterWord (withRegs [(1, 0xFFFFF00000000000000000000000000000000000000000000000000000000005)]) 0x95310000) [3] =
    some ([0x7FFFF00000000000000000000000000000000000000000000000000000000005], 0x0, 1, 0) := by decide +kernel

/-- F54. -/
theorem test_fabs_F54 : seen (afterWord (withRegs [(1, 0xFFFFF00000000000000000000000000000000000000000000000000000000005)]) 0x99310000) [3] =
    some ([0x7FFFF00000000000000000000000000000000000000000000000000000000005], 0x0, 1, 0) := by decide +kernel

/-- F57. -/
theorem test_fcmp_F57 : seen (afterWord (withRegs [(1, 0), (2, 2 ^ 255)]) 0x9D312000) [3] =
    some ([1], 0x0, 1, 0) := by decide +kernel

/-- F58. -/
theorem test_fcmp_F58 : seen (afterWord (withRegs [(1, 0xFFFFF00000000000000000000000000000000000000000000000000000000000), (2, 0x7FFFEFFFFFFFFFFFFFFFFFFFFFFFFFFFFFFFFFFFFFFFFFFFFFFFFFFFFFFFFFFF)]) 0x9D312000) [3] =
    some ([0], 0x0, 1, 0) := by decide +kernel

/-- F69. -/
theorem test_ftcmp_F69 : seen (afterWord (withRegs [(1, 0x7FFFF80000000000000000000000000000000000000000000000000000000000), (2, 0x7FFFF80000000000000000000000000000000000000000000000000000000007)]) 0xA1312000) [3] =
    some ([0], 0x0, 1, 0) := by decide +kernel

/-- F71. -/
theorem test_ftcmp_F71 : seen (afterWord (withRegs [(1, 2 ^ 255), (2, 2 ^ 255 + 1)]) 0xA1312000) [3] =
    some ([2], 0x0, 1, 0) := by decide +kernel

/-- F74. -/
theorem test_fclass_F74 : seen (afterWord (withRegs [(1, 0xFFFFF00000000000000000000000000000000000000000000000000000000005)]) 0xA5310000) [3] =
    some ([0], 0x0, 1, 0) := by decide +kernel

/-- F77. -/
theorem test_fclass_F77 : seen (afterWord (withRegs [(1, 2 ^ 255 + 1)]) 0xA5310000) [3] =
    some ([3], 0x0, 1, 0) := by decide +kernel

/-- F96. -/
theorem test_fpack_F96 : seen (afterWord (withRegs [(1, 2 ^ 256 - 1), (2, 0), (4, 0)]) 0xA9312400) [3] =
    some ([0x400FF00000000000000000000000000000000000000000000000000000000000], 0x0, 1, 0) := by decide +kernel

/-- F106. -/
theorem test_fpack_F106 : seen (afterWord (withRegs [(1, 2 ^ 256 - 1), (2, 0x80000000), (4, 0)]) 0xA9312400) [3] =
    some ([0], 0x0, 1, 0) := by decide +kernel

/-- F86. -/
theorem test_funpack_F86 : seen (afterWord (withRegs [(1, 1)]) 0xAD310056) [3, 5, 6] =
    some ([1, 0xFFFBFF16, 0], 0x0, 1, 0) := by decide +kernel

/-- F89. -/
theorem test_funpack_F89 : seen (afterWord (withRegs [(1, 0xFFFFF00000000000000000000000000000000000000000000000000000000000)]) 0xAD310056) [3, 5, 6] =
    some ([0, 0x3FF14, 1], 0x0, 1, 0) := by decide +kernel

/-! ### Faults, the halted state and the host (95_test_vectors.md E1, E12, P4) -/

theorem test_illegal_word_halts : seen (afterWord (withRegs [(1, 1), (2, 2)]) 0x80312000) [1, 2] =
    some ([1, 2], 0x11, 0, 0x80312000) := by decide +kernel

/-- P4: the fault of the second command, then an issue that is ignored. -/
def afterP4 : Option State :=
  ((afterWord (withRegs [(1, 9), (2, 128), (3, 0), (4, 0)]) 0x14510000).bind (afterWord · 0x40312000)).bind
    (afterWord · 0x04411000)

theorem test_P4_halted : seen afterP4 [1, 2, 3, 4, 5] = some ([9, 128, 0, 0, 10], 0x31, 1, 0x40312000) := by
  decide +kernel

theorem test_P4_fcix_and_output : afterP4.map (fun t => (t.fcix.toNat, t.faultOutput)) = some (1, true) := by
  decide +kernel

/-- A Reset after P4 clears the control state and ends the halt (P4). -/
theorem test_reset_after_P4 :
    (afterP4.map fun t => match step (t.give .reset) with
      | .next u => (u.statusWord.toNat, u.cix.toNat, u.fcmd.toNat, u.fcix.toNat)
      | _ => (1, 1, 1, 1)) = some (0, 0, 0, 0) := by decide +kernel

/-! ### Witnesses: the hypotheses of each statement are met together, clause by clause at boundary values -/

/-- MULW, DIVREM and the two-destination shifts: different destinations. -/
theorem witness_two_destinations : (0 : RegId) ≠ 15 := by decide

/-- FUNPACK: three different destinations; FPACK after FUNPACK uses the same three. -/
theorem witness_three_destinations : (0 : RegId) ≠ 1 ∧ (0 : RegId) ≠ 15 ∧ (1 : RegId) ≠ 15 := by decide

/-- CarryChainsDoubleTheWidth: the program P1's registers. -/
theorem witness_chain : (5 : RegId) ≠ 6 ∧ (5 : RegId) ≠ 2 ∧ (5 : RegId) ≠ 4 := by decide

/-- DIVREM and RDIV: a zero divisor at width 128, although the register is not zero. -/
theorem witness_divisor_zero : (withRegs [(2, 2 ^ 128)]).readInt .w128 2 = 0 := by decide +kernel

/-- DIVREM and RDIV: the smallest divisor that is not zero. -/
theorem witness_divisor_one : (withRegs [(2, 1)]).readInt .w128 2 ≠ 0 := by decide +kernel

/-- The shifts: the largest amount in range, and the smallest out of it. -/
theorem witness_shift_in_range : (withRegs [(2, 127)]).readInt .w128 2 < bits .w128 := by decide +kernel

theorem witness_shift_out_of_range : bits .w128 ≤ (withRegs [(2, 128)]).readInt .w128 2 := by decide +kernel

/-- ShiftAmountBelowWidthLaw, second clause: SHL's destination is not the amount's register. -/
theorem witness_shift_law : (withRegs [(2, 1023)]).readInt .w1024 2 < bits .w1024 ∧ (3 : RegId) ≠ 2 := by
  decide +kernel

/-- PairOfShiftsShiftsTwiceTheWidth, both clauses: lo r1, hi r2, k r3, p r4, c r5, p' r6, d r7. -/
theorem witness_pair_of_shifts : (withRegs [(3, 127)]).readInt .w128 3 < bits .w128 ∧ (4 : RegId) ≠ 5 ∧
    (6 : RegId) ≠ 7 ∧ (6 : RegId) ≠ 4 ∧ (7 : RegId) ≠ 4 ∧ (4 : RegId) ≠ 3 ∧ (5 : RegId) ≠ 3 ∧ (4 : RegId) ≠ 2 ∧
    (5 : RegId) ≠ 2 ∧ (4 : RegId) ≠ 1 ∧ (5 : RegId) ≠ 1 := by decide +kernel

/-- CLZ, CTZ and MSB: a zero source at width 128 in a register that is not zero, and the smallest non-zero one. -/
theorem witness_query_zero : (withRegs [(1, 2 ^ 128)]).readInt .w128 1 = 0 := by decide +kernel

theorem witness_query_nonzero : (withRegs [(1, 1)]).readInt .w128 1 ≠ 0 := by decide +kernel

/-- Floats of every class and both signs: r1 -0, r2 the least subnormal, r3 the negative least normal, r4 MAX, r5 -Inf,
r6 QNaN, r7 +0, r8 +Inf. -/
def floats : State :=
  withRegs [(1, 2 ^ 255), (2, 1), (3, 2 ^ 255 + 2 ^ 236), (4, 2 ^ 255 - 2 ^ 236 - 1), (5, (infOf true).toNat),
    (6, qNaN.toNat), (7, 0), (8, (infOf false).toNat)]

/-- FCLASS, FUNPACK: the first and the last exponent of each class, with and without a fraction. -/
theorem witness_class_fields :
    (expBits (floats.readFloat 1) = 0 ∧ fracBits (floats.readFloat 1) = 0) ∧
    (expBits (floats.readFloat 2) = 0 ∧ fracBits (floats.readFloat 2) ≠ 0) ∧
    expBits (floats.readFloat 3) = 1 ∧ expBits (floats.readFloat 4) = 524286 ∧
    (expBits (floats.readFloat 5) = 524287 ∧ fracBits (floats.readFloat 5) = 0) ∧
    (expBits (floats.readFloat 6) = 524287 ∧ fracBits (floats.readFloat 6) ≠ 0) := by decide +kernel

/-- FCLASS, FUNPACK: both signs, at the least pattern that is negative. -/
theorem witness_class_sign : 2 ^ 255 ≤ (floats.readFloat 1).toNat ∧ 2 ^ 255 ≤ (floats.readFloat 5).toNat ∧
    (floats.readFloat 7).toNat < 2 ^ 255 ∧ (floats.readFloat 6).toNat < 2 ^ 255 := by decide +kernel

/-- FUNPACK's and FPACK's clauses: MAX is finite, an infinity is not. -/
theorem witness_finite_state : isFinite (floats.readFloat 4) = true ∧ isFinite (floats.readFloat 5) = false := by
  decide +kernel

/-- The finite and the non-finite clauses: MAX is finite, an infinity is not. -/
theorem witness_finite : isFinite (packFields false 524286 (BitVec.allOnes 236)) = true ∧
    isFinite (infOf false) = false := by decide +kernel

/-- RoundPack: the least positive magnitude the commands meet. -/
theorem witness_magnitude : 0 < (1 : ℕ) ∧ 0 < (1 : ℕ) := by decide

/-- RoundPackGivesTheNearestFloat: a magnitude below the overflow bound, 1. -/
theorem witness_round_in_range : (1 : ℚ) = ((1 : ℕ) : ℚ) / ((1 : ℕ) : ℚ) * (2 : ℚ) ^ (0 : ℤ) ∧
    (1 : ℚ) < ((2 : ℚ) ^ (237 : ℤ) - 1 / 2) * (2 : ℚ) ^ (261907 : ℤ) := by
  have h : (1 : ℚ) ≤ (2 : ℚ) ^ (261907 : ℤ) := one_le_zpow₀ (by norm_num) (by norm_num)
  refine ⟨by norm_num, ?_⟩
  calc (1 : ℚ) < ((2 : ℚ) ^ (237 : ℤ) - 1 / 2) * 1 := by norm_num
    _ ≤ ((2 : ℚ) ^ (237 : ℤ) - 1 / 2) * (2 : ℚ) ^ (261907 : ℤ) := mul_le_mul_of_nonneg_left h (by norm_num)

/-- RoundPackGivesTheNearestFloat: the bound itself, (2^238 - 1) * 2^261906, is in the overflow clause. -/
theorem witness_round_overflow : ((2 : ℚ) ^ (237 : ℤ) - 1 / 2) * (2 : ℚ) ^ (261907 : ℤ) ≤
    ((2 ^ 238 - 1 : ℕ) : ℚ) / ((1 : ℕ) : ℚ) * (2 : ℚ) ^ (261906 : ℤ) := by
  rw [show (261907 : ℤ) = 261906 + 1 from rfl, zpow_add₀ (by norm_num : (2 : ℚ) ≠ 0), zpow_one]
  have h : (0 : ℚ) ≤ (2 : ℚ) ^ (261906 : ℤ) := by positivity
  generalize (2 : ℚ) ^ (261906 : ℤ) = p at h
  norm_num
  nlinarith [h]

/-- ExactResultIsReturnedUnchanged and the identities: the least subnormal is finite and no zero; it is no NaN. -/
theorem witness_finite_nonzero : isFinite (packFields false 0 1) = true ∧ isZero (packFields false 0 1) = false ∧
    isNaN (packFields false 0 1) = false := by decide +kernel

/-- FCMP and NaN propagation: a NaN source, and sources that are none. -/
theorem witness_nan_source : isNaN (floats.readFloat 6) = true ∧ isNaN (floats.readFloat 5) = false ∧
    isNaN (floats.readFloat 8) = false := by decide +kernel

/-- FCMP on sources that are no NaN: -Inf below +Inf, and +Inf equal to itself. -/
theorem witness_fcmp_orders : extVal (floats.readFloat 5) < extVal (floats.readFloat 8) ∧
    extVal (floats.readFloat 8) = extVal (floats.readFloat 8) := by
  have h5 : extVal (floats.readFloat 5) = ⊥ := by
    rw [extVal, if_pos (by decide +kernel), if_pos (by decide +kernel)]
  have h8 : extVal (floats.readFloat 8) = ⊤ := by
    rw [extVal, if_pos (by decide +kernel), if_neg (by decide +kernel)]
  exact ⟨by rw [h5, h8]; exact bot_lt_top, rfl⟩

/-- FTCMP: -0 before +0 before QNaN, and a key equal to itself. -/
theorem witness_ftcmp_keys : keyOf (floats.readFloat 1) < keyOf (floats.readFloat 7) ∧
    keyOf (floats.readFloat 7) < keyOf (floats.readFloat 6) ∧ keyOf (floats.readFloat 6) = keyOf (floats.readFloat 6) := by
  decide +kernel

/-- ExactZeroSumSign: finite zeros of negative sign have sum zero; so has an exact product and addend. -/
theorem witness_zero_sum : isFinite (zeroOf true) = true ∧ valRat (zeroOf true) + valRat (zeroOf true) = 0 ∧
    valRat (zeroOf true) * valRat (zeroOf true) + valRat (zeroOf true) = 0 := by
  have h : valRat (zeroOf true) = 0 := by
    have hs : sig (zeroOf true) = 0 := by decide +kernel
    simp only [valRat, hs, Nat.cast_zero, mul_zero, zero_mul]
  refine ⟨by decide +kernel, ?_, ?_⟩ <;> rw [h] <;> norm_num

/-- FmaWithZeroAddendIsTheProduct: a finite zero factor for the second clause, an infinity for the third. -/
theorem witness_fma_zero : isFinite (zeroOf true) = true ∧ isZero (zeroOf true) = true ∧
    isFinite (infOf true) = false := by decide +kernel

/-- The step statements: a block that is not halted with an issued legal word; the same with an illegal word. -/
theorem witness_step_legal : (State.reset.give (.issue 0x05312000)).pending = [.issue 0x05312000] ∧
    (State.reset.give (.issue 0x05312000)).fault = false ∧ decode 0x05312000 = .ok (.add .w256 3 1 2) := by
  refine ⟨rfl, rfl, by decide⟩

theorem witness_step_illegal : (State.reset.give (.issue 0x00000000)).pending = [.issue 0x00000000] ∧
    (State.reset.give (.issue 0x00000000)).fault = false ∧ IllegalWord 0x00000000 := by
  refine ⟨rfl, rfl, ?_⟩
  have h : formatOf (field 0x00000000 26 6) = none := by decide
  simp only [IllegalWord, h]

/-- A halted block with a host action to come. -/
theorem witness_halted : ((State.reset.enterFault .illegal 0).give (.issue 0x05312000)).fault = true ∧
    ((State.reset.enterFault .illegal 0).give (.issue 0x05312000)).pending = [.issue 0x05312000] := ⟨rfl, rfl⟩

/-- One host action of each kind to come, at the last register and the largest value. -/
theorem witness_host_actions : (State.reset.give (.writeReg 15 (BitVec.allOnes 1024))).pending =
      [.writeReg 15 (BitVec.allOnes 1024)] ∧
    (State.reset.give (.readReg 15)).pending = [.readReg 15] ∧
    (State.reset.give (.readStatus .status)).pending = [.readStatus .status] ∧
    (State.reset.give .reset).pending = [.reset] := ⟨rfl, rfl, rfl, rfl⟩

/-- InDomainRunsIgnoreResetValues: write r1, increment it into r5, read r5 back. -/
theorem witness_in_domain : State.reset.answer = (withRegs [(1, 7)]).answer ∧
    inDomain [] State.reset.hostReset [.writeReg 1 9, .issue 0x14510000, .readReg 5] = true := by
  refine ⟨rfl, ?_⟩
  decide +kernel

/-- A sequence that reads a register nothing has written is outside the domain. -/
theorem test_not_in_domain : inDomain [] State.reset.hostReset [.writeReg 1 9, .readReg 5] = false := by decide +kernel

/-- MachineRunPerformsTheHostActions, second clause: a halted block and actions without a Reset. -/
theorem witness_halted_run : (State.reset.enterFault .illegal 0).fault = true ∧
    HostAction.reset ∉ [HostAction.issue 0x05312000, .readReg 0] := by decide +kernel

/-- IdleBlockKeepsAllState: nothing to come. -/
theorem witness_idle : State.reset.pending = [] := rfl

/-- DecodeOfEncodeIsTheCommand: a well-formed command with three destinations. -/
theorem witness_well_formed : (Instr.funpack 0 1 15 15).wf = true := by decide

/-- StepKeepsInvariant: a running and a halted state that meet the invariant, each with a step. -/
theorem witness_invariant_running : State.reset.Inv ∧ step State.reset = .next State.reset :=
  ⟨⟨fun _ => ⟨rfl, rfl, rfl⟩, fun h => Bool.noConfusion h⟩, rfl⟩

theorem witness_invariant_halted : (State.reset.enterFault .illegal 0).Inv ∧
    step (State.reset.enterFault .illegal 0) = .next (State.reset.enterFault .illegal 0) :=
  ⟨⟨fun h => Bool.noConfusion h, fun _ => ⟨rfl, by decide⟩⟩, rfl⟩

/-- OnlyCarryCommandsWriteCarry: a command answers a next state; INC writes no carry. -/
theorem witness_exec_next : ∃ t, exec (.inc .w128 3 1) State.reset = .next t ∧ writesCarry (.inc .w128 3 1) = false :=
  ⟨_, rfl, rfl⟩

/-- FaultsExactlyOnPreconditions: operands that raise each cause, and operands that raise none. -/
theorem witness_operand_fault :
    operandFault (.divrem .w128 4 5 1 2) (withRegs [(1, 100), (2, 0)]) = some .divZero ∧
    operandFault (.shl .w128 3 1 2) (withRegs [(2, 128)]) = some .shiftRange ∧
    operandFault (.shl .w128 3 1 2) (withRegs [(2, 127)]) = none ∧
    operandFault (.msb .w128 3 1) (withRegs [(1, 2 ^ 128)]) = some .msbZero := by decide +kernel

/-- ResultDependsOnlyOnSourcesAndCarry: two states that differ elsewhere. -/
theorem witness_same_sources : (withRegs [(1, 7), (9, 1)]).fault = false ∧ (withRegs [(1, 7), (9, 2)]).fault = false ∧
    (withRegs [(1, 7), (9, 1)]).cause = (withRegs [(1, 7), (9, 2)]).cause ∧
    (withRegs [(1, 7), (9, 1)]).cf = (withRegs [(1, 7), (9, 2)]).cf ∧
    ∀ r ∈ (Instr.inc .w128 3 1).sources, (withRegs [(1, 7), (9, 1)]).reg r = (withRegs [(1, 7), (9, 2)]).reg r := by
  decide +kernel

/-- The piece widths at the ends of R33's list. -/
theorem witness_pieces : (ofPieces 128 (pieces 128 0x123456789) = 0x123456789) ∧
    (pieces 8 0x123456789)[1]? = some 0x67 := by decide +kernel

end Sys2Proof.Tests
end

section
/-! The normal form of a command. Every command either takes the fault `operandFault` names, or writes its
destinations, then CF, and advances CIX (30_encoding.md R52). `exec_of_fault` and `exec_of_noFault` say so once for all
37 commands; the frames and the noninterference statements go through them. -/

namespace Sys2Proof.Machine

open Sys2Proof.Reference

/-! ### Writing several registers in order -/

/-- The state after these register writes, the first one first. -/
def State.writeAll (s : State) : List (RegId × Data) → State
  | [] => s
  | p :: ps => (s.setReg p.1 p.2).writeAll ps

@[simp] theorem State.writeAll_nil (s : State) : s.writeAll [] = s := rfl

@[simp] theorem State.writeAll_cons (s : State) (p : RegId × Data) (ps : List (RegId × Data)) :
    s.writeAll (p :: ps) = (s.setReg p.1 p.2).writeAll ps := rfl

/-- Register writes touch nothing but the register file. -/
theorem State.writeAll_eq_with_regs (s : State) (ps : List (RegId × Data)) :
    s.writeAll ps = { s with regs := (s.writeAll ps).regs } := by
  induction ps generalizing s with
  | nil => rfl
  | cons p ps ih => exact ih (s.setReg p.1 p.2)

theorem State.writeAll_cix (s : State) (ps : List (RegId × Data)) : (s.writeAll ps).cix = s.cix := by
  rw [writeAll_eq_with_regs]

theorem State.sameStatus_writeAll (s : State) (ps : List (RegId × Data)) : SameStatus s (s.writeAll ps) := by
  rw [writeAll_eq_with_regs]
  exact ⟨rfl, rfl, rfl, rfl, rfl, rfl, rfl⟩

theorem State.writeAll_reg_of_notMem (s : State) {ps : List (RegId × Data)} {r : RegId}
    (h : r ∉ ps.map Prod.fst) : (s.writeAll ps).reg r = s.reg r := by
  induction ps generalizing s with
  | nil => rfl
  | cons p ps ih =>
    obtain ⟨hne, hps⟩ : r ≠ p.1 ∧ r ∉ ps.map Prod.fst := by simpa only [List.map_cons, List.mem_cons, not_or] using h
    rw [writeAll_cons, ih _ hps, setReg_reg, if_neg hne]

/-- The same writes leave two states equal in every register that they write or that was equal before. -/
theorem State.writeAll_reg_congr {s s' : State} {ps : List (RegId × Data)} {r : RegId}
    (h : r ∈ ps.map Prod.fst ∨ s.reg r = s'.reg r) : (s.writeAll ps).reg r = (s'.writeAll ps).reg r := by
  induction ps generalizing s s' with
  | nil => exact h.resolve_left List.not_mem_nil
  | cons p ps ih =>
    refine ih ?_
    rw [setReg_reg, setReg_reg]
    by_cases hr : r = p.1
    · exact .inr (by rw [if_pos hr, if_pos hr])
    · rw [if_neg hr, if_neg hr]
      exact h.imp_left fun hmem => (List.mem_cons.1 hmem).resolve_left hr

/-! ### What a completing command writes -/

/-- An integer result for a register, zero-extended (R15). -/
def intWrite (rd : RegId) (v : Nat) : RegId × Data := (rd, BitVec.ofNat 1024 v)

/-- A float result for a register, zero-extended (R15). -/
def floatWrite (rd : RegId) (x : Packed) : RegId × Data := (rd, x.setWidth 1024)

/-- The register writes of a command that completes, rd first. -/
def writesOf (i : Instr) (s : State) : List (RegId × Data) :=
  match i with
  | .add w rd a b => [intWrite rd (wrapNat w (s.readInt w a + s.readInt w b))]
  | .adc w rd a b => [intWrite rd (wrapNat w (s.readInt w a + s.readInt w b + s.carryIn))]
  | .sub w rd a b => [intWrite rd (wrapInt w ((s.readInt w a : Int) - s.readInt w b))]
  | .sbb w rd a b => [intWrite rd (wrapInt w ((s.readInt w a : Int) - s.readInt w b - s.carryIn))]
  | .inc w rd a => [intWrite rd (wrapNat w (s.readInt w a + 1))]
  | .dec w rd a => [intWrite rd (wrapInt w ((s.readInt w a : Int) - 1))]
  | .cmp w rd a b => [intWrite rd (orderCode (compare (s.readInt w a) (s.readInt w b)))]
  | .mulw w rd rd2 a b =>
    [intWrite rd (s.readInt w a * s.readInt w b % 2 ^ bits w), intWrite rd2 (s.readInt w a * s.readInt w b / 2 ^ bits w)]
  | .mullo w rd a b => [intWrite rd (s.readInt w a * s.readInt w b % 2 ^ bits w)]
  | .mulhi w rd a b => [intWrite rd (s.readInt w a * s.readInt w b / 2 ^ bits w)]
  | .divrem w rd rd2 a b =>
    [intWrite rd (s.readInt w a / s.readInt w b), intWrite rd2 (s.readInt w a % s.readInt w b)]
  | .rdiv w rd a b => [intWrite rd (rne (s.readInt w a) (s.readInt w b))]
  | .rdivp2 w rd a b => [intWrite rd (rnePow 2 (s.readInt w a) (s.readInt w b))]
  | .rdivp10 w rd a b => [intWrite rd (rnePow 10 (s.readInt w a) (s.readInt w b))]
  | .shl w rd a k => [intWrite rd (lowHalf w (shiftedLeft (s.readInt w a) (s.readInt w k)))]
  | .shr w rd a k => [intWrite rd (s.readInt w a / 2 ^ s.readInt w k)]
  | .wshl w rd rd2 a k =>
    [intWrite rd (lowHalf w (shiftedLeft (s.readInt w a) (s.readInt w k))),
      intWrite rd2 (highHalf w (shiftedLeft (s.readInt w a) (s.readInt w k)))]
  | .wshr w rd rd2 a k =>
    [intWrite rd (highHalf w (shiftedRight w (s.readInt w a) (s.readInt w k))),
      intWrite rd2 (lowHalf w (shiftedRight w (s.readInt w a) (s.readInt w k)))]
  | .cshl w rd rd2 a k c =>
    [intWrite rd (lowHalf w (shiftedLeft (s.readInt w a) (s.readInt w k)) ||| s.readInt w c),
      intWrite rd2 (highHalf w (shiftedLeft (s.readInt w a) (s.readInt w k)))]
  | .cshr w rd rd2 a k c =>
    [intWrite rd (highHalf w (shiftedRight w (s.readInt w a) (s.readInt w k)) ||| s.readInt w c),
      intWrite rd2 (lowHalf w (shiftedRight w (s.readInt w a) (s.readInt w k)))]
  | .clz w rd a => [intWrite rd (bits w - bitlen (s.readInt w a))]
  | .ctz w rd a => [intWrite rd (trailingZeros (bits w) (s.readInt w a))]
  | .msb w rd a => [intWrite rd (bitlen (s.readInt w a) - 1)]
  | .iseven w rd a => [intWrite rd (if s.readInt w a % 2 = 0 then 1 else 0)]
  | .isodd w rd a => [intWrite rd (if s.readInt w a % 2 = 1 then 1 else 0)]
  | .fadd rd a b => [floatWrite rd (addFloat (s.readFloat a) (s.readFloat b))]
  | .fsub rd a b => [floatWrite rd (subFloat (s.readFloat a) (s.readFloat b))]
  | .fmul rd a b => [floatWrite rd (mulFloat (s.readFloat a) (s.readFloat b))]
  | .fdiv rd a b => [floatWrite rd (divFloat (s.readFloat a) (s.readFloat b))]
  | .fma rd a b c => [floatWrite rd (fmaFloat (s.readFloat a) (s.readFloat b) (s.readFloat c))]
  | .fneg rd a => [floatWrite rd (negFloat (s.readFloat a))]
  | .fabs rd a => [floatWrite rd (absFloat (s.readFloat a))]
  | .fcmp rd a b => [intWrite rd (partialCode (s.readFloat a) (s.readFloat b))]
  | .ftcmp rd a b => [intWrite rd (totalCode (s.readFloat a) (s.readFloat b))]
  | .fclass rd a => [intWrite rd (classCode (s.readFloat a))]
  | .fpack rd a b c => [floatWrite rd (packTriple (s.readSignificand a) (s.readExponent b) (s.readSign c))]
  | .funpack rd rd2 rd3 a =>
    [intWrite rd (sig (s.readFloat a)), (rd2, (BitVec.ofInt 32 (lastExp (s.readFloat a))).setWidth 1024),
      intWrite rd3 (sgn (s.readFloat a)).toNat]

/-- CF after a command that completes: only the four carry commands give it a new value (R18). -/
def carryAfter (i : Instr) (s : State) : Bool :=
  match i with
  | .add w _ a b => carryOut w (s.readInt w a + s.readInt w b)
  | .adc w _ a b => carryOut w (s.readInt w a + s.readInt w b + s.carryIn)
  | .sub w _ a b => borrowOut ((s.readInt w a : Int) - s.readInt w b)
  | .sbb w _ a b => borrowOut ((s.readInt w a : Int) - s.readInt w b - s.carryIn)
  | _ => s.cf

/-- The state in which a command that completes leaves the block (R52). -/
def State.finish (s : State) (i : Instr) : State := ((s.writeAll (writesOf i s)).setCf (carryAfter i s)).advance

theorem writesOf_dests (i : Instr) (s : State) : (writesOf i s).map Prod.fst = i.dests := by
  cases i <;> rfl

theorem carryAfter_of_not_writesCarry {i : Instr} (s : State) (h : writesCarry i = false) : carryAfter i s = s.cf := by
  cases i with
  | add | adc | sub | sbb => exact Bool.noConfusion h
  | _ => rfl

/-! ### The two outcomes of a command -/

/-- A command whose operands raise a cause takes that fault with its own word (R113, R115). -/
theorem exec_of_fault {i : Instr} {s : State} {c : Cause} (h : operandFault i s = some c) :
    exec i s = .next (s.enterFault c (encode i)) := by
  cases i with
  | divrem | rdiv | shl | shr | wshl | wshr | cshl | cshr | msb =>
    obtain ⟨hraise, ⟨⟩⟩ := Option.ite_none_right_eq_some.1 h
    exact if_pos hraise
  | _ => exact nomatch h

/-- A command whose operands raise no cause completes (R52). -/
theorem exec_of_noFault {i : Instr} {s : State} (h : operandFault i s = none) : exec i s = .next (s.finish i) := by
  cases i with
  | divrem | rdiv | shl | shr | wshl | wshr | cshl | cshr | msb =>
    exact if_neg fun hraise => Option.some_ne_none _ (Eq.trans (if_pos hraise).symm h)
  | _ => rfl

/-- Everything a command can do. -/
theorem exec_cases {i : Instr} {s t : State} (h : exec i s = .next t) :
    (operandFault i s = none ∧ t = s.finish i) ∨
    ∃ c, operandFault i s = some c ∧ t = s.enterFault c (encode i) := by
  cases hf : operandFault i s with
  | none => exact .inl ⟨rfl, Host.Outcome.next.inj (h.symm.trans (exec_of_noFault hf))⟩
  | some c => exact .inr ⟨c, rfl, Host.Outcome.next.inj (h.symm.trans (exec_of_fault hf))⟩

/-! ### The frames -/

theorem completed_finish (s : State) (i : Instr) : Completed s (s.finish i) i.dests (carryAfter i s) where
  cix := congrArg (· + 1) (s.writeAll_cix _)
  carry := rfl
  others r hr := s.writeAll_reg_of_notMem (by rwa [writesOf_dests])
  status :=
    have h := s.sameStatus_writeAll (writesOf i s)
    ⟨h.fault, h.cause, h.fcmd, h.fcix, h.pending, h.answer, h.draws⟩

theorem faulted_enterFault (s : State) (c : Cause) (w : Cmd) : Faulted s (s.enterFault c w) c w :=
  ⟨rfl, rfl, rfl, rfl, rfl, rfl, fun _ => rfl, rfl, rfl, rfl⟩

/-- A cause that the operands raise is one that the command can raise (R113). -/
theorem causeFits_of_operandFault {i : Instr} {s : State} {c : Cause} (h : operandFault i s = some c) :
    causeFits c (.ok i) = true := by
  cases i with
  | divrem | rdiv | shl | shr | wshl | wshr | cshl | cshr | msb =>
    obtain ⟨-, ⟨⟩⟩ := Option.ite_none_right_eq_some.1 h
    rfl
  | _ => exact nomatch h

/-- Cause 0 fits no command (R113). -/
theorem ne_none_of_causeFits {c : Cause} {r : Except DecodeReject Instr} (h : causeFits c r = true) : c ≠ .none := by
  rintro rfl
  exact Bool.noConfusion h

/-- Settles O53, from the two outcomes of a command and their frames. -/
theorem onlyCarryCommandsWriteCarry : Obligations.OnlyCarryCommandsWriteCarry := by
  unfold Obligations.OnlyCarryCommandsWriteCarry
  intro i s t h
  obtain ⟨-, rfl⟩ | ⟨c, hc, rfl⟩ := exec_cases h
  · exact .inl ⟨completed_finish s i, carryAfter_of_not_writesCarry s⟩
  · exact .inr ⟨c, ne_none_of_causeFits (causeFits_of_operandFault hc), faulted_enterFault s c _⟩

end Sys2Proof.Machine
end

section
/-! Decoding loses nothing: a word that decodes is the encoding of its command (30_encoding.md R41, R51). One lemma per
format (R44), then the opcode map (R47). -/

namespace Sys2Proof

theorem requireZero_eq_ok {l : List RegId} {r : Except DecodeReject Instr} {i : Instr}
    (h : requireZero l r = .ok i) : (∀ x ∈ l, x = 0) ∧ r = .ok i := by
  unfold requireZero at h
  split at h
  · next hz => exact ⟨by simpa only [List.all_eq_true, beq_iff_eq] using hz, h⟩
  · exact nomatch h

theorem requireDistinct_eq_ok {l : List RegId} {r : Except DecodeReject Instr} {i : Instr}
    (h : requireDistinct l r = .ok i) : l.Nodup ∧ r = .ok i := by
  unfold requireDistinct at h
  split at h
  · next hd => exact ⟨hd, h⟩
  · exact nomatch h

theorem floatOnly_eq_ok {f : Fields} {r : Except DecodeReject Instr} {i : Instr}
    (h : floatOnly f r = .ok i) : f.w = 1 ∧ r = .ok i := by
  unfold floatOnly at h
  split at h
  · next hw => exact ⟨hw, h⟩
  · exact nomatch h

/-! ### The formats: when the commands of a row have the row's fields, the command decoded from `f` has the fields `f` -/

section Formats

variable {f : Fields} {i : Instr} {n : Nat}

/-- The row's opcode, read as a number, is the opcode field. -/
theorem op_eq_ofNat (hop : f.op.toNat = n) : f.op = BitVec.ofNat 6 n := by
  rw [← hop, BitVec.ofNat_toNat, BitVec.setWidth_eq]

theorem fields_of_fmt1D1S {k : RegId → RegId → Instr} (hop : f.op.toNat = n)
    (hk : ∀ a b, (k a b).fields = enc1D1S (BitVec.ofNat 6 n) f.w a b) (h : fmt1D1S f k = .ok i) : i.fields = f := by
  obtain ⟨hz, ⟨⟩⟩ := requireZero_eq_ok h
  rw [hk, ← op_eq_ofNat hop]
  cases f
  simp_all [enc1D1S]

theorem fields_of_fmt1D2S {k : RegId → RegId → RegId → Instr} (hop : f.op.toNat = n)
    (hk : ∀ a b c, (k a b c).fields = enc1D2S (BitVec.ofNat 6 n) f.w a b c) (h : fmt1D2S f k = .ok i) :
    i.fields = f := by
  obtain ⟨hz, ⟨⟩⟩ := requireZero_eq_ok h
  rw [hk, ← op_eq_ofNat hop]
  cases f
  simp_all [enc1D2S]

theorem fields_of_fmt1D3S {k : RegId → RegId → RegId → RegId → Instr} (hop : f.op.toNat = n)
    (hk : ∀ a b c d, (k a b c d).fields = enc1D3S (BitVec.ofNat 6 n) f.w a b c d) (h : fmt1D3S f k = .ok i) :
    i.fields = f := by
  obtain ⟨hz, ⟨⟩⟩ := requireZero_eq_ok h
  rw [hk, ← op_eq_ofNat hop]
  cases f
  simp_all [enc1D3S]

theorem fields_of_fmt2D2S {k : RegId → RegId → RegId → RegId → Instr} (hop : f.op.toNat = n)
    (hk : ∀ a b c d, (k a b c d).fields = enc2D2S (BitVec.ofNat 6 n) f.w a b c d) (h : fmt2D2S f k = .ok i) :
    i.fields = f := by
  obtain ⟨hz, hd⟩ := requireZero_eq_ok h
  obtain ⟨-, ⟨⟩⟩ := requireDistinct_eq_ok hd
  rw [hk, ← op_eq_ofNat hop]
  cases f
  simp_all [enc2D2S]

theorem fields_of_fmt2D3S {k : RegId → RegId → RegId → RegId → RegId → Instr} (hop : f.op.toNat = n)
    (hk : ∀ a b c d e, (k a b c d e).fields = enc2D3S (BitVec.ofNat 6 n) f.w a b c d e) (h : fmt2D3S f k = .ok i) :
    i.fields = f := by
  obtain ⟨hz, hd⟩ := requireZero_eq_ok h
  obtain ⟨-, ⟨⟩⟩ := requireDistinct_eq_ok hd
  rw [hk, ← op_eq_ofNat hop]
  cases f
  simp_all [enc2D3S]

theorem fields_of_fmt3D1S {k : RegId → RegId → RegId → RegId → Instr} (hop : f.op.toNat = n)
    (hk : ∀ a b c d, (k a b c d).fields = enc3D1S (BitVec.ofNat 6 n) f.w a b c d) (h : fmt3D1S f k = .ok i) :
    i.fields = f := by
  obtain ⟨hz, hd⟩ := requireZero_eq_ok h
  obtain ⟨-, ⟨⟩⟩ := requireDistinct_eq_ok hd
  rw [hk, ← op_eq_ofNat hop]
  cases f
  simp_all [enc3D1S]

theorem fields_of_floatOnly {r : Except DecodeReject Instr} (hr : f.w = 1 → r = .ok i → i.fields = f)
    (h : floatOnly f r = .ok i) : i.fields = f :=
  (floatOnly_eq_ok h).elim hr

end Formats

/-- The command decoded from some fields has these fields (R41, R44, R47). -/
theorem fields_of_decodeFields {f : Fields} {i : Instr} (h : decodeFields f = .ok i) : i.fields = f := by
  unfold decodeFields at h
  split at h
  iterate 4 next hop => exact fields_of_fmt1D2S hop (by simp [Instr.fields, codeOf_widthOf]) h
  iterate 2 next hop => exact fields_of_fmt1D1S hop (by simp [Instr.fields, codeOf_widthOf]) h
  next hop => exact fields_of_fmt1D2S hop (by simp [Instr.fields, codeOf_widthOf]) h
  next hop => exact fields_of_fmt2D2S hop (by simp [Instr.fields, codeOf_widthOf]) h
  iterate 2 next hop => exact fields_of_fmt1D2S hop (by simp [Instr.fields, codeOf_widthOf]) h
  next hop => exact fields_of_fmt2D2S hop (by simp [Instr.fields, codeOf_widthOf]) h
  iterate 5 next hop => exact fields_of_fmt1D2S hop (by simp [Instr.fields, codeOf_widthOf]) h
  iterate 2 next hop => exact fields_of_fmt2D2S hop (by simp [Instr.fields, codeOf_widthOf]) h
  iterate 2 next hop => exact fields_of_fmt2D3S hop (by simp [Instr.fields, codeOf_widthOf]) h
  iterate 5 next hop => exact fields_of_fmt1D1S hop (by simp [Instr.fields, codeOf_widthOf]) h
  iterate 4 next hop => exact fields_of_floatOnly (fun hw => fields_of_fmt1D2S hop (by simp [Instr.fields, hw])) h
  next hop => exact fields_of_floatOnly (fun hw => fields_of_fmt1D3S hop (by simp [Instr.fields, hw])) h
  iterate 2 next hop => exact fields_of_floatOnly (fun hw => fields_of_fmt1D1S hop (by simp [Instr.fields, hw])) h
  iterate 2 next hop => exact fields_of_floatOnly (fun hw => fields_of_fmt1D2S hop (by simp [Instr.fields, hw])) h
  next hop => exact fields_of_floatOnly (fun hw => fields_of_fmt1D1S hop (by simp [Instr.fields, hw])) h
  next hop => exact fields_of_floatOnly (fun hw => fields_of_fmt1D3S hop (by simp [Instr.fields, hw])) h
  next hop => exact fields_of_floatOnly (fun hw => fields_of_fmt3D1S hop (by simp [Instr.fields, hw])) h
  · exact nomatch h

/-- A word that decodes is the encoding of its command (R51). -/
theorem encode_of_decode {c : Cmd} {i : Instr} (h : decode c = .ok i) : encode i = c := by
  rw [encode, fields_of_decodeFields h, joinFields_splitWord]

end Sys2Proof
end

section
/-! The invariant of the status registers is kept by every step (10_state.md R17, R21, R24, R25; 60_exceptions.md R113,
R115, R116). -/

namespace Sys2Proof.Machine

variable {s t : State}

/-- The invariant speaks of FAULT, CAUSE, FCMD, FCIX and CIX only. -/
theorem State.Inv.of_eq (h : s.Inv) (hfault : t.fault = s.fault) (hcause : t.cause = s.cause) (hfcmd : t.fcmd = s.fcmd)
    (hfcix : t.fcix = s.fcix) (hcix : t.cix = s.cix) : t.Inv where
  running hrun := by
    rw [hcause, hfcmd, hfcix]
    exact h.running (hfault.symm.trans hrun)
  halted hhalt := by
    rw [hcause, hfcmd, hfcix, hcix]
    exact h.halted (hfault.symm.trans hhalt)

theorem State.Inv.hostReset (s : State) : s.hostReset.Inv :=
  ⟨fun _ => ⟨rfl, rfl, rfl⟩, fun h => Bool.noConfusion h⟩

theorem State.Inv.enterFault (s : State) {c : Cause} {w : Cmd} (hfits : causeFits c (decode w) = true) :
    (s.enterFault c w).Inv :=
  ⟨fun h => Bool.noConfusion h, fun _ => ⟨rfl, hfits⟩⟩

/-- A completing command advances CIX, which the invariant leaves free while the block is running. -/
theorem State.Inv.finish (h : s.Inv) (hrun : s.fault = false) (i : Instr) : (s.finish i).Inv := by
  have hst := (completed_finish s i).status
  refine ⟨fun _ => ?_, fun hhalt => ?_⟩
  · rw [hst.cause, hst.fcmd, hst.fcix]
    exact h.running hrun
  · rw [hst.fault, hrun] at hhalt
    exact Bool.noConfusion hhalt

theorem issue_keeps_inv {c : Cmd} (hissue : issue c s = .next t) (h : s.Inv) : t.Inv := by
  obtain ⟨-, rfl⟩ | ⟨-, ⟨r, hillegal⟩, rfl⟩ | ⟨hrun, i, hlegal, hexec⟩ := issue_cases hissue
  · exact h
  · exact .enterFault s (by rw [hillegal]; rfl)
  · obtain ⟨-, rfl⟩ | ⟨k, hk, rfl⟩ := exec_cases hexec
    · exact h.finish hrun i
    · exact .enterFault s (by rw [encode_of_decode hlegal, hlegal]; exact causeFits_of_operandFault hk)

theorem hostAct_keeps_inv {a : HostAction} (hact : hostAct a s = .next t) (h : s.Inv) : t.Inv := by
  obtain ⟨-, rfl⟩ | ⟨i, v, -, rfl⟩ | ⟨i, -, rfl⟩ | ⟨n, -, rfl⟩ | ⟨c, -, hissue⟩ := hostAct_cases hact
  · exact (State.Inv.hostReset s).of_eq rfl rfl rfl rfl rfl
  · exact h.of_eq rfl rfl rfl rfl rfl
  · exact h.of_eq rfl rfl rfl rfl rfl
  · exact h.of_eq rfl rfl rfl rfl rfl
  · exact issue_keeps_inv hissue (h.of_eq rfl rfl rfl rfl rfl)

/-- Settles O52: an idle step changes nothing, and every host action keeps the invariant. -/
theorem stepKeepsInvariant : Obligations.StepKeepsInvariant := by
  unfold Obligations.StepKeepsInvariant
  intro s t h hstep
  obtain ⟨-, rfl⟩ | ⟨a, rest, -, hact⟩ := step_cases hstep
  · exact h
  · exact hostAct_keeps_inv hact (h.of_eq rfl rfl rfl rfl rfl)

end Sys2Proof.Machine
end

section
/-! A command's outcome is a function of its word, its source registers and CF (70_reset_and_hazards.md R133), and a run
that reads written registers only does not see what Reset left in the others (R129). -/

namespace Sys2Proof.Machine

open Sys2Proof.Reference

/-! ### Two states that agree on a command's inputs -/

/-- The two states hold the same in each of these registers. -/
def RegsAgree (l : List RegId) (s s' : State) : Prop := ∀ r ∈ l, s.reg r = s'.reg r

section Agreement

variable {s s' : State} {i : Instr}

theorem regsAgree_cons {a : RegId} {l : List RegId} : RegsAgree (a :: l) s s' ↔ s.reg a = s'.reg a ∧ RegsAgree l s s' :=
  List.forall_mem_cons

theorem operandFault_congr (h : RegsAgree i.sources s s') : operandFault i s = operandFault i s' := by
  cases i with
  | divrem | rdiv | shl | shr | wshl | wshr =>
    obtain ⟨-, hb, -⟩ := by simpa only [Instr.sources, regsAgree_cons] using h
    simp only [operandFault, readInt_congr hb]
  | cshl | cshr =>
    obtain ⟨-, hk, -⟩ := by simpa only [Instr.sources, regsAgree_cons] using h
    simp only [operandFault, readInt_congr hk]
  | msb =>
    obtain ⟨ha, -⟩ := by simpa only [Instr.sources, regsAgree_cons] using h
    simp only [operandFault, readInt_congr ha]
  | _ => rfl

theorem writesOf_congr (h : RegsAgree i.sources s s') (hcf : s.cf = s'.cf) : writesOf i s = writesOf i s' := by
  cases i with
  | inc | dec | clz | ctz | msb | iseven | isodd =>
    obtain ⟨ha, -⟩ := by simpa only [Instr.sources, regsAgree_cons] using h
    simp only [writesOf, readInt_congr ha]
  | add | sub | cmp | mulw | mullo | mulhi | divrem | rdiv | rdivp2 | rdivp10 | shl | shr | wshl | wshr =>
    obtain ⟨ha, hb, -⟩ := by simpa only [Instr.sources, regsAgree_cons] using h
    simp only [writesOf, readInt_congr ha, readInt_congr hb]
  | adc | sbb =>
    obtain ⟨ha, hb, -⟩ := by simpa only [Instr.sources, regsAgree_cons] using h
    simp only [writesOf, readInt_congr ha, readInt_congr hb, State.carryIn, hcf]
  | cshl | cshr =>
    obtain ⟨ha, hk, hc, -⟩ := by simpa only [Instr.sources, regsAgree_cons] using h
    simp only [writesOf, readInt_congr ha, readInt_congr hk, readInt_congr hc]
  | fneg | fabs | fclass | funpack =>
    obtain ⟨ha, -⟩ := by simpa only [Instr.sources, regsAgree_cons] using h
    simp only [writesOf, readFloat_congr ha]
  | fadd | fsub | fmul | fdiv | fcmp | ftcmp =>
    obtain ⟨ha, hb, -⟩ := by simpa only [Instr.sources, regsAgree_cons] using h
    simp only [writesOf, readFloat_congr ha, readFloat_congr hb]
  | fma =>
    obtain ⟨ha, hb, hc, -⟩ := by simpa only [Instr.sources, regsAgree_cons] using h
    simp only [writesOf, readFloat_congr ha, readFloat_congr hb, readFloat_congr hc]
  | fpack =>
    obtain ⟨ha, hb, hc, -⟩ := by simpa only [Instr.sources, regsAgree_cons] using h
    simp only [writesOf, State.readSignificand, readFloat_congr ha, State.readExponent, hb, State.readSign, hc]

theorem carryAfter_congr (h : RegsAgree i.sources s s') (hcf : s.cf = s'.cf) : carryAfter i s = carryAfter i s' := by
  cases i with
  | add | adc | sub | sbb =>
    obtain ⟨ha, hb, -⟩ := by simpa only [Instr.sources, regsAgree_cons] using h
    simp only [carryAfter, readInt_congr ha, readInt_congr hb, State.carryIn, hcf]
  | _ => exact hcf

/-- A completing command leaves equal every destination, and every register that was equal. -/
theorem finish_reg_congr (h : RegsAgree i.sources s s') (hcf : s.cf = s'.cf) {r : RegId}
    (hr : r ∈ i.dests ∨ s.reg r = s'.reg r) : (s.finish i).reg r = (s'.finish i).reg r := by
  simp only [State.finish, State.advance_reg, State.setCf_reg, ← writesOf_congr h hcf]
  exact State.writeAll_reg_congr (by rwa [writesOf_dests])

end Agreement

/-- Settles O55: both states raise the same cause, or none and then every destination is written alike. -/
theorem resultDependsOnlyOnSourcesAndCarry : Obligations.ResultDependsOnlyOnSourcesAndCarry := by
  unfold Obligations.ResultDependsOnlyOnSourcesAndCarry
  intro i s s' hrun hrun' hcause hcf hsrc
  have hfault := operandFault_congr hsrc
  cases hk : operandFault i s with
  | some k =>
    refine ⟨_, _, exec_of_fault hk, exec_of_fault (hfault.symm.trans hk), rfl, rfl, hcf, fun h => Bool.noConfusion h⟩
  | none =>
    have hst := (completed_finish s i).status
    have hst' := (completed_finish s' i).status
    refine ⟨_, _, exec_of_noFault hk, exec_of_noFault (hfault.symm.trans hk), ?_, ?_, carryAfter_congr hsrc hcf,
      fun _ r hr => finish_reg_congr hsrc hcf (.inl hr)⟩
    · rw [hst.fault, hst'.fault, hrun, hrun']
    · rw [hst.cause, hst'.cause, hcause]

end Sys2Proof.Machine
end

section
/-! Runs that read only registers written since the last reset (70_reset_and_hazards.md R129): two such runs of the same
host actions stay in agreement on everything but the registers nothing has written. -/

namespace Sys2Proof.Machine

open Sys2Proof.Reference

/-- The two blocks differ at most in the registers outside `written` and in the model's own queue and draw counter. -/
structure Agree (written : List RegId) (s s' : State) : Prop where
  regs : RegsAgree written s s'
  cf : s.cf = s'.cf
  cix : s.cix = s'.cix
  fault : s.fault = s'.fault
  cause : s.cause = s'.cause
  fcmd : s.fcmd = s'.fcmd
  fcix : s.fcix = s'.fcix
  answer : s.answer = s'.answer

/-! ### The operations keep the agreement -/

section Operations

variable {written : List RegId} {s s' : State}

theorem Agree.mono {l : List RegId} (h : Agree written s s') (hl : ∀ r ∈ l, r ∈ written) : Agree l s s' :=
  ⟨fun r hr => h.regs r (hl r hr), h.cf, h.cix, h.fault, h.cause, h.fcmd, h.fcix, h.answer⟩

theorem Agree.setAnswer (h : Agree written s s') (x : HostAnswer) :
    Agree written { s with answer := x } { s' with answer := x } :=
  ⟨h.regs, h.cf, h.cix, h.fault, h.cause, h.fcmd, h.fcix, rfl⟩

/-- Reset leaves the registers of the two blocks unrelated (R127). -/
theorem agree_hostReset (h : s.answer = s'.answer) : Agree [] s.hostReset s'.hostReset :=
  ⟨fun _ hr => absurd hr List.not_mem_nil, rfl, rfl, rfl, rfl, rfl, rfl, h⟩

theorem Agree.setReg (h : Agree written s s') (i : RegId) (v : Data) :
    Agree (i :: written) (s.setReg i v) (s'.setReg i v) := by
  refine ⟨fun r hr => ?_, h.cf, h.cix, h.fault, h.cause, h.fcmd, h.fcix, h.answer⟩
  rw [State.setReg_reg, State.setReg_reg]
  split
  · rfl
  · next hne => exact h.regs r ((List.mem_cons.1 hr).resolve_left hne)

theorem Agree.enterFault (h : Agree written s s') (c : Cause) (w : Cmd) :
    Agree written (s.enterFault c w) (s'.enterFault c w) :=
  ⟨h.regs, h.cf, h.cix, rfl, rfl, rfl, h.cix, h.answer⟩

theorem Agree.statusReg (h : Agree written s s') (n : StatusName) : s.statusReg n = s'.statusReg n := by
  cases n with
  | status => simp only [State.statusReg, State.statusWord, h.cf, h.cause, h.fault]
  | fcmd => exact h.fcmd
  | fcix => exact h.fcix
  | cix => exact h.cix

/-- A completing command whose sources are written adds its destinations to the written registers. -/
theorem Agree.finish {i : Instr} (h : Agree written s s') (hsrc : ∀ r ∈ i.sources, r ∈ written) :
    Agree (i.dests ++ written) (s.finish i) (s'.finish i) := by
  have hin : RegsAgree i.sources s s' := fun r hr => h.regs r (hsrc r hr)
  obtain ⟨hcix, hcarry, -, hst⟩ := completed_finish s i
  obtain ⟨hcix', hcarry', -, hst'⟩ := completed_finish s' i
  refine ⟨fun r hr => finish_reg_congr hin h.cf ((List.mem_append.1 hr).imp_right (h.regs r)), ?_, ?_, ?_, ?_, ?_, ?_, ?_⟩
  · rw [hcarry, hcarry', carryAfter_congr hin h.cf]
  · rw [hcix, hcix', h.cix]
  · rw [hst.fault, hst'.fault, h.fault]
  · rw [hst.cause, hst'.cause, h.cause]
  · rw [hst.fcmd, hst'.fcmd, h.fcmd]
  · rw [hst.fcix, hst'.fcix, h.fcix]
  · rw [hst.answer, hst'.answer, h.answer]

end Operations

/-! ### The issue of a word -/

section Issue

variable {written : List RegId} {s s' t : State} {c : Cmd} {i : Instr}

theorem issue_of_halted (h : s.fault = true) : issue c s = .next s := if_pos h

theorem issue_of_illegal {r : DecodeReject} (hrun : s.fault = false) (hd : decode c = .error r) :
    issue c s = .next (s.enterFault .illegal c) := by
  simp only [issue, hrun, hd, Bool.false_eq_true, if_false]

theorem issue_of_legal (hrun : s.fault = false) (hd : decode c = .ok i) : issue c s = exec i s := by
  simp only [issue, hrun, hd, Bool.false_eq_true, if_false]

theorem afterAction_issue (h : issue c { s with answer := .none } = .next t) : afterAction s (.issue c) = t := by
  simp only [afterAction, hostAct, h]

theorem writtenAfter_issue_of_illegal {r : DecodeReject} (hd : decode c = .error r) :
    writtenAfter written (.issue c) s = written := by
  simp only [writtenAfter, hd]

theorem writtenAfter_issue_of_legal (hd : decode c = .ok i) :
    writtenAfter written (.issue c) s = if (afterAction s (.issue c)).fault then written else i.dests ++ written := by
  simp only [writtenAfter, hd]

theorem sources_written_of_readsOnly (hrun : s.fault = false) (hd : decode c = .ok i)
    (h : readsOnly written (.issue c) s = true) : ∀ r ∈ i.sources, r ∈ written := by
  simpa [readsOnly, hd, hrun] using h

/-- Both blocks ignore the word, both fault, or both complete and then agree on the destinations too (R52). -/
theorem agree_issue (h : Agree written s s')
    (hsrc : s.fault = false → ∀ i, decode c = .ok i → ∀ r ∈ i.sources, r ∈ written) :
    ∃ t t', issue c s = .next t ∧ issue c s' = .next t' ∧ Agree written t t' ∧
      (t.fault = false → ∀ i, decode c = .ok i → Agree (i.dests ++ written) t t') := by
  cases hf : s.fault with
  | true =>
    exact ⟨s, s', issue_of_halted hf, issue_of_halted (h.fault ▸ hf), h, fun hrun => absurd (hf.symm.trans hrun) nofun⟩
  | false =>
    have hf' : s'.fault = false := h.fault ▸ hf
    cases hd : decode c with
    | error r =>
      exact ⟨_, _, issue_of_illegal hf hd, issue_of_illegal hf' hd, h.enterFault _ _, fun hrun => Bool.noConfusion hrun⟩
    | ok i =>
      have hsrc := hsrc hf i hd
      have hfault := operandFault_congr fun r hr => h.regs r (hsrc r hr)
      cases hk : operandFault i s with
      | some k =>
        exact ⟨_, _, (issue_of_legal hf hd).trans (exec_of_fault hk),
          (issue_of_legal hf' hd).trans (exec_of_fault (hfault.symm.trans hk)), h.enterFault _ _,
          fun hrun => Bool.noConfusion hrun⟩
      | none =>
        have hfin := h.finish hsrc
        refine ⟨_, _, (issue_of_legal hf hd).trans (exec_of_noFault hk),
          (issue_of_legal hf' hd).trans (exec_of_noFault (hfault.symm.trans hk)),
          hfin.mono fun r hr => List.mem_append_right _ hr, fun _ j hj => ?_⟩
        cases hj
        exact hfin

theorem agree_afterAction_issue (h : Agree written s s') (hreads : readsOnly written (.issue c) s = true) :
    Agree (writtenAfter written (.issue c) s) (afterAction s (.issue c)) (afterAction s' (.issue c)) := by
  obtain ⟨t, t', ht, ht', hsame, hadded⟩ := agree_issue (c := c) (h.setAnswer .none)
    fun hrun i hd => sources_written_of_readsOnly hrun hd hreads
  have hnext := afterAction_issue ht
  rw [hnext, afterAction_issue ht']
  cases hd : decode c with
  | error r =>
    rw [writtenAfter_issue_of_illegal hd]
    exact hsame
  | ok i =>
    rw [writtenAfter_issue_of_legal hd, hnext]
    split
    · exact hsame
    · next hrun => exact hadded (eq_false_of_ne_true hrun) i hd

end Issue

/-! ### Actions and runs -/

section Runs

variable {written : List RegId} {s s' : State}

/-- One action that reads written registers only keeps two blocks in agreement (R129). -/
theorem agree_afterAction {a : HostAction} (h : Agree written s s') (hreads : readsOnly written a s = true) :
    Agree (writtenAfter written a s) (afterAction s a) (afterAction s' a) := by
  cases a with
  | reset => exact (agree_hostReset h.answer).setAnswer .none
  | writeReg i v => exact (h.setReg i v).setAnswer .none
  | readReg i =>
    have hreg := h.regs i (of_decide_eq_true hreads)
    simp only [afterAction, hostAct, writtenAfter, hreg]
    exact h.setAnswer _
  | readStatus n =>
    simp only [afterAction, hostAct, writtenAfter, h.statusReg n]
    exact h.setAnswer _
  | issue c => exact agree_afterAction_issue h hreads

theorem agree_afterActions {acts : List HostAction} (h : Agree written s s') (hdom : inDomain written s acts = true) :
    Agree (writtenAtEnd written s acts) (afterActions s acts) (afterActions s' acts) := by
  induction acts generalizing written s s' with
  | nil => exact h
  | cons a rest ih =>
    obtain ⟨hreads, hrest⟩ := (Bool.and_eq_true _ _).mp hdom
    exact ih (agree_afterAction h hreads) hrest

end Runs

/-- Settles O59: right after Reset two blocks agree on no register, and every action keeps them in agreement. -/
theorem inDomainRunsIgnoreResetValues : Obligations.InDomainRunsIgnoreResetValues := by
  unfold Obligations.InDomainRunsIgnoreResetValues
  intro s s' acts hanswer hdom
  have h := agree_afterActions (agree_hostReset hanswer) hdom
  exact ⟨h.cf, h.cix, h.fault, h.cause, h.fcmd, h.fcix, h.answer, h.regs⟩

end Sys2Proof.Machine
end

section
/-! The STATUS word bit by bit (10_state.md R19, R22, R23) and the operand reads as numbers (R15; 30_encoding.md R46;
43_float_format.md R99). -/

namespace Sys2Proof.Machine

/-! ### STATUS -/

/-- Every bit of STATUS, by its position (R19, R22, R23). -/
theorem statusWord_getLsbD (s : State) (n : Nat) :
    s.statusWord.getLsbD n =
      if n = 0 then s.fault
      else if n < 4 then false
      else if n < 8 then (causeCode s.cause).getLsbD (n - 4)
      else if n = 8 then s.cf
      else false := by
  have hn : n = 0 ∨ (1 ≤ n ∧ n < 4) ∨ (4 ≤ n ∧ n < 8) ∨ n = 8 ∨ 9 ≤ n := by omega
  simp only [State.statusWord, BitVec.getLsbD_append, BitVec.getLsbD_ofBool, BitVec.ofNat_eq_ofNat, BitVec.getLsbD_zero,
    Nat.sub_sub]
  obtain rfl | ⟨h1, h4⟩ | ⟨h4, h8⟩ | rfl | h9 := hn
  · rfl
  · rw [if_neg (by omega), if_pos (by omega), if_neg (by omega), if_pos h4]
  · rw [if_neg (by omega), if_neg (by omega), if_pos (by omega), if_neg (by omega), if_neg (by omega), if_pos h8]
  · rfl
  · iterate 8 rw [if_neg (by omega)]

theorem causeCode_le (c : Cause) : (causeCode c).toNat ≤ 4 := by cases c <;> decide

/-- Settles O50, from the bits of STATUS. -/
theorem statusWordLayout : Obligations.StatusWordLayout := by
  unfold Obligations.StatusWordLayout
  intro s
  have hfault : s.statusWord.getLsbD 0 = s.fault := statusWord_getLsbD s 0
  have hcause : s.statusWord.extractLsb' 4 4 = causeCode s.cause := by
    apply BitVec.eq_of_getLsbD_eq
    intro n hn
    rw [BitVec.getLsbD_extractLsb', statusWord_getLsbD, decide_eq_true hn, Bool.true_and, if_neg (by omega),
      if_neg (by omega), if_pos (by omega), Nat.add_sub_cancel_left]
  refine ⟨hfault, hcause, rfl, rfl, rfl, rfl, rfl, causeCode_le _, statusWord_getLsbD s 8, hfault.symm, ?_⟩
  rintro n (⟨hn1, hn3⟩ | hn)
  · rw [statusWord_getLsbD, if_neg (by omega), if_pos (by omega)]
  · rw [statusWord_getLsbD, if_neg (by omega), if_neg (by omega), if_neg (by omega), if_neg (by omega)]

/-! ### Operand reads -/

theorem readInt_eq_extractLsb' (s : State) (w : Width) (i : RegId) :
    s.readInt w i = ((s.reg i).extractLsb' 0 (bits w)).toNat := by
  rw [BitVec.extractLsb'_toNat, Nat.shiftRight_zero, State.readInt]

theorem readFloat_toNat (s : State) (i : RegId) : (s.readFloat i).toNat = (s.reg i).toNat % 2 ^ 256 :=
  BitVec.toNat_setWidth _ _

/-- FPACK's exponent is sext_32 of the low 32 bits (R9, R99). -/
theorem readExponent_eq (s : State) (i : RegId) :
    s.readExponent i =
      if (s.reg i).toNat % 2 ^ 32 < 2 ^ 31 then (((s.reg i).toNat % 2 ^ 32 : ℕ) : ℤ)
      else (((s.reg i).toNat % 2 ^ 32 : ℕ) : ℤ) - 2 ^ 32 := by
  rw [State.readExponent, BitVec.toInt_eq_toNat_cond, BitVec.toNat_setWidth]
  by_cases hneg : (s.reg i).toNat % 2 ^ 32 < 2 ^ 31
  · rw [if_pos hneg, if_pos (by omega)]
  · rw [if_neg hneg, if_neg (by omega)]
    rfl

/-- FPACK's sign is the parity of the register (R99). -/
theorem readSign_iff (s : State) (i : RegId) : s.readSign i = true ↔ (s.reg i).toNat % 2 = 1 := by
  rw [State.readSign, BitVec.getLsbD, Nat.testBit_zero, decide_eq_true_iff]

/-- Settles O58, one read at a time. -/
theorem operandsAreTheLowBits : Obligations.OperandsAreTheLowBits := by
  unfold Obligations.OperandsAreTheLowBits
  intro s i
  exact ⟨fun w => ⟨readInt_eq_extractLsb' s w i, readInt_lt s w i⟩, readFloat_toNat s i, readExponent_eq s i,
    readFloat_toNat s i, readSign_iff s i⟩

end Sys2Proof.Machine
end

section
/-! The transfer of a register in pieces (20_memory.md R32, R33): the pieces, least significant first, are the digits of
the register's value in base 2^len, and joining them gives the register back. -/

namespace Sys2Proof.Machine

theorem pieces_length (len : Nat) (v : Data) : (pieces len v).length = 1024 / len := by
  rw [pieces, List.length_map, List.length_range]

theorem pieces_getElem? {len j : Nat} (v : Data) (hj : j < 1024 / len) :
    (pieces len v)[j]? = some (v.extractLsb' (len * j) len) := by
  rw [pieces, List.getElem?_map, List.getElem?_range hj, Option.map_some]

/-- Joining pieces reads them as digits in base 2^len, least significant first (R32). -/
theorem ofPieces_eq_ofDigits (len : Nat) (ps : List (BitVec len)) :
    ofPieces len ps = BitVec.ofNat 1024 (Nat.ofDigits (2 ^ len) (ps.map BitVec.toNat)) := by
  rw [Nat.ofDigits_eq_foldr, List.foldr_map]
  rfl

/-- The value of piece j as a digit (R33). -/
theorem piece_toNat (len j : Nat) (v : Data) :
    (v.extractLsb' (len * j) len).toNat = v.toNat / (2 ^ len) ^ j % 2 ^ len := by
  rw [BitVec.extractLsb'_toNat, Nat.shiftRight_eq_div_pow, pow_mul]

/-- The first `n` digits of `x` in base `b` make up `x` modulo `b ^ n`. -/
theorem ofDigits_div_pow_mod (b n x : Nat) :
    Nat.ofDigits b ((List.range n).map fun j => x / b ^ j % b) = x % b ^ n := by
  induction n generalizing x with
  | zero => rw [pow_zero, Nat.mod_one]; rfl
  | succ n ih =>
    have htail : ((List.range n).map fun j => x / b ^ (j + 1) % b) = (List.range n).map fun j => x / b / b ^ j % b := by
      simp only [pow_succ', Nat.div_div_eq_div_mul]
    rw [List.range_succ_eq_map, List.map_cons, List.map_map, Nat.ofDigits_cons]
    calc x / b ^ 0 % b + b * Nat.ofDigits b ((List.range n).map fun j => x / b ^ (j + 1) % b)
        = x % b + b * (x / b % b ^ n) := by rw [htail, ih, pow_zero, Nat.div_one]
      _ = x % b ^ (n + 1) := by rw [pow_succ', Nat.mod_mul]

/-- Pieces of a length that divides the register, joined in order, give the register back (R33). -/
theorem ofPieces_pieces {len : Nat} (hlen : len ∣ 1024) (v : Data) : ofPieces len (pieces len v) = v := by
  have hdigits : (pieces len v).map BitVec.toNat =
      (List.range (1024 / len)).map fun j => v.toNat / (2 ^ len) ^ j % 2 ^ len := by
    simp only [pieces, List.map_map, Function.comp_def, piece_toNat]
  rw [ofPieces_eq_ofDigits, hdigits, ofDigits_div_pow_mod, ← pow_mul, Nat.mul_div_cancel' hlen,
    Nat.mod_eq_of_lt v.isLt, BitVec.ofNat_toNat, BitVec.setWidth_eq]

/-- Settles O56: the four lengths divide 1024, and the pieces are the register's digits. -/
theorem registerPiecesAreLittleEndian : Obligations.RegisterPiecesAreLittleEndian := by
  unfold Obligations.RegisterPiecesAreLittleEndian
  intro v len hmem
  have hlen : len ∣ 1024 := by
    have hall : ∀ l ∈ [128, 64, 32, 8], l ∣ 1024 := by decide
    exact hall len hmem
  exact ⟨fun _ hj => pieces_getElem? v hj, pieces_length len v, ofPieces_pieces hlen v⟩

end Sys2Proof.Machine
end

section
/-! The run of the machine is the sequence of the host's actions (20_memory.md R36, R37). Every action answers a next
state and never looks at the actions still to come, so that a step of the machine is one action; and a halted block
keeps its fault until a Reset (60_exceptions.md R116; 70_reset_and_hazards.md R131). -/

namespace Sys2Proof.Machine

open Sys2Proof.Reference

variable {s t : State}

/-! ### No operation reads or writes the actions still to come -/

theorem State.take_writeAll (s : State) (q : List HostAction) (ps : List (RegId × Data)) :
    (s.take q).writeAll ps = (s.writeAll ps).take q := by
  induction ps generalizing s with
  | nil => rfl
  | cons p ps ih => exact ih (s.setReg p.1 p.2)

theorem State.take_finish (s : State) (q : List HostAction) (i : Instr) :
    (s.take q).finish i = (s.finish i).take q := by
  have hwrites : writesOf i (s.take q) = writesOf i s := writesOf_congr (fun _ _ => rfl) rfl
  have hcarry : carryAfter i (s.take q) = carryAfter i s := carryAfter_congr (fun _ _ => rfl) rfl
  rw [finish, hwrites, hcarry, take_writeAll]
  rfl

/-- Every command answers a next state, whatever is still to come. -/
theorem exec_take (i : Instr) (s : State) (q : List HostAction) :
    ∃ t, exec i s = .next t ∧ exec i (s.take q) = .next (t.take q) := by
  have hfault : operandFault i (s.take q) = operandFault i s := operandFault_congr fun _ _ => rfl
  cases hk : operandFault i s with
  | some c => exact ⟨_, exec_of_fault hk, exec_of_fault (hfault.trans hk)⟩
  | none => exact ⟨_, exec_of_noFault hk, s.take_finish q i ▸ exec_of_noFault (hfault.trans hk)⟩

/-- Every issue of a word answers a next state, whatever is still to come (R52). -/
theorem issue_take (c : Cmd) (s : State) (q : List HostAction) :
    ∃ t, issue c s = .next t ∧ issue c (s.take q) = .next (t.take q) := by
  cases hf : s.fault with
  | true => exact ⟨s, issue_of_halted hf, issue_of_halted hf⟩
  | false =>
    cases hd : decode c with
    | error r => exact ⟨_, issue_of_illegal hf hd, issue_of_illegal hf hd⟩
    | ok i =>
      obtain ⟨t, ht, htake⟩ := exec_take i s q
      exact ⟨t, (issue_of_legal hf hd).trans ht, (issue_of_legal (s := s.take q) hf hd).trans htake⟩

/-- A host action leads to the state `afterAction` names, whatever is still to come (R130). -/
theorem hostAct_take (a : HostAction) (s : State) (q : List HostAction) :
    hostAct a (s.take q) = .next ((afterAction s a).take q) := by
  cases a with
  | reset | writeReg | readReg | readStatus => rfl
  | issue c =>
    obtain ⟨t, ht, htake⟩ := issue_take c { s with answer := .none } q
    rw [afterAction_issue ht]
    exact htake

/-! ### The run -/

/-- One step takes up the first action and leaves the others to come (R37). -/
theorem step_take_cons (s : State) (a : HostAction) (rest : List HostAction) :
    step (s.take (a :: rest)) = .next ((afterAction s a).take rest) :=
  hostAct_take a s rest

theorem run_succ_of_step {k : Nat} (h : step s = .next t) : core.run (k + 1) s = core.run k t := by
  have hstep : core.step s = .next t := h
  simp only [Host.Core.run, hstep]

/-- The run takes up the actions one after the other (R36, R37). -/
theorem run_take (s : State) (acts : List HostAction) :
    core.run acts.length (s.take acts) = .next ((afterActions s acts).take []) := by
  induction acts generalizing s with
  | nil => rfl
  | cons a rest ih => exact (run_succ_of_step (step_take_cons s a rest)).trans (ih (afterAction s a))

/-! ### A recorded fault stands until a Reset -/

/-- The two blocks record the same fault: FAULT, CAUSE, FCMD and FCIX are equal. -/
structure SameFaultRecord (s t : State) : Prop where
  fault : t.fault = s.fault
  cause : t.cause = s.cause
  fcmd : t.fcmd = s.fcmd
  fcix : t.fcix = s.fcix

theorem SameFaultRecord.refl (s : State) : SameFaultRecord s s := ⟨rfl, rfl, rfl, rfl⟩

theorem SameFaultRecord.trans {u : State} (hst : SameFaultRecord s t) (htu : SameFaultRecord t u) :
    SameFaultRecord s u :=
  ⟨htu.fault.trans hst.fault, htu.cause.trans hst.cause, htu.fcmd.trans hst.fcmd, htu.fcix.trans hst.fcix⟩

/-- While the block is halted every action but Reset keeps the fault record: words are ignored (R116). -/
theorem afterAction_of_halted {a : HostAction} (h : s.fault = true) (ha : a ≠ .reset) :
    SameFaultRecord s (afterAction s a) := by
  cases a with
  | reset => exact absurd rfl ha
  | writeReg | readReg | readStatus => exact ⟨rfl, rfl, rfl, rfl⟩
  | issue c =>
    rw [afterAction_issue (issue_of_halted h)]
    exact ⟨rfl, rfl, rfl, rfl⟩

theorem afterActions_of_halted {acts : List HostAction} (h : s.fault = true) (hacts : .reset ∉ acts) :
    SameFaultRecord s (afterActions s acts) := by
  induction acts generalizing s with
  | nil => exact .refl s
  | cons a rest ih =>
    have hfirst := afterAction_of_halted h (List.ne_of_not_mem_cons hacts).symm
    exact hfirst.trans (ih (hfirst.fault.trans h) (List.not_mem_of_not_mem_cons hacts))

/-- Settles O60: the run by induction on the actions, and the fault record kept by each of them. -/
theorem machineRunPerformsTheHostActions : Obligations.MachineRunPerformsTheHostActions := by
  unfold Obligations.MachineRunPerformsTheHostActions
  intro s acts
  refine ⟨run_take s acts, fun h hacts => ?_⟩
  obtain ⟨hfault, hcause, hfcmd, hfcix⟩ := afterActions_of_halted h hacts
  exact ⟨hfault.trans h, hcause, hfcmd, hfcix⟩

end Sys2Proof.Machine
end

section
/-! Encoding loses nothing: the word of a well-formed command decodes to that command (30_encoding.md R41, R44, R45,
R47, R51). One lemma per format (R44), then the opcode map (R47). -/

namespace Sys2Proof

/-! ### The formats: reading the fields that the encoder of the same format wrote -/

section Formats

variable {op : BitVec 6} {w : BitVec 2} {rd rd2 rd3 rs1 rs2 rs3 : RegId}

theorem fmt1D1S_enc1D1S (k : RegId → RegId → Instr) : fmt1D1S (enc1D1S op w rd rs1) k = .ok (k rd rs1) := rfl

theorem fmt1D2S_enc1D2S (k : RegId → RegId → RegId → Instr) :
    fmt1D2S (enc1D2S op w rd rs1 rs2) k = .ok (k rd rs1 rs2) := rfl

theorem fmt1D3S_enc1D3S (k : RegId → RegId → RegId → RegId → Instr) :
    fmt1D3S (enc1D3S op w rd rs1 rs2 rs3) k = .ok (k rd rs1 rs2 rs3) := rfl

theorem fmt2D2S_enc2D2S (k : RegId → RegId → RegId → RegId → Instr) (h : [rd, rd2].Nodup) :
    fmt2D2S (enc2D2S op w rd rd2 rs1 rs2) k = .ok (k rd rd2 rs1 rs2) := if_pos h

theorem fmt2D3S_enc2D3S (k : RegId → RegId → RegId → RegId → RegId → Instr) (h : [rd, rd2].Nodup) :
    fmt2D3S (enc2D3S op w rd rd2 rs1 rs2 rs3) k = .ok (k rd rd2 rs1 rs2 rs3) := if_pos h

theorem fmt3D1S_enc3D1S (k : RegId → RegId → RegId → RegId → Instr) (h : [rd, rd2, rd3].Nodup) :
    fmt3D1S (enc3D1S op w rd rd2 rd3 rs1) k = .ok (k rd rd2 rd3 rs1) := if_pos h

end Formats

/-- R45: a well-formed command names pairwise different destinations. -/
theorem Instr.wf_iff {i : Instr} : i.wf = true ↔ i.dests.Nodup := decide_eq_true_iff

/-- The fields of a well-formed command decode to it. An integer command's width comes back from its code (R43). -/
theorem decodeFields_fields {i : Instr} (h : i.wf = true) : decodeFields i.fields = .ok i := by
  have hd := Instr.wf_iff.1 h
  cases i with
  | inc | dec | clz | ctz | msb | iseven | isodd =>
    exact (fmt1D1S_enc1D1S _).trans (by simp [Instr.fields, enc1D1S, widthOf_codeOf])
  | add | adc | sub | sbb | cmp | mullo | mulhi | rdiv | rdivp2 | rdivp10 | shl | shr =>
    exact (fmt1D2S_enc1D2S _).trans (by simp [Instr.fields, enc1D2S, widthOf_codeOf])
  | mulw | divrem | wshl | wshr =>
    exact (fmt2D2S_enc2D2S _ hd).trans (by simp [Instr.fields, enc2D2S, widthOf_codeOf])
  | cshl | cshr =>
    exact (fmt2D3S_enc2D3S _ hd).trans (by simp [Instr.fields, enc2D3S, widthOf_codeOf])
  | fneg | fabs | fclass => exact fmt1D1S_enc1D1S _
  | fadd | fsub | fmul | fdiv | fcmp | ftcmp => exact fmt1D2S_enc1D2S _
  | fma | fpack => exact fmt1D3S_enc1D3S _
  | funpack => exact fmt3D1S_enc3D1S _ hd

/-- Settles O42: the word splits into the command's fields, and these decode to the command. -/
theorem decodeOfEncodeIsTheCommand : Obligations.DecodeOfEncodeIsTheCommand := by
  unfold Obligations.DecodeOfEncodeIsTheCommand
  intro i h
  rw [decode, splitWord_encode]
  exact decodeFields_fields h

end Sys2Proof
end

section
/-! The words that decoding refuses are those that R49 calls illegal, and a word it does not refuse gives a well-formed
command (30_encoding.md R45, R48, R49, R51). Each row of the opcode map reads its fields by the format that `formatOf`
gives its opcode; the two readings of a word agree format by format. -/

namespace Sys2Proof

open Sys2Proof.Machine Sys2Proof.Reference

/-! ### What the checks refuse -/

theorem requireZero_refuses {l : List RegId} {d : Except DecodeReject Instr} :
    (∃ r, requireZero l d = .error r) ↔ (∃ x ∈ l, x.val ≠ 0) ∨ ∃ r, d = .error r := by
  unfold requireZero
  split <;> next h => simp_all

theorem requireDistinct_refuses {l : List RegId} {d : Except DecodeReject Instr} :
    (∃ r, requireDistinct l d = .error r) ↔ ¬ l.Nodup ∨ ∃ r, d = .error r := by
  unfold requireDistinct
  split <;> next h => simp [h]

theorem floatOnly_refuses {f : Fields} {d : Except DecodeReject Instr} :
    (∃ r, floatOnly f d = .error r) ↔ f.w ≠ 1 ∨ ∃ r, d = .error r := by
  unfold floatOnly
  split <;> next h => simp_all

/-! ### The rows of the opcode map -/

/-- `FormatRow f F d`: `d` is a command read from the fields `f` by the format `F`, its destinations those of the
format (R44). -/
inductive FormatRow (f : Fields) : Format → Except DecodeReject Instr → Prop
  | f1D1S (k : RegId → RegId → Instr) (hk : ∀ rd a, (k rd a).dests = [rd]) : FormatRow f .f1D1S (fmt1D1S f k)
  | f1D2S (k : RegId → RegId → RegId → Instr) (hk : ∀ rd a b, (k rd a b).dests = [rd]) :
    FormatRow f .f1D2S (fmt1D2S f k)
  | f1D3S (k : RegId → RegId → RegId → RegId → Instr) (hk : ∀ rd a b c, (k rd a b c).dests = [rd]) :
    FormatRow f .f1D3S (fmt1D3S f k)
  | f2D2S (k : RegId → RegId → RegId → RegId → Instr) (hk : ∀ rd rd2 a b, (k rd rd2 a b).dests = [rd, rd2]) :
    FormatRow f .f2D2S (fmt2D2S f k)
  | f2D3S (k : RegId → RegId → RegId → RegId → RegId → Instr)
    (hk : ∀ rd rd2 a b c, (k rd rd2 a b c).dests = [rd, rd2]) : FormatRow f .f2D3S (fmt2D3S f k)
  | f3D1S (k : RegId → RegId → RegId → RegId → Instr) (hk : ∀ rd rd2 rd3 a, (k rd rd2 rd3 a).dests = [rd, rd2, rd3]) :
    FormatRow f .f3D1S (fmt3D1S f k)

/-- `OpcodeRow f d`: `d` is what the opcode map makes of the fields `f`. The opcode is reserved, or is an integer
command's, or is a float command's, whose width code is tested first (R43, R47, R48). -/
inductive OpcodeRow (f : Fields) : Except DecodeReject Instr → Prop
  | reserved (hop : formatOf f.op.toNat = none) : OpcodeRow f (.error .reservedOpcode)
  | integer {F : Format} {d : Except DecodeReject Instr} {n : Nat} (hop : f.op.toNat = n) (hF : formatOf n = some F)
    (hn : n < 0x20) (hd : FormatRow f F d) : OpcodeRow f d
  | float {F : Format} {d : Except DecodeReject Instr} {n : Nat} (hop : f.op.toNat = n) (hF : formatOf n = some F)
    (hn : 0x20 ≤ n) (hd : FormatRow f F d) : OpcodeRow f (floatOnly f d)

/-- Every opcode has its row (R47, R48). -/
theorem opcodeRow_decodeFields (f : Fields) : OpcodeRow f (decodeFields f) := by
  unfold decodeFields
  split
  iterate 4 next hop => exact .integer hop rfl (by decide) (.f1D2S _ fun _ _ _ => rfl)
  iterate 2 next hop => exact .integer hop rfl (by decide) (.f1D1S _ fun _ _ => rfl)
  next hop => exact .integer hop rfl (by decide) (.f1D2S _ fun _ _ _ => rfl)
  next hop => exact .integer hop rfl (by decide) (.f2D2S _ fun _ _ _ _ => rfl)
  iterate 2 next hop => exact .integer hop rfl (by decide) (.f1D2S _ fun _ _ _ => rfl)
  next hop => exact .integer hop rfl (by decide) (.f2D2S _ fun _ _ _ _ => rfl)
  iterate 5 next hop => exact .integer hop rfl (by decide) (.f1D2S _ fun _ _ _ => rfl)
  iterate 2 next hop => exact .integer hop rfl (by decide) (.f2D2S _ fun _ _ _ _ => rfl)
  iterate 2 next hop => exact .integer hop rfl (by decide) (.f2D3S _ fun _ _ _ _ _ => rfl)
  iterate 5 next hop => exact .integer hop rfl (by decide) (.f1D1S _ fun _ _ => rfl)
  iterate 4 next hop => exact .float hop rfl (by decide) (.f1D2S _ fun _ _ _ => rfl)
  next hop => exact .float hop rfl (by decide) (.f1D3S _ fun _ _ _ _ => rfl)
  iterate 2 next hop => exact .float hop rfl (by decide) (.f1D1S _ fun _ _ => rfl)
  iterate 2 next hop => exact .float hop rfl (by decide) (.f1D2S _ fun _ _ _ => rfl)
  next hop => exact .float hop rfl (by decide) (.f1D1S _ fun _ _ => rfl)
  next hop => exact .float hop rfl (by decide) (.f1D3S _ fun _ _ _ _ => rfl)
  next hop => exact .float hop rfl (by decide) (.f3D1S _ fun _ _ _ _ => rfl)
  · exact .reserved (by simp_all [formatOf])

/-! ### The fields of a word as numbers -/

@[simp] theorem splitWord_op (c : Cmd) : (splitWord c).op.toNat = field c 26 6 := field_toNat c 26 6
@[simp] theorem splitWord_w (c : Cmd) : (splitWord c).w.toNat = field c 24 2 := field_toNat c 24 2
@[simp] theorem splitWord_rd (c : Cmd) : (splitWord c).rd.val = field c 20 4 := field_toNat c 20 4
@[simp] theorem splitWord_rs2 (c : Cmd) : (splitWord c).rs2.val = field c 12 4 := field_toNat c 12 4
@[simp] theorem splitWord_rs3 (c : Cmd) : (splitWord c).rs3.val = field c 8 4 := field_toNat c 8 4
@[simp] theorem splitWord_rd2 (c : Cmd) : (splitWord c).rd2.val = field c 4 4 := field_toNat c 4 4
@[simp] theorem splitWord_rd3 (c : Cmd) : (splitWord c).rd3.val = field c 0 4 := field_toNat c 0 4

theorem splitWord_w_eq_one_iff (c : Cmd) : (splitWord c).w = 1 ↔ field c 24 2 = 1 := by
  rw [← BitVec.toNat_inj, splitWord_w]
  rfl

/-! ### Decoding and R49 agree -/

theorem not_nodup_pair {a b : RegId} : ¬ [a, b].Nodup ↔ a.val = b.val := by simp [Fin.ext_iff]

theorem not_nodup_triple {a b c : RegId} :
    ¬ [a, b, c].Nodup ↔ a.val = b.val ∨ a.val = c.val ∨ b.val = c.val := by
  simp only [List.nodup_cons, List.mem_cons, List.not_mem_nil, List.nodup_nil, Fin.ext_iff]
  tauto

/-- A format refuses a word for an unused field that is not 0000 or for a repeated destination, and for nothing else
(R49 (c), (d)). -/
theorem FormatRow.refuses_iff {c : Cmd} {F : Format} {d : Except DecodeReject Instr} (h : FormatRow (splitWord c) F d) :
    (∃ r, d = .error r) ↔ unusedNonzero c F ∨ repeatsDestination c F := by
  cases h with
  | f1D1S | f1D2S | f1D3S =>
    simp [fmt1D1S, fmt1D2S, fmt1D3S, requireZero_refuses, unusedNonzero, repeatsDestination,
      -Fin.val_eq_zero_iff]
  | f2D2S | f2D3S | f3D1S =>
    simp [fmt2D2S, fmt2D3S, fmt3D1S, requireZero_refuses, requireDistinct_refuses, not_nodup_pair, not_nodup_triple,
      unusedNonzero, repeatsDestination, or_assoc, -List.nodup_cons, -Fin.val_eq_zero_iff]

/-- A command that a format reads is well formed (R45). -/
theorem FormatRow.wf_of_ok {f : Fields} {F : Format} {d : Except DecodeReject Instr} {i : Instr} (h : FormatRow f F d)
    (hok : d = .ok i) : i.wf = true := by
  rw [Instr.wf_iff]
  cases h with
  | f1D1S k hk | f1D2S k hk | f1D3S k hk =>
    obtain ⟨-, ⟨⟩⟩ := requireZero_eq_ok hok
    rw [hk]
    exact List.nodup_singleton _
  | f2D2S k hk | f2D3S k hk | f3D1S k hk =>
    obtain ⟨-, hdistinct⟩ := requireZero_eq_ok hok
    obtain ⟨hnodup, ⟨⟩⟩ := requireDistinct_eq_ok hdistinct
    rwa [hk]

/-- A command that the opcode map reads is well formed. -/
theorem OpcodeRow.wf_of_ok {f : Fields} {d : Except DecodeReject Instr} {i : Instr} (h : OpcodeRow f d)
    (hok : d = .ok i) : i.wf = true := by
  cases h with
  | reserved => exact nomatch hok
  | integer _ _ _ hd => exact hd.wf_of_ok hok
  | float _ _ _ hd => exact hd.wf_of_ok (floatOnly_eq_ok hok).2

/-- The command of a legal word is well formed (R45, R51). -/
theorem wf_of_decode {c : Cmd} {i : Instr} (h : decode c = .ok i) : i.wf = true :=
  (opcodeRow_decodeFields _).wf_of_ok h

/-- R49 for a word whose opcode has a format. -/
theorem illegalWord_iff {c : Cmd} {F : Format} (hF : formatOf (field c 26 6) = some F) :
    IllegalWord c ↔ (0x20 ≤ field c 26 6 ∧ field c 24 2 ≠ 1) ∨ unusedNonzero c F ∨ repeatsDestination c F := by
  simp only [IllegalWord, hF]

/-- R49 (a): a reserved opcode makes the word illegal (R48). -/
theorem illegalWord_of_reserved {c : Cmd} (h : formatOf (field c 26 6) = none) : IllegalWord c := by
  simp only [IllegalWord, h]

/-- The opcode map refuses exactly the fields of illegal words. -/
theorem OpcodeRow.refuses_iff {c : Cmd} {d : Except DecodeReject Instr} (h : OpcodeRow (splitWord c) d) :
    (∃ r, d = .error r) ↔ IllegalWord c := by
  cases h with
  | reserved hop => exact iff_of_true ⟨_, rfl⟩ (illegalWord_of_reserved (splitWord_op c ▸ hop))
  | integer hop hF hn hd =>
    rw [splitWord_op] at hop
    subst hop
    have hint : ¬ (0x20 ≤ field c 26 6 ∧ field c 24 2 ≠ 1) := fun hfloat => hn.not_ge hfloat.1
    rw [hd.refuses_iff, illegalWord_iff hF, or_iff_right hint]
  | float hop hF hn hd =>
    rw [splitWord_op] at hop
    subst hop
    rw [floatOnly_refuses, hd.refuses_iff, illegalWord_iff hF, and_iff_right hn, ne_eq, splitWord_w_eq_one_iff]

/-- Decoding refuses exactly the illegal words (R49). -/
theorem decode_refuses_iff (c : Cmd) : (∃ r, decode c = .error r) ↔ IllegalWord c :=
  (opcodeRow_decodeFields _).refuses_iff

/-- Settles O41: decoding refuses the words R49 names, and the issue of such a word enters the fault ILLEGAL. -/
theorem illegalWordsAreExactlyThose : Obligations.IllegalWordsAreExactlyThose := by
  unfold Obligations.IllegalWordsAreExactlyThose
  refine fun c => ⟨decode_refuses_iff c, fun hillegal s hrun => ?_⟩
  obtain ⟨r, hr⟩ := (decode_refuses_iff c).2 hillegal
  exact ⟨_, issue_of_illegal hrun hr, faulted_enterFault s .illegal c⟩

/-- Settles O43: a word is refused and illegal, or it is the encoding of a well-formed command. -/
theorem encodeOfDecodeIsTheWord : Obligations.EncodeOfDecodeIsTheWord := by
  unfold Obligations.EncodeOfDecodeIsTheWord
  intro c
  cases h : decode c with
  | error r => exact .inl ⟨r, rfl, (decode_refuses_iff c).1 ⟨r, h⟩⟩
  | ok i => exact .inr ⟨i, rfl, wf_of_decode h, encode_of_decode h⟩

end Sys2Proof
end

section
/-! The encoding examples of the spec (30_encoding.md R55), and a step at the issue of a legal word (R52). -/

namespace Sys2Proof.Machine

/-- One step takes up the host's next action (R37). -/
theorem step_of_pending {s : State} {a : HostAction} {rest : List HostAction} (h : s.pending = a :: rest) :
    step s = hostAct a (s.take rest) := by
  simp only [step, h]

/-- Settles O45: the step is the issue of the word, which runs the command. -/
theorem stepRunsTheDecodedCommand : Obligations.StepRunsTheDecodedCommand := by
  unfold Obligations.StepRunsTheDecodedCommand
  intro s c rest i hpending hrun hlegal
  rw [step_of_pending hpending]
  exact issue_of_legal (s := { s with pending := rest, answer := .none }) hrun hlegal

/-- Settles O44, by evaluating the decoder and the assembler text on each row. -/
theorem specWordsDecodeAsWritten : Obligations.SpecWordsDecodeAsWritten := by
  unfold Obligations.SpecWordsDecodeAsWritten
  decide

end Sys2Proof.Machine
end

section
/-! The statements' own spelling of an encoding (`Encodes`: R41's sum, with opcode and width code as numbers) and the
encoder's agree: a well-formed command's word is `wordOf` of its fields, so its word decodes to it (R43, R51). -/

namespace Sys2Proof

open Sys2Proof.Reference

theorem joinFields_eq_wordOf (f : Fields) :
    joinFields f = wordOf f.op.toNat f.w.toNat f.rd f.rs1 f.rs2 f.rs3 f.rd2 f.rd3 := by
  rw [wordOf, ← joinFields_toNat, BitVec.ofNat_toNat, BitVec.setWidth_eq]

/-- The word of a well-formed command's fields is its encoding. -/
theorem encodes_fields {i : Instr} (h : i.wf = true) :
    Encodes i i.fields.op.toNat i.fields.w.toNat i.fields.rd i.fields.rs1 i.fields.rs2 i.fields.rs3 i.fields.rd2
      i.fields.rd3 := by
  rw [Encodes, ← joinFields_eq_wordOf, decode, splitWord_joinFields]
  exact decodeFields_fields h

/-- R43: the code of a width, as a number. -/
theorem codeOf_toNat (w : Width) : (codeOf w).toNat = widthNumber w := by cases w <;> rfl

/-- `encodes_fields` for an integer command of width `w`. -/
theorem encodes_fields_of_width {i : Instr} {w : Width} (hwf : i.wf = true) (hw : i.fields.w = codeOf w) :
    Encodes i i.fields.op.toNat (widthNumber w) i.fields.rd i.fields.rs1 i.fields.rs2 i.fields.rs3 i.fields.rd2
      i.fields.rd3 := by
  rw [← codeOf_toNat, ← hw]
  exact encodes_fields hwf

/-- A command with one destination is well formed (R45). -/
theorem Instr.wf_of_dests_singleton {i : Instr} {rd : RegId} (h : i.dests = [rd]) : i.wf = true :=
  Instr.wf_iff.2 (h ▸ List.nodup_singleton rd)

end Sys2Proof
end

section
/-! Integer add, subtract, increment, decrement and compare (40_int_addsub.md R58 to R64). Each of these commands
completes with one integer result (`exec_one_int`); what is left is the arithmetic of that result and of CF. -/

namespace Sys2Proof.Machine

open Sys2Proof.Reference

/-! ### A command whose one result is an integer -/

theorem finish_reg_of_writesOf {i : Instr} {s : State} {rd : RegId} {v : Data} (h : writesOf i s = [(rd, v)]) :
    (s.finish i).reg rd = v := by
  rw [State.finish, State.advance_reg, State.setCf_reg, h, State.writeAll_cons, State.writeAll_nil, State.setReg_reg,
    if_pos rfl]

/-- A command that raises no fault and writes one integer of N bits completes with that integer in rd, zero-extended,
and with the frame of R52. -/
theorem exec_one_int {i : Instr} {s : State} {w : Width} {rd : RegId} {n : Nat} (hok : operandFault i s = none)
    (hwrites : writesOf i s = [intWrite rd n]) (hn : n < 2 ^ bits w) :
    ∃ t, exec i s = .next t ∧ (t.reg rd).toNat = n ∧ Completed s t [rd] (carryAfter i s) := by
  have hdests : i.dests = [rd] := by rw [← writesOf_dests i s, hwrites]; rfl
  refine ⟨s.finish i, exec_of_noFault hok, ?_, hdests ▸ completed_finish s i⟩
  rw [finish_reg_of_writesOf hwrites, ofNat_toNat_of_lt_bits hn]

/-! ### The arithmetic of the results -/

/-- The wrapped difference is the non-negative remainder (R9, R60). -/
theorem wrapInt_cast (w : Width) (t : Int) : (wrapInt w t : Int) = t % (2 ^ bits w : ℕ) :=
  Int.toNat_of_nonneg (Int.emod_nonneg t (by exact_mod_cast (Nat.two_pow_pos (bits w)).ne'))

/-- The borrow of SUB: t < 0 is a < b (R60). -/
theorem borrowOut_sub (a b : Nat) : borrowOut ((a : Int) - b) = decide (a < b) :=
  decide_eq_decide.2 (by omega)

/-- The borrow of SBB: t < 0 is a < b + CF (R61). -/
theorem borrowOut_sub_sub (a b c : Nat) : borrowOut ((a : Int) - b - c) = decide (a < b + c) :=
  decide_eq_decide.2 (by omega)

/-- An order code fits every width. -/
theorem orderCode_lt_two_pow_bits (o : Ordering) (w : Width) : orderCode o < 2 ^ bits w :=
  calc orderCode o < 128 := by cases o <;> decide
    _ ≤ bits w := by cases w <;> decide
    _ < 2 ^ bits w := Nat.lt_two_pow_self

/-- The code of CMP as an if chain (R64). -/
theorem orderCode_compare (a b : Nat) : orderCode (compare a b) = if a < b then 0 else if a = b then 1 else 2 := by
  rcases lt_trichotomy a b with hlt | rfl | hgt
  · rw [compare_lt_iff_lt.2 hlt, if_pos hlt, orderCode]
  · rw [compare_eq_iff_eq.2 rfl, if_neg (lt_irrefl a), if_pos rfl, orderCode]
  · rw [compare_gt_iff_gt.2 hgt, if_neg hgt.not_gt, if_neg hgt.ne', orderCode]

/-! ### The commands -/

/-- A wrapped sum as the one result (R58, R59, R62). -/
theorem exec_one_sum {i : Instr} {s : State} {w : Width} {rd : RegId} {n : Nat} (hok : operandFault i s = none)
    (hwrites : writesOf i s = [intWrite rd (wrapNat w n)]) :
    ∃ t, exec i s = .next t ∧ (t.reg rd).toNat = n % 2 ^ bits w ∧ Completed s t [rd] (carryAfter i s) :=
  exec_one_int hok hwrites (wrapNat_lt w n)

/-- A wrapped difference as the one result (R60, R61, R63). -/
theorem exec_one_difference {i : Instr} {s : State} {w : Width} {rd : RegId} {d : Int}
    (hok : operandFault i s = none) (hwrites : writesOf i s = [intWrite rd (wrapInt w d)]) :
    ∃ t, exec i s = .next t ∧ ((t.reg rd).toNat : ℤ) = d % (2 ^ bits w : ℕ) ∧
      Completed s t [rd] (carryAfter i s) := by
  obtain ⟨t, hexec, hreg, hdone⟩ := exec_one_int hok hwrites (wrapInt_lt w d)
  exact ⟨t, hexec, hreg ▸ wrapInt_cast w d, hdone⟩

/-- Settles O1: the one result is the wrapped sum, and CF its carry. -/
theorem addWritesSumAndCarry : Obligations.AddWritesSumAndCarry := by
  unfold Obligations.AddWritesSumAndCarry
  intro w rd rs1 rs2 s
  exact ⟨encodes_fields_of_width (Instr.wf_of_dests_singleton rfl) rfl, exec_one_sum rfl rfl⟩

/-- Settles O2: as ADD, with CF in the exact sum. -/
theorem adcWritesSumWithCarryIn : Obligations.AdcWritesSumWithCarryIn := by
  unfold Obligations.AdcWritesSumWithCarryIn
  intro w rd rs1 rs2 s
  exact ⟨encodes_fields_of_width (Instr.wf_of_dests_singleton rfl) rfl, exec_one_sum rfl rfl⟩

/-- Settles O3: the one result is the wrapped difference, and CF its borrow. -/
theorem subWritesDifferenceAndBorrow : Obligations.SubWritesDifferenceAndBorrow := by
  unfold Obligations.SubWritesDifferenceAndBorrow
  intro w rd rs1 rs2 s
  refine ⟨encodes_fields_of_width (Instr.wf_of_dests_singleton rfl) rfl, ?_⟩
  rw [← borrowOut_sub]
  exact exec_one_difference rfl rfl

/-- Settles O4: as SUB, with CF in the exact difference. -/
theorem sbbWritesDifferenceWithBorrowIn : Obligations.SbbWritesDifferenceWithBorrowIn := by
  unfold Obligations.SbbWritesDifferenceWithBorrowIn
  intro w rd rs1 rs2 s
  refine ⟨encodes_fields_of_width (Instr.wf_of_dests_singleton rfl) rfl, ?_⟩
  rw [← borrowOut_sub_sub]
  exact exec_one_difference rfl rfl

/-- Settles O5: a wrapped sum and a wrapped difference, by commands that keep CF. -/
theorem incDecWrapAndKeepCarry : Obligations.IncDecWrapAndKeepCarry := by
  unfold Obligations.IncDecWrapAndKeepCarry
  intro w rd rs1 s
  exact ⟨⟨encodes_fields_of_width (Instr.wf_of_dests_singleton rfl) rfl, exec_one_sum rfl rfl⟩,
    ⟨encodes_fields_of_width (Instr.wf_of_dests_singleton rfl) rfl, exec_one_difference rfl rfl⟩⟩

/-- Settles O6: the one result is the order code, and CMP keeps CF. -/
theorem cmpWritesOrderCode : Obligations.CmpWritesOrderCode := by
  unfold Obligations.CmpWritesOrderCode
  intro w rd rs1 rs2 s
  refine ⟨encodes_fields_of_width (Instr.wf_of_dests_singleton rfl) rfl, ?_⟩
  rw [← orderCode_compare]
  exact exec_one_int rfl rfl (orderCode_lt_two_pow_bits _ w)

end Sys2Proof.Machine
end

section
/-! The encoding of an integer command with two destinations, and the word that a fault of an integer command records
(R41, R45, R115). -/

namespace Sys2Proof

open Sys2Proof.Reference

/-- A command with two different destinations is well formed (R45). -/
theorem Instr.wf_of_dests_pair {i : Instr} {rd rd2 : RegId} (h : i.dests = [rd, rd2]) (hne : rd ≠ rd2) :
    i.wf = true :=
  Instr.wf_iff.2 (h ▸ List.pairwise_pair.2 hne)

/-- The encoder's word of an integer command of width `w` is R41's sum of its fields. -/
theorem encode_eq_wordOf_of_width {i : Instr} {w : Width} (hw : i.fields.w = codeOf w) :
    encode i = wordOf i.fields.op.toNat (widthNumber w) i.fields.rd i.fields.rs1 i.fields.rs2 i.fields.rs3 i.fields.rd2
      i.fields.rd3 := by
  rw [← codeOf_toNat, ← hw, encode, joinFields_eq_wordOf]

end Sys2Proof
end

section
/-! Integer multiply, divide and the rounding divisions (41_int_muldiv.md R66 to R75). A command here writes one or two
integers (`exec_one_int`, `exec_two_ints`) or takes DIV_ZERO (`exec_faulted`); a rounded quotient is R11's over the
exact rational and never exceeds its dividend (`exec_one_rne`). -/

namespace Sys2Proof.Machine

open Sys2Proof.Reference

/-! ### A command whose two results are integers, and a command that faults -/

/-- Two writes to different registers: each register holds its own value. -/
theorem finish_regs_of_writesOf {i : Instr} {s : State} {rd rd2 : RegId} {v v2 : Data} (hne : rd ≠ rd2)
    (h : writesOf i s = [(rd, v), (rd2, v2)]) : (s.finish i).reg rd = v ∧ (s.finish i).reg rd2 = v2 := by
  rw [State.finish, h]
  simp [hne]

/-- A command that raises no fault and writes two integers of N bits to different registers completes with the first
in rd and the second in rd2, zero-extended, and with the frame of R52. -/
theorem exec_two_ints {i : Instr} {s : State} {w : Width} {rd rd2 : RegId} {n m : Nat} (hne : rd ≠ rd2)
    (hok : operandFault i s = none) (hwrites : writesOf i s = [intWrite rd n, intWrite rd2 m])
    (hn : n < 2 ^ bits w) (hm : m < 2 ^ bits w) :
    ∃ t, exec i s = .next t ∧ (t.reg rd).toNat = n ∧ (t.reg rd2).toNat = m ∧
      Completed s t [rd, rd2] (carryAfter i s) := by
  have hdests : i.dests = [rd, rd2] := by rw [← writesOf_dests i s, hwrites]; rfl
  obtain ⟨hrd, hrd2⟩ := finish_regs_of_writesOf hne hwrites
  refine ⟨s.finish i, exec_of_noFault hok, ?_, ?_, hdests ▸ completed_finish s i⟩
  · rw [hrd, ofNat_toNat_of_lt_bits hn]
  · rw [hrd2, ofNat_toNat_of_lt_bits hm]

/-- A command whose operands raise a cause takes that fault with its own word, and only the fault entry's writes take
place (R115). -/
theorem exec_faulted {i : Instr} {s : State} {c : Cause} {word : Cmd} (hfault : operandFault i s = some c)
    (hword : encode i = word) : ∃ t, exec i s = .next t ∧ Faulted s t c word :=
  ⟨s.enterFault c (encode i), exec_of_fault hfault, hword ▸ faulted_enterFault s c (encode i)⟩

/-! ### The results fit the width -/

/-- The high half of a product of two N-bit operands has N bits (R69). -/
theorem readInt_mul_div_lt (s : State) (w : Width) (a b : RegId) :
    s.readInt w a * s.readInt w b / 2 ^ bits w < 2 ^ bits w :=
  Nat.div_lt_of_lt_mul (Nat.mul_lt_mul'' (readInt_lt s w a) (readInt_lt s w b))

/-- Rounding up needs a remainder, so a rounded quotient never exceeds its dividend. -/
theorem rne_le_self (num : Nat) {den : Nat} (hd : 0 < den) : rne num den ≤ num := by
  have hdown : num / den ≤ num := Nat.div_le_self num den
  have hup (hhalf : den ≤ 2 * (num % den)) : num / den + 1 ≤ num :=
    calc num / den + 1 ≤ den * (num / den) + num % den :=
          Nat.add_le_add (Nat.le_mul_of_pos_left _ hd) (by omega)
      _ = num := Nat.div_add_mod num den
  rw [rne]
  split
  · next habove => exact hup habove.le
  · split
    · next htie => exact hup htie.1.ge
    · exact hdown

/-! ### A command whose one result is a rounded quotient -/

/-- A command that writes rne(a / den) completes with the exact rational rounded to nearest even (R11), which fits the
operation's width. -/
theorem exec_one_rne {i : Instr} {s : State} {w : Width} {rd a : RegId} {den : Nat} (hok : operandFault i s = none)
    (hwrites : writesOf i s = [intWrite rd (rne (s.readInt w a) den)]) (hd : 0 < den) :
    ∃ t, exec i s = .next t ∧ ((t.reg rd).toNat : ℤ) = rneRat ((s.readInt w a : ℚ) / den) ∧
      (t.reg rd).toNat < 2 ^ bits w ∧ Completed s t [rd] (carryAfter i s) := by
  have hfits : rne (s.readInt w a) den < 2 ^ bits w := (rne_le_self _ hd).trans_lt (readInt_lt s w a)
  obtain ⟨t, hexec, hreg, hdone⟩ := exec_one_int hok hwrites hfits
  exact ⟨t, hexec, hreg ▸ rne_eq_rneRat _ hd, hreg ▸ hfits, hdone⟩

/-- `exec_one_rne` at the divisor base^n, for every n: the model does not compute a power far above the dividend, and
the result is the same (R74, R75). -/
theorem exec_one_rnePow {i : Instr} {s : State} {w : Width} {rd a : RegId} {base n : Nat} (hb : 2 ≤ base)
    (hok : operandFault i s = none) (hwrites : writesOf i s = [intWrite rd (rnePow base (s.readInt w a) n)]) :
    ∃ t, exec i s = .next t ∧ ((t.reg rd).toNat : ℤ) = rneRat ((s.readInt w a : ℚ) / (base : ℚ) ^ n) ∧
      (t.reg rd).toNat < 2 ^ bits w ∧ Completed s t [rd] (carryAfter i s) := by
  rw [rnePow_eq hb] at hwrites
  rw [← Nat.cast_pow]
  exact exec_one_rne hok hwrites (Nat.pow_pos (Nat.zero_lt_of_lt hb))

/-! ### The commands -/

/-- Settles O8: the two results are the halves of the product. -/
theorem mulwWritesWholeProduct : Obligations.MulwWritesWholeProduct := by
  unfold Obligations.MulwWritesWholeProduct
  intro w rd rd2 rs1 rs2 s hne
  obtain ⟨t, hexec, hlow, hhigh, hdone⟩ := exec_two_ints (i := .mulw w rd rd2 rs1 rs2) (s := s) hne rfl rfl
    (Nat.mod_lt _ (Nat.two_pow_pos _)) (readInt_mul_div_lt s w rs1 rs2)
  refine ⟨encodes_fields_of_width (Instr.wf_of_dests_pair rfl hne) rfl, t, hexec, hlow, hhigh, ?_, hdone⟩
  rw [hlow, hhigh]
  exact Nat.mod_add_div _ _

/-- Settles O9: each command's one result is one half of the product. -/
theorem mulloMulhiAreTheHalves : Obligations.MulloMulhiAreTheHalves := by
  unfold Obligations.MulloMulhiAreTheHalves
  intro w rd rs1 rs2 s
  refine ⟨⟨encodes_fields_of_width (Instr.wf_of_dests_singleton rfl) rfl, ?_⟩,
    ⟨encodes_fields_of_width (Instr.wf_of_dests_singleton rfl) rfl, ?_⟩⟩
  · exact exec_one_int rfl rfl (Nat.mod_lt _ (Nat.two_pow_pos _))
  · exact exec_one_int rfl rfl (readInt_mul_div_lt s w rs1 rs2)

/-- Settles O10: a zero divisor is DIVREM's one fault, and any other divides with remainder. -/
theorem divremDividesOrFaults : Obligations.DivremDividesOrFaults := by
  unfold Obligations.DivremDividesOrFaults
  intro w rd rd2 rs1 rs2 s hne
  refine ⟨encodes_fields_of_width (Instr.wf_of_dests_pair rfl hne) rfl, fun hzero => ?_, fun hdiv => ?_⟩
  · exact exec_faulted (if_pos hzero) (encode_eq_wordOf_of_width rfl)
  · have hrem : s.readInt w rs1 % s.readInt w rs2 < s.readInt w rs2 := Nat.mod_lt _ (Nat.pos_of_ne_zero hdiv)
    obtain ⟨t, hexec, hquot, hmod, hdone⟩ := exec_two_ints (i := .divrem w rd rd2 rs1 rs2) hne (if_neg hdiv) rfl
      ((Nat.div_le_self _ _).trans_lt (readInt_lt s w rs1)) (hrem.trans (readInt_lt s w rs2))
    refine ⟨t, hexec, hquot, hmod, ?_, hmod ▸ hrem, hdone⟩
    rw [hquot, hmod]
    exact (Nat.div_add_mod' _ _).symm

/-- Settles O11: a zero divisor is RDIV's one fault, and any other gives the rounded quotient. -/
theorem rdivRoundsQuotientToEven : Obligations.RdivRoundsQuotientToEven := by
  unfold Obligations.RdivRoundsQuotientToEven
  intro w rd rs1 rs2 s
  refine ⟨encodes_fields_of_width (Instr.wf_of_dests_singleton rfl) rfl, fun hzero => ?_, fun hdiv => ?_⟩
  · exact exec_faulted (if_pos hzero) (encode_eq_wordOf_of_width rfl)
  · exact exec_one_rne (if_neg hdiv) rfl (Nat.pos_of_ne_zero hdiv)

/-- Settles O12: the one result is the quotient by a power of two, rounded. -/
theorem rdivp2RoundsForEveryPower : Obligations.Rdivp2RoundsForEveryPower := by
  unfold Obligations.Rdivp2RoundsForEveryPower
  intro w rd rs1 rs2 s
  exact ⟨encodes_fields_of_width (Instr.wf_of_dests_singleton rfl) rfl, exec_one_rnePow (by decide) rfl rfl⟩

/-- Settles O13: the one result is the quotient by a power of ten, rounded. -/
theorem rdivp10RoundsForEveryPower : Obligations.Rdivp10RoundsForEveryPower := by
  unfold Obligations.Rdivp10RoundsForEveryPower
  intro w rd rs1 rs2 s
  exact ⟨encodes_fields_of_width (Instr.wf_of_dests_singleton rfl) rfl, exec_one_rnePow (by decide) rfl rfl⟩

end Sys2Proof.Machine
end

section
/-! Integer shifts and bit queries (42_int_shift_bits.md R76, R78 to R88). A shift takes SHIFT_RANGE (`exec_faulted`) or
writes halves of the shifted 2N-bit value; a bit query writes a count. What is left is the arithmetic of the halves
(`highHalf_shiftedRight`, `lowHalf_shiftedRight`) and of the counts (`two_pow_le_iff_lt_bitlen`,
`le_trailingZeros_iff`). -/

namespace Sys2Proof.Machine

open Sys2Proof.Reference

/-! ### The halves of a shifted value -/

theorem lowHalf_lt (w : Width) (t : Nat) : lowHalf w t < 2 ^ bits w := Nat.mod_lt _ (Nat.two_pow_pos _)

/-- The bits that a left shift by at most N pushes out fit in N bits (R80). -/
theorem highHalf_shiftedLeft_lt {w : Width} {a k : Nat} (ha : a < 2 ^ bits w) (hk : k ≤ bits w) :
    highHalf w (shiftedLeft a k) < 2 ^ bits w :=
  calc a * 2 ^ k / 2 ^ bits w ≤ a * 2 ^ bits w / 2 ^ bits w :=
        Nat.div_le_div_right (Nat.mul_le_mul_left a (Nat.pow_le_pow_right Nat.two_pos hk))
    _ = a := Nat.mul_div_cancel a (Nat.two_pow_pos _)
    _ < 2 ^ bits w := ha

theorem two_pow_bits_eq_mul {w : Width} {k : Nat} (hk : k ≤ bits w) : 2 ^ bits w = 2 ^ k * 2 ^ (bits w - k) := by
  rw [← pow_add, Nat.add_sub_cancel' hk]

/-- The high half of a right shift's 2N-bit value is the quotient (R81). -/
theorem highHalf_shiftedRight {w : Width} (a : Nat) {k : Nat} (hk : k ≤ bits w) :
    highHalf w (shiftedRight w a k) = a / 2 ^ k := by
  rw [highHalf, shiftedRight, two_pow_bits_eq_mul hk, Nat.mul_div_mul_right _ _ (Nat.two_pow_pos _)]

/-- The low half of a right shift's 2N-bit value is the remainder, at the top of N bits (R81). -/
theorem lowHalf_shiftedRight {w : Width} (a : Nat) {k : Nat} (hk : k ≤ bits w) :
    lowHalf w (shiftedRight w a k) = a % 2 ^ k * 2 ^ (bits w - k) := by
  rw [lowHalf, shiftedRight, two_pow_bits_eq_mul hk, Nat.mul_mod_mul_right]

theorem highHalf_shiftedRight_lt {w : Width} {a k : Nat} (ha : a < 2 ^ bits w) (hk : k ≤ bits w) :
    highHalf w (shiftedRight w a k) < 2 ^ bits w :=
  (highHalf_shiftedRight a hk).trans_lt ((Nat.div_le_self _ _).trans_lt ha)

/-- A left shift within N bits loses the top k bits, and shifting back gives the others (R76). -/
theorem lowHalf_shiftedLeft_div {w : Width} (a : Nat) {k : Nat} (hk : k ≤ bits w) :
    lowHalf w (shiftedLeft a k) / 2 ^ k = a % 2 ^ (bits w - k) := by
  rw [lowHalf, shiftedLeft, two_pow_bits_eq_mul hk, Nat.mul_comm (2 ^ k), Nat.mul_mod_mul_right,
    Nat.mul_div_cancel _ (Nat.two_pow_pos _)]

/-! ### The shifts by one register -/

/-- A register that holds an N-bit value is read as that value (R15). -/
theorem readInt_eq_toNat_of_lt {s : State} {w : Width} {i : RegId} (h : (s.reg i).toNat < 2 ^ bits w) :
    s.readInt w i = (s.reg i).toNat :=
  Nat.mod_eq_of_lt h

section SingleShifts

variable {w : Width} {s : State} {k : RegId}

/-- SHL by less than the width (R78). -/
theorem exec_shl_of_lt (hk : s.readInt w k < bits w) (rd a : RegId) :
    ∃ t, exec (.shl w rd a k) s = .next t ∧
      (t.reg rd).toNat = lowHalf w (shiftedLeft (s.readInt w a) (s.readInt w k)) ∧ Completed s t [rd] s.cf :=
  exec_one_int (if_neg hk.not_ge) rfl (lowHalf_lt w _)

/-- SHR by less than the width (R79). -/
theorem exec_shr_of_lt (hk : s.readInt w k < bits w) (rd a : RegId) :
    ∃ t, exec (.shr w rd a k) s = .next t ∧ (t.reg rd).toNat = s.readInt w a / 2 ^ s.readInt w k ∧
      Completed s t [rd] s.cf :=
  exec_one_int (if_neg hk.not_ge) rfl ((Nat.div_le_self _ _).trans_lt (readInt_lt s w a))

end SingleShifts

/-! ### The commands that shift -/

/-- Settles O14: SHIFT_RANGE is the one fault, and else the one result is the shifted value. -/
theorem shlShrShiftOrFault : Obligations.ShlShrShiftOrFault := by
  unfold Obligations.ShlShrShiftOrFault
  intro w rd rs1 rs2 s
  refine ⟨⟨encodes_fields_of_width (Instr.wf_of_dests_singleton rfl) rfl, fun hrange => ?_, fun hk => ?_⟩,
    ⟨encodes_fields_of_width (Instr.wf_of_dests_singleton rfl) rfl, fun hrange => ?_, fun hk => ?_⟩⟩
  · exact exec_faulted (if_pos hrange) (encode_eq_wordOf_of_width rfl)
  · exact exec_shl_of_lt hk rd rs1
  · exact exec_faulted (if_pos hrange) (encode_eq_wordOf_of_width rfl)
  · exact exec_shr_of_lt hk rd rs1

/-- Settles O15: the two results are the halves of the shifted 2N-bit value. -/
theorem wideningShiftsKeepSpilledBits : Obligations.WideningShiftsKeepSpilledBits := by
  unfold Obligations.WideningShiftsKeepSpilledBits
  intro w rd rd2 rs1 rs2 s hne
  have ha := readInt_lt s w rs1
  refine ⟨⟨encodes_fields_of_width (Instr.wf_of_dests_pair rfl hne) rfl, fun hrange => ?_, fun hk => ?_⟩,
    ⟨encodes_fields_of_width (Instr.wf_of_dests_pair rfl hne) rfl, fun hrange => ?_, fun hk => ?_⟩⟩
  · exact exec_faulted (if_pos hrange) (encode_eq_wordOf_of_width rfl)
  · exact exec_two_ints hne (if_neg hk.not_ge) rfl (lowHalf_lt w _) (highHalf_shiftedLeft_lt ha hk.le)
  · exact exec_faulted (if_pos hrange) (encode_eq_wordOf_of_width rfl)
  · rw [← highHalf_shiftedRight _ hk.le, ← lowHalf_shiftedRight _ hk.le]
    exact exec_two_ints hne (if_neg hk.not_ge) rfl (highHalf_shiftedRight_lt ha hk.le) (lowHalf_lt w _)

/-- Settles O16: the halves of the shifted value again, and an OR of two N-bit values has N bits. -/
theorem carryingShiftsOrInTheCarry : Obligations.CarryingShiftsOrInTheCarry := by
  unfold Obligations.CarryingShiftsOrInTheCarry
  intro w rd rd2 rs1 rs2 rs3 s hne
  have ha := readInt_lt s w rs1
  have hc := readInt_lt s w rs3
  refine ⟨⟨encodes_fields_of_width (Instr.wf_of_dests_pair rfl hne) rfl, fun hrange => ?_, fun hk => ?_⟩,
    ⟨encodes_fields_of_width (Instr.wf_of_dests_pair rfl hne) rfl, fun hrange => ?_, fun hk => ?_⟩⟩
  · exact exec_faulted (if_pos hrange) (encode_eq_wordOf_of_width rfl)
  · exact exec_two_ints hne (if_neg hk.not_ge) rfl (Nat.or_lt_two_pow (lowHalf_lt w _) hc)
      (highHalf_shiftedLeft_lt ha hk.le)
  · exact exec_faulted (if_pos hrange) (encode_eq_wordOf_of_width rfl)
  · rw [← highHalf_shiftedRight _ hk.le, ← lowHalf_shiftedRight _ hk.le]
    exact exec_two_ints hne (if_neg hk.not_ge) rfl (Nat.or_lt_two_pow (highHalf_shiftedRight_lt ha hk.le) hc)
      (lowHalf_lt w _)

/-- SHL and then SHR by the same amount, in a register that SHL keeps, give the low N - k bits (R76). -/
theorem exec_shl_then_shr {w : Width} {s : State} {k rd : RegId} (hk : s.readInt w k < bits w) (hne : rd ≠ k)
    (a rd2 : RegId) :
    ∃ t u, exec (.shl w rd a k) s = .next t ∧ exec (.shr w rd2 rd k) t = .next u ∧
      u.readInt w rd2 = s.readInt w a % 2 ^ (bits w - s.readInt w k) := by
  obtain ⟨t, hshl, hleft, hdone⟩ := exec_shl_of_lt hk rd a
  have hsame : t.readInt w k = s.readInt w k :=
    readInt_congr (hdone.others k fun hmem => hne (List.mem_singleton.1 hmem).symm) w
  obtain ⟨u, hshr, hright, -⟩ := exec_shr_of_lt (hsame ▸ hk) rd2 rd
  have hread : t.readInt w rd = lowHalf w (shiftedLeft (s.readInt w a) (s.readInt w k)) := by
    rw [readInt_eq_toNat_of_lt (hleft ▸ lowHalf_lt w _), hleft]
  have hback : (u.reg rd2).toNat = s.readInt w a % 2 ^ (bits w - s.readInt w k) := by
    rw [hright, hread, hsame, lowHalf_shiftedLeft_div _ hk.le]
  have hfits : (u.reg rd2).toNat < 2 ^ bits w := hback.trans_lt ((Nat.mod_le _ _).trans_lt (readInt_lt s w a))
  exact ⟨t, u, hshl, hshr, (readInt_eq_toNat_of_lt hfits).trans hback⟩

/-- Settles O17: k >= N raises SHIFT_RANGE in each of the six commands, and the two shifts compose. -/
theorem shiftAmountBelowWidthLaw : Obligations.ShiftAmountBelowWidthLaw := by
  unfold Obligations.ShiftAmountBelowWidthLaw
  intro w a k c rd rd2 s
  refine ⟨fun hrange i hi => exec_faulted ?_ rfl, fun hk hne => exec_shl_then_shr hk hne a rd2⟩
  simp only [List.mem_cons, List.not_mem_nil, or_false] at hi
  obtain rfl | rfl | rfl | rfl | rfl | rfl := hi <;> exact if_pos hrange

/-! ### The counts -/

/-- A count of bits up to N is itself a value of N bits. -/
theorem lt_two_pow_bits_of_le {n : Nat} {w : Width} (h : n ≤ bits w) : n < 2 ^ bits w :=
  h.trans_lt Nat.lt_two_pow_self

/-- Bit n or a higher one is set exactly when the bit length exceeds n (R9). -/
theorem two_pow_le_iff_lt_bitlen (v n : Nat) : 2 ^ n ≤ v ↔ n < bitlen v := by
  rw [← not_lt, ← bitlen_le_iff, not_le]

theorem bitlen_pos {v : Nat} (h : v ≠ 0) : 0 < bitlen v :=
  (two_pow_le_iff_lt_bitlen v 0).1 (Nat.pos_of_ne_zero h)

theorem two_pow_bitlen_sub_one_le {v : Nat} (h : v ≠ 0) : 2 ^ (bitlen v - 1) ≤ v :=
  (two_pow_le_iff_lt_bitlen v _).2 (Nat.sub_one_lt (bitlen_pos h).ne')

theorem bitlen_readInt_le (s : State) (w : Width) (i : RegId) : bitlen (s.readInt w i) ≤ bits w :=
  (bitlen_le_iff _ _).2 (readInt_lt s w i)

/-- `trailingZeros` counts the powers of two up to 2^n that divide `a` (R85). -/
theorem le_trailingZeros_iff (n a m : Nat) : m ≤ trailingZeros n a ↔ m ≤ n ∧ 2 ^ m ∣ a := by
  induction n generalizing a m with
  | zero =>
    rw [trailingZeros, Nat.le_zero]
    exact ⟨fun h => ⟨h, h ▸ one_dvd a⟩, And.left⟩
  | succ n ih =>
    rw [trailingZeros]
    cases m with
    | zero => simp
    | succ m =>
      split
      · next heven =>
        obtain ⟨b, rfl⟩ := Nat.dvd_of_mod_eq_zero heven
        rw [Nat.succ_le_succ_iff, Nat.succ_le_succ_iff, ih, Nat.mul_div_cancel_left b Nat.two_pos, pow_succ',
          Nat.mul_dvd_mul_iff_left Nat.two_pos]
      · next hodd =>
        refine iff_of_false (Nat.not_succ_le_zero m) fun h => hodd (Nat.mod_eq_zero_of_dvd ?_)
        exact (dvd_pow_self 2 (Nat.succ_ne_zero m)).trans h.2

theorem trailingZeros_le (n a : Nat) : trailingZeros n a ≤ n := ((le_trailingZeros_iff n a _).1 le_rfl).1

theorem two_pow_trailingZeros_dvd (n a : Nat) : 2 ^ trailingZeros n a ∣ a := ((le_trailingZeros_iff n a _).1 le_rfl).2

theorem trailingZeros_zero (n : Nat) : trailingZeros n 0 = n :=
  (trailingZeros_le n 0).antisymm ((le_trailingZeros_iff n 0 n).2 ⟨le_rfl, dvd_zero _⟩)

/-- Of a non-zero value of n bits, no greater power of two is a divisor. -/
theorem le_trailingZeros_of_dvd {n a m : Nat} (ha : a < 2 ^ n) (hzero : a ≠ 0) (h : 2 ^ m ∣ a) :
    m ≤ trailingZeros n a := by
  have hm : 2 ^ m < 2 ^ n := (Nat.le_of_dvd (Nat.pos_of_ne_zero hzero) h).trans_lt ha
  exact (le_trailingZeros_iff n a m).2 ⟨((Nat.pow_lt_pow_iff_right Nat.one_lt_two).1 hm).le, h⟩

/-- Bit 0 of an operand is bit 0 of its register, at every width (R87, R88). -/
theorem readInt_mod_two (s : State) (w : Width) (i : RegId) :
    s.readInt w i % 2 = if (s.reg i).getLsbD 0 then 1 else 0 := by
  rw [State.readInt, Nat.mod_mod_of_dvd _ (dvd_pow_self 2 (bits_pos w).ne'), BitVec.getLsbD, Nat.testBit_zero]
  obtain heven | hodd := Nat.mod_two_eq_zero_or_one (s.reg i).toNat
  · simp [heven]
  · simp [hodd]

/-! ### The commands that query bits -/

/-- Settles O19: the results are N less the bit length, and the number of trailing zeros. -/
theorem clzCtzCountZeros : Obligations.ClzCtzCountZeros := by
  unfold Obligations.ClzCtzCountZeros
  intro w rd rs1 s
  have hlen := bitlen_readInt_le s w rs1
  obtain ⟨t, hclz, hlead, hdone⟩ := exec_one_int (i := .clz w rd rs1) (s := s) rfl rfl
    (lt_two_pow_bits_of_le (Nat.sub_le (bits w) _))
  obtain ⟨u, hctz, htrail, hdone'⟩ := exec_one_int (i := .ctz w rd rs1) (s := s) rfl rfl
    (lt_two_pow_bits_of_le (trailingZeros_le (bits w) _))
  refine ⟨⟨encodes_fields_of_width (Instr.wf_of_dests_singleton rfl) rfl, t, hclz, hdone, fun hzero => ?_,
      fun hzero => ?_⟩,
    ⟨encodes_fields_of_width (Instr.wf_of_dests_singleton rfl) rfl, u, hctz, hdone', fun hzero => ?_,
      fun hzero => ?_⟩⟩
  · rw [hlead, hzero, bitlen_eq, if_pos rfl, Nat.sub_zero]
  · have hpos := bitlen_pos hzero
    have hlow : bits w - 1 - (t.reg rd).toNat = bitlen (s.readInt w rs1) - 1 := by omega
    have hhigh : bits w - (t.reg rd).toNat = bitlen (s.readInt w rs1) := by omega
    rw [hlow, hhigh]
    exact ⟨by omega, two_pow_bitlen_sub_one_le hzero, lt_two_pow_bitlen _⟩
  · rw [htrail, hzero, trailingZeros_zero]
  · rw [htrail]
    exact ⟨Nat.mod_eq_zero_of_dvd (two_pow_trailingZeros_dvd _ _),
      fun n hn => le_trailingZeros_of_dvd (readInt_lt s w rs1) hzero (Nat.dvd_of_mod_eq_zero hn)⟩

/-- Settles O20: zero is MSB's one fault, and else the one result is the bit length less one. -/
theorem msbIndexOrFault : Obligations.MsbIndexOrFault := by
  unfold Obligations.MsbIndexOrFault
  intro w rd rs1 s
  refine ⟨encodes_fields_of_width (Instr.wf_of_dests_singleton rfl) rfl, fun hzero => ?_, fun hzero => ?_⟩
  · exact exec_faulted (if_pos hzero) (encode_eq_wordOf_of_width rfl)
  · obtain ⟨t, hexec, hindex, hdone⟩ := exec_one_int (i := .msb w rd rs1) (if_neg hzero) rfl
      (lt_two_pow_bits_of_le ((Nat.sub_le _ _).trans (bitlen_readInt_le s w rs1)))
    refine ⟨t, hexec, hdone, ?_⟩
    rw [hindex, Nat.sub_add_cancel (bitlen_pos hzero)]
    exact ⟨two_pow_bitlen_sub_one_le hzero, lt_two_pow_bitlen _⟩

/-- Settles O21: the one result is 0 or 1 by the operand's remainder modulo 2, which is bit 0 of the register. -/
theorem parityIsBitZero : Obligations.ParityIsBitZero := by
  unfold Obligations.ParityIsBitZero
  intro w rd rs1 s
  have hfits (p : Prop) [Decidable p] : (if p then 1 else 0) < 2 ^ bits w :=
    lt_two_pow_bits_of_le (by have := bits_pos w; split <;> omega)
  obtain ⟨t, heven, hres, hdone⟩ := exec_one_int (i := .iseven w rd rs1) (s := s) rfl rfl (hfits _)
  obtain ⟨u, hodd, hres', hdone'⟩ := exec_one_int (i := .isodd w rd rs1) (s := s) rfl rfl (hfits _)
  refine ⟨⟨encodes_fields_of_width (Instr.wf_of_dests_singleton rfl) rfl, t, heven, hdone, ?_⟩,
    ⟨encodes_fields_of_width (Instr.wf_of_dests_singleton rfl) rfl, u, hodd, hdone', ?_⟩⟩
  · rw [hres, readInt_mod_two]
    cases (s.reg rs1).getLsbD 0 <;> rfl
  · rw [hres', readInt_mod_two]
    cases (s.reg rs1).getLsbD 0 <;> rfl

end Sys2Proof.Machine
end

section
/-! Round-to-nearest-even over the rationals (00_scope.md R11). All that the float proofs need of `rneRat` follows from
its two defining properties: the result is at most one half away, and a tie goes to the even integer. -/

namespace Sys2Proof.Machine

open Sys2Proof.Reference

theorem abs_sub_rneRat_le_half (m : ℚ) : |m - rneRat m| ≤ 1 / 2 := by
  have hlow := Int.floor_le m
  have hhigh := Int.lt_floor_add_one m
  rw [abs_le, rneRat]
  split_ifs with hup htie
  · push_cast
    constructor <;> linarith
  · push_cast
    constructor <;> linarith [htie.1]
  · constructor <;> linarith

theorem rneRat_even_of_tie {m : ℚ} (h : |m - rneRat m| = 1 / 2) : rneRat m % 2 = 0 := by
  have hlow := Int.floor_le m
  have hhigh := Int.lt_floor_add_one m
  rw [rneRat] at h ⊢
  split_ifs at h ⊢ with hup htie
  · push_cast at h
    rw [abs_of_neg (by linarith)] at h
    linarith
  · have hodd := htie.2
    omega
  · rw [abs_of_nonneg (by linarith)] at h
    have hodd : ¬ ⌊m⌋ % 2 = 1 := fun hodd => htie ⟨h, hodd⟩
    omega

/-- An integer other than the rounded one is at least as far as one less the rounding error. -/
theorem one_sub_le_abs_sub {m : ℚ} {j n : ℤ} (h : j ≠ n) : 1 - |m - n| ≤ |m - j| := by
  have hint : (1 : ℤ) ≤ |n - j| := Int.one_le_abs (sub_ne_zero.2 h.symm)
  have hrat : (1 : ℚ) ≤ |(n : ℚ) - j| := by exact_mod_cast hint
  have htri := abs_sub_le (n : ℚ) m j
  rw [abs_sub_comm (n : ℚ) m] at htri
  linarith

/-- No integer is nearer than the rounded one. -/
theorem abs_sub_rneRat_le (m : ℚ) (j : ℤ) : |m - rneRat m| ≤ |m - j| := by
  by_cases h : j = rneRat m
  · rw [h]
  · have hnear := abs_sub_rneRat_le_half m
    have hfar := one_sub_le_abs_sub (m := m) h
    linarith

/-- When another integer is as near as the rounded one, the rounded one is even. -/
theorem rneRat_even_of_abs_sub_eq {m : ℚ} {j : ℤ} (hne : j ≠ rneRat m) (h : |m - j| = |m - rneRat m|) :
    rneRat m % 2 = 0 := by
  have hnear := abs_sub_rneRat_le_half m
  have hfar := one_sub_le_abs_sub (m := m) hne
  exact rneRat_even_of_tie (by linarith)

/-- Rounding never crosses an integer. -/
theorem le_rneRat {j : ℤ} {m : ℚ} (h : (j : ℚ) ≤ m) : j ≤ rneRat m := by
  have hnear := (abs_le.1 (abs_sub_rneRat_le_half m)).2
  have hlt : (j : ℚ) < (rneRat m + 1 : ℤ) := by push_cast; linarith
  have := Int.cast_lt.1 hlt
  omega

theorem rneRat_le {j : ℤ} {m : ℚ} (h : m ≤ j) : rneRat m ≤ j := by
  have hnear := (abs_le.1 (abs_sub_rneRat_le_half m)).1
  have hlt : (rneRat m : ℚ) < (j + 1 : ℤ) := by push_cast; linarith
  have := Int.cast_lt.1 hlt
  omega

@[simp] theorem rneRat_intCast (j : ℤ) : rneRat (j : ℚ) = j := (rneRat_le le_rfl).antisymm (le_rneRat le_rfl)

/-- Halfway below an even integer is where rounding begins to reach it. -/
theorem rneRat_lt_iff_of_even {j : ℤ} (heven : j % 2 = 0) (m : ℚ) : rneRat m < j ↔ m < j - 1 / 2 := by
  obtain ⟨hlow, hhigh⟩ := abs_le.1 (abs_sub_rneRat_le_half m)
  constructor
  · intro hlt
    have hle : ((rneRat m : ℤ) : ℚ) ≤ (j - 1 : ℤ) := Int.cast_le.2 (by omega)
    push_cast at hle
    refine lt_of_le_of_ne (by linarith) fun htie => ?_
    have hpred : rneRat m = j - 1 := by
      have hge : ((j - 1 : ℤ) : ℚ) ≤ (rneRat m : ℤ) := by push_cast; linarith
      have := Int.cast_le.1 hge
      omega
    have hhalf : |m - rneRat m| = 1 / 2 := by
      rw [hpred, htie]
      push_cast
      norm_num
    have := rneRat_even_of_tie hhalf
    omega
  · intro hlt
    have hcast : (rneRat m : ℚ) < j := by linarith
    exact Int.cast_lt.1 hcast

end Sys2Proof.Machine
end

section
/-! The finite floats as pairs of a significand and an ULP exponent (R92). `Canonical n q` says which pairs are the
significand and exponent of a finite float; `finishRat` builds the float of such a pair (the last lines of R95), and
`sig` and `lastExp` read it back. -/

namespace Sys2Proof.Machine

open Sys2Proof.Reference

/-- A significand of at most 237 bits at an ULP exponent of at least EMIN - 236, with its leading bit set unless the
exponent is the least one: R92's form of a magnitude, whether or not it is too large for a finite float. -/
structure Normalised (n q : ℤ) : Prop where
  nonneg : 0 ≤ n
  fits : n < 2 ^ 237
  least : -262378 ≤ q
  leading : n < 2 ^ 236 → q = -262378

/-! ### A finite float's significand and exponent -/

theorem sig_eq (x : Packed) :
    sig x = if expField x = 0 ∨ expField x = 524287 then fracField x else 2 ^ 236 + fracField x := rfl

theorem lastExp_eq (x : Packed) : lastExp x = (max (expField x) 1 : ℕ) - 262143 - 236 := rfl

theorem lastExp_le_of_isFinite {x : Packed} (h : isFinite x = true) : lastExp x ≤ 261907 := by
  have hexp := (isFinite_iff x).1 h
  have hlt := expField_lt x
  rw [lastExp_eq]
  omega

theorem normalised_of_isFinite {x : Packed} (h : isFinite x = true) : Normalised (sig x) (lastExp x) := by
  have hexp := (isFinite_iff x).1 h
  have hfrac := fracField_lt x
  by_cases hsub : expField x = 0
  · have hsig : sig x = fracField x := if_pos (.inl hsub)
    have hlast : lastExp x = -262378 := by rw [lastExp_eq, hsub]; rfl
    rw [hsig, hlast]
    constructor <;> omega
  · have hsig : sig x = 2 ^ 236 + fracField x := if_neg (by tauto)
    have hlast := lastExp_eq x
    rw [hsig]
    constructor <;> omega

/-- Only the zeros have significand 0 among the finite floats. -/
theorem sig_eq_zero_iff {x : Packed} (h : isFinite x = true) : sig x = 0 ↔ isZero x = true := by
  have hexp := (isFinite_iff x).1 h
  rw [isZero_iff, sig_eq]
  split_ifs <;> omega

/-- The implicit bit is even: significand and fraction have the same parity. -/
theorem sig_mod_two (x : Packed) : sig x % 2 = fracField x % 2 := by
  rw [sig_eq]
  split_ifs <;> omega

/-! ### The float of a pair -/

theorem finishRat_of_overflow (s : Bool) (n : ℤ) {q : ℤ} (h : 261907 < q) : finishRat s n q = infOf s := if_pos h

theorem finishRat_of_le (s : Bool) (n : ℤ) {q : ℤ} (h : q ≤ 261907) :
    finishRat s n q = if 2 ^ 236 ≤ n then
      packFields s (BitVec.ofInt 19 (q + 236 + 262143)) (BitVec.ofInt 236 (n - 2 ^ 236))
      else packFields s 0 (BitVec.ofInt 236 n) :=
  if_neg (not_lt.2 h)

/-- The exponent field that R95's normal case writes. -/
theorem ofInt_exponent_toNat {q : ℤ} (hleast : -262378 ≤ q) (hfinite : q ≤ 261907) :
    ((BitVec.ofInt 19 (q + 236 + 262143)).toNat : ℤ) = q + 262379 := by
  rw [BitVec.toNat_ofInt, Int.toNat_of_nonneg (Int.emod_nonneg _ (by decide)), Int.emod_eq_of_lt] <;> omega

theorem ofInt_fraction_toNat {n : ℤ} (hnonneg : 0 ≤ n) (hfits : n < 2 ^ 236) :
    ((BitVec.ofInt 236 n).toNat : ℤ) = n := by
  rw [BitVec.toNat_ofInt, Int.toNat_of_nonneg (Int.emod_nonneg _ (by decide)), Int.emod_eq_of_lt] <;> omega

section FiniteResult

variable {n q : ℤ}

/-- The fields that R95's last two lines write. -/
theorem finishRat_fields (h : Normalised n q) (hfinite : q ≤ 261907) (s : Bool) :
    sgn (finishRat s n q) = s ∧
    ((2 ^ 236 ≤ n ∧ (expField (finishRat s n q) : ℤ) = q + 262379 ∧ (fracField (finishRat s n q) : ℤ) = n - 2 ^ 236) ∨
      (n < 2 ^ 236 ∧ expField (finishRat s n q) = 0 ∧ (fracField (finishRat s n q) : ℤ) = n)) := by
  obtain ⟨hnonneg, hfits, hleast, -⟩ := h
  rw [finishRat_of_le s n hfinite]
  split_ifs with hnormal
  · refine ⟨sgn_packFields .., .inl ⟨hnormal, ?_, ?_⟩⟩
    · rw [expField_packFields, ofInt_exponent_toNat hleast hfinite]
    · rw [fracField_packFields, ofInt_fraction_toNat] <;> omega
  · refine ⟨sgn_packFields .., .inr ⟨by omega, expField_packFields .., ?_⟩⟩
    rw [fracField_packFields, ofInt_fraction_toNat] <;> omega

theorem sgn_finishRat (h : Normalised n q) (hfinite : q ≤ 261907) (s : Bool) : sgn (finishRat s n q) = s :=
  (finishRat_fields h hfinite s).1

theorem isFinite_finishRat (h : Normalised n q) (hfinite : q ≤ 261907) (s : Bool) :
    isFinite (finishRat s n q) = true := by
  rw [isFinite_iff]
  obtain ⟨-, ⟨-, hexp, -⟩ | ⟨-, hexp, -⟩⟩ := finishRat_fields h hfinite s <;> omega

theorem sig_finishRat (h : Normalised n q) (hfinite : q ≤ 261907) (s : Bool) : (sig (finishRat s n q) : ℤ) = n := by
  have hleast := h.least
  rw [sig_eq]
  obtain ⟨-, ⟨-, hexp, hfrac⟩ | ⟨-, hexp, hfrac⟩⟩ := finishRat_fields h hfinite s
  · rw [if_neg (by omega)]
    omega
  · rw [if_pos (.inl hexp), hfrac]

theorem lastExp_finishRat (h : Normalised n q) (hfinite : q ≤ 261907) (s : Bool) : lastExp (finishRat s n q) = q := by
  have hleast := h.least
  rw [lastExp_eq]
  obtain ⟨-, ⟨-, hexp, -⟩ | ⟨hsub, hexp, -⟩⟩ := finishRat_fields h hfinite s
  · omega
  · have hq := h.leading hsub
    omega

/-- R92's value of the float of a pair. -/
theorem valRat_finishRat (h : Normalised n q) (hfinite : q ≤ 261907) (s : Bool) :
    valRat (finishRat s n q) = (if s then -1 else 1) * ((n : ℚ) * (2 : ℚ) ^ q) := by
  have hsig : (sig (finishRat s n q) : ℚ) = n := by exact_mod_cast sig_finishRat h hfinite s
  rw [valRat, sgn_finishRat h hfinite, hsig, lastExp_finishRat h hfinite, mul_assoc]

end FiniteResult

/-- Sign, significand and exponent tell the finite floats apart. -/
theorem finite_ext {x y : Packed} (hx : isFinite x = true) (hy : isFinite y = true) (hs : sgn x = sgn y)
    (hsig : sig x = sig y) (hlast : lastExp x = lastExp y) : x = y := by
  have hex := (isFinite_iff x).1 hx
  have hey := (isFinite_iff y).1 hy
  have hfx := fracField_lt x
  have hfy := fracField_lt y
  rw [lastExp_eq, lastExp_eq] at hlast
  rw [sig_eq, sig_eq] at hsig
  have hfields : expField x = expField y ∧ fracField x = fracField y := by
    split_ifs at hsig <;> omega
  exact packed_ext hs hfields.1 hfields.2

/-- Building the float of a finite float's own pair gives that float. -/
theorem finishRat_of_isFinite {x : Packed} (h : isFinite x = true) : finishRat (sgn x) (sig x) (lastExp x) = x := by
  have hnorm := normalised_of_isFinite h
  have hle := lastExp_le_of_isFinite h
  exact finite_ext (isFinite_finishRat hnorm hle _) h (sgn_finishRat hnorm hle _)
    (Int.ofNat.inj (sig_finishRat hnorm hle _)) (lastExp_finishRat hnorm hle _)

end Sys2Proof.Machine
end

section
/-! RoundPack over the rationals (R95): the ULP exponent by its bounds, the rounded significand, and the pair that the
result is built from. The integer routine agrees line by line; a magnitude that is a finite float's comes back
unchanged. -/

namespace Sys2Proof.Machine

open Sys2Proof.Reference

/-! ### The integer routine is the rational one -/

theorem packRounded_eq_finishRat (s : Bool) (n : ℕ) (q : ℤ) : packRounded s n q = finishRat s n q := by
  by_cases hover : 261907 < q
  · rw [finishRat_of_overflow s n hover]
    exact if_pos hover
  · rw [packRounded, if_neg (show ¬ Config.emax - Config.fracBits < q from hover), finishRat_of_le s n (not_lt.1 hover)]
    by_cases hnormal : 2 ^ 236 ≤ n
    · rw [if_pos hnormal, if_pos (by exact_mod_cast hnormal), ← BitVec.ofInt_natCast, Nat.cast_sub hnormal]
      rfl
    · rw [if_neg hnormal, if_neg (by exact_mod_cast hnormal), BitVec.ofInt_natCast]

/-- Settles O31: logarithm, scaled rounding and the last lines agree one by one. -/
theorem roundPackRefinesRationalRounding : Obligations.RoundPackRefinesRationalRounding := by
  unfold Obligations.RoundPackRefinesRationalRounding
  intro sg num den e hnum hden
  have hulp : max (floorLog2 num den e - Config.fracBits) (Config.emin - Config.fracBits) =
      ulpExp ((num : ℚ) / den * (2 : ℚ) ^ e) := by
    rw [floorLog2_eq hnum hden]
    rfl
  have hround (q : ℤ) : (rneScaled num den (e - q) : ℤ) = rneRat ((num : ℚ) / den * (2 : ℚ) ^ e / (2 : ℚ) ^ q) := by
    rw [rneScaled_eq_rneRat num hden, zpow_sub₀ two_ne_zero, mul_div_assoc]
  rw [roundPack, roundPackRat, hulp, ← hround]
  simp only [packRounded_eq_finishRat]
  by_cases hcarry : rneScaled num den (e - ulpExp ((num : ℚ) / den * (2 : ℚ) ^ e)) = 2 ^ 237
  · rw [if_pos hcarry, if_pos (by exact_mod_cast hcarry)]
    rfl
  · rw [if_neg hcarry, if_neg (by exact_mod_cast hcarry)]

/-! ### The ULP exponent -/

theorem ulpExp_least (v : ℚ) : -262378 ≤ ulpExp v := le_max_right _ _

/-- The bounds that fix the ULP exponent q: v has at most 237 bits above 2^q, and all of them unless q is the least. -/
theorem lt_zpow_ulpExp {v : ℚ} (hv : 0 < v) : v < (2 : ℚ) ^ (ulpExp v + 237) := by
  have hlog : Int.log 2 v < ulpExp v + 237 := by
    have := le_max_left (Int.log 2 v - 236) (-262142 - 236)
    rw [ulpExp]
    omega
  exact_mod_cast (Int.lt_zpow_iff_log_lt (b := 2) (by decide) hv).2 hlog

theorem zpow_ulpExp_le {v : ℚ} (hv : 0 < v) (h : ulpExp v ≠ -262378) : (2 : ℚ) ^ (ulpExp v + 236) ≤ v := by
  have hlog : ulpExp v + 236 ≤ Int.log 2 v := by
    rw [ulpExp] at h ⊢
    omega
  exact_mod_cast (Int.zpow_le_iff_le_log (b := 2) (by decide) hv).2 hlog

theorem ulpExp_eq_of_bounds {v : ℚ} {q : ℤ} (hv : 0 < v) (hleast : -262378 ≤ q) (hlt : v < (2 : ℚ) ^ (q + 237))
    (hle : q ≠ -262378 → (2 : ℚ) ^ (q + 236) ≤ v) : ulpExp v = q := by
  have hlog : Int.log 2 v < q + 237 := (Int.lt_zpow_iff_log_lt (b := 2) (by decide) hv).1 (by exact_mod_cast hlt)
  have hlog' (hq : q ≠ -262378) : q + 236 ≤ Int.log 2 v :=
    (Int.zpow_le_iff_le_log (b := 2) (by decide) hv).1 (by exact_mod_cast hle hq)
  rw [ulpExp]
  omega

/-! ### The rounded significand -/

/-- R95's n before a carry into a new binade: v rounded to a multiple of its ULP. -/
def roundedSig (v : ℚ) : ℤ := rneRat (v / (2 : ℚ) ^ ulpExp v)

theorem div_ulp_lt {v : ℚ} (hv : 0 < v) : v / (2 : ℚ) ^ ulpExp v < 2 ^ 237 := by
  rw [div_lt_iff₀ (zpow_pos two_pos _), ← zpow_natCast, ← zpow_add₀ two_ne_zero, add_comm]
  exact lt_zpow_ulpExp hv

theorem le_div_ulp {v : ℚ} (hv : 0 < v) (h : ulpExp v ≠ -262378) : 2 ^ 236 ≤ v / (2 : ℚ) ^ ulpExp v := by
  rw [le_div_iff₀ (zpow_pos two_pos _), ← zpow_natCast, ← zpow_add₀ two_ne_zero, add_comm]
  exact zpow_ulpExp_le hv h

theorem roundedSig_nonneg {v : ℚ} (hv : 0 < v) : 0 ≤ roundedSig v :=
  le_rneRat (by exact_mod_cast (div_pos hv (zpow_pos two_pos _)).le)

theorem roundedSig_le {v : ℚ} (hv : 0 < v) : roundedSig v ≤ 2 ^ 237 :=
  rneRat_le (by exact_mod_cast (div_ulp_lt hv).le)

theorem le_roundedSig {v : ℚ} (hv : 0 < v) (h : ulpExp v ≠ -262378) : 2 ^ 236 ≤ roundedSig v :=
  le_rneRat (by exact_mod_cast le_div_ulp hv h)

/-- RoundPack builds the float of a normalised pair, whose value is v rounded to a multiple of its ULP: the carry into a
new binade keeps that value, and keeps an even significand even. -/
theorem exists_roundPackRat_eq {v : ℚ} (hv : 0 < v) : ∃ n q : ℤ, Normalised n q ∧
    (∀ s, roundPackRat s v = finishRat s n q) ∧
    (n : ℚ) * (2 : ℚ) ^ q = (roundedSig v : ℚ) * (2 : ℚ) ^ ulpExp v ∧
    (roundedSig v % 2 = 0 → n % 2 = 0) := by
  have hleast := ulpExp_least v
  have hle := roundedSig_le hv
  by_cases hcarry : roundedSig v = 2 ^ 237
  · refine ⟨2 ^ 236, ulpExp v + 1, ?_, fun s => if_pos hcarry, ?_, fun _ => by decide⟩
    · constructor <;> omega
    · rw [hcarry, zpow_add_one₀ two_ne_zero]
      push_cast
      ring
  · refine ⟨roundedSig v, ulpExp v, ?_, fun s => if_neg hcarry, rfl, id⟩
    have hnonneg := roundedSig_nonneg hv
    have hleading := le_roundedSig hv
    constructor <;> omega

/-! ### A representable magnitude -/

/-- The ULP exponent of a pair's magnitude is the pair's own. -/
theorem Normalised.ulpExp_eq {n q : ℤ} (h : Normalised n q) (hn : 0 < n) : ulpExp ((n : ℚ) * (2 : ℚ) ^ q) = q := by
  have hp : (0 : ℚ) < (2 : ℚ) ^ q := zpow_pos two_pos q
  have hpos : (0 : ℚ) < n := by exact_mod_cast hn
  have hfits : (n : ℚ) < 2 ^ 237 := by exact_mod_cast h.fits
  refine ulpExp_eq_of_bounds (mul_pos hpos hp) h.least ?_ fun hq => ?_
  · rw [add_comm, zpow_add₀ two_ne_zero]
    exact_mod_cast mul_lt_mul_of_pos_right hfits hp
  · have hlead : (2 ^ 236 : ℤ) ≤ n := not_lt.1 fun hlt => hq (h.leading hlt)
    rw [add_comm, zpow_add₀ two_ne_zero]
    exact_mod_cast mul_le_mul_of_nonneg_right (Int.cast_le (R := ℚ).2 hlead) hp.le

/-- RoundPack of the magnitude of a pair is the float of that pair (R96 (d)). -/
theorem Normalised.roundPackRat_eq {n q : ℤ} (h : Normalised n q) (hn : 0 < n) (s : Bool) :
    roundPackRat s ((n : ℚ) * (2 : ℚ) ^ q) = finishRat s n q := by
  have hround : rneRat ((n : ℚ) * (2 : ℚ) ^ q / (2 : ℚ) ^ q) = n := by
    rw [mul_div_cancel_right₀ _ (zpow_pos two_pos q).ne', rneRat_intCast]
  have hfits := h.fits
  rw [roundPackRat, h.ulpExp_eq hn, hround, if_neg hfits.ne]

theorem sig_pos {x : Packed} (hfin : isFinite x = true) (hzero : isZero x = false) : 0 < sig x :=
  Nat.pos_of_ne_zero fun h => Bool.eq_false_iff.1 hzero ((sig_eq_zero_iff hfin).1 h)

/-- RoundPack of a finite float's sign and magnitude is that float (R96 (d)). -/
theorem roundPackRat_of_isFinite {x : Packed} (hfin : isFinite x = true) (hzero : isZero x = false) :
    roundPackRat (sgn x) ((sig x : ℚ) * (2 : ℚ) ^ lastExp x) = x := by
  have hpos : (0 : ℤ) < sig x := Int.natCast_pos.2 (sig_pos hfin hzero)
  have h := (normalised_of_isFinite hfin).roundPackRat_eq hpos (sgn x)
  rw [finishRat_of_isFinite hfin] at h
  exact_mod_cast h

/-- The integer routine on an integer significand (R99). -/
theorem roundPack_eq_roundPackRat (s : Bool) {m : ℕ} (hm : 0 < m) (q : ℤ) :
    roundPack s m 1 q = roundPackRat s ((m : ℚ) * (2 : ℚ) ^ q) := by
  rw [roundPackRefinesRationalRounding s m 1 q hm one_pos, Nat.cast_one, div_one]

/-- Packing a finite float's significand, exponent and sign gives that float (R99). -/
theorem roundPack_of_isFinite {x : Packed} (hfin : isFinite x = true) (hzero : isZero x = false) :
    roundPack (sgn x) (sig x) 1 (lastExp x) = x := by
  rw [roundPack_eq_roundPackRat _ (sig_pos hfin hzero), roundPackRat_of_isFinite hfin hzero]

/-- Settles O33: the sign and magnitude of the exact value are those of the float. -/
theorem exactResultIsReturnedUnchanged : Obligations.ExactResultIsReturnedUnchanged := by
  unfold Obligations.ExactResultIsReturnedUnchanged
  intro x hfin hzero
  have hpos := sig_pos hfin hzero
  have hsign : decide ((val x).mant < 0) = sgn x := by
    cases hs : sgn x <;> simp [val, hs, hpos]
  have hmag : (val x).mant.natAbs = sig x := by
    cases hs : sgn x <;> simp [val, hs]
  rw [roundExact, hsign, hmag]
  exact roundPack_of_isFinite hfin hzero

end Sys2Proof.Machine
end

section
/-! RoundPack is rounding to the nearest finite float (R95, R96 (a)). A finite float is either a multiple of the
rounded magnitude's ULP, where rounding to an integer is nearest, or it lies below the binade of the magnitude, where it
is farther away than the binade's own least float. -/

namespace Sys2Proof.Machine

open Sys2Proof.Reference

/-! ### Values and signs -/

/-- An error is the same on both sides of zero. -/
theorem abs_signed_sub (sg : Bool) (a v : ℚ) :
    |(if sg then -1 else 1) * a - (if sg then -v else v)| = |a - v| := by
  cases sg with
  | false => simp
  | true => rw [if_pos rfl, if_pos rfl, neg_one_mul, neg_sub_neg, abs_sub_comm]

theorem abs_valRat (x : Packed) : |valRat x| = (sig x : ℚ) * (2 : ℚ) ^ lastExp x := by
  have hmag : 0 ≤ (sig x : ℚ) * (2 : ℚ) ^ lastExp x := mul_nonneg (Nat.cast_nonneg _) (zpow_pos two_pos _).le
  rw [valRat, mul_assoc, abs_mul, abs_of_nonneg hmag]
  cases sgn x <;> simp

/-- Among the finite floats only the zeros have the value 0. -/
theorem valRat_eq_zero_iff {x : Packed} (h : isFinite x = true) : valRat x = 0 ↔ isZero x = true := by
  rw [← abs_eq_zero, abs_valRat, mul_eq_zero, or_iff_left (zpow_pos two_pos _).ne', Nat.cast_eq_zero, sig_eq_zero_iff h]

theorem decide_valRat_neg {x : Packed} (hfin : isFinite x = true) (hzero : isZero x = false) :
    decide (valRat x < 0) = sgn x := by
  have hmag : 0 < (sig x : ℚ) * (2 : ℚ) ^ lastExp x :=
    mul_pos (Nat.cast_pos.2 (sig_pos hfin hzero)) (zpow_pos two_pos _)
  rw [valRat, mul_assoc]
  cases sgn x with
  | false => simpa using hmag.le
  | true => simpa using hmag

/-- A finite non-zero float is the rounding of its own value (R96 (d)), so its value determines it. -/
theorem roundPackRat_valRat {x : Packed} (hfin : isFinite x = true) (hzero : isZero x = false) :
    roundPackRat (decide (valRat x < 0)) |valRat x| = x := by
  rw [decide_valRat_neg hfin hzero, abs_valRat, roundPackRat_of_isFinite hfin hzero]

theorem eq_of_valRat_eq {x y : Packed} (hx : isFinite x = true) (hy : isFinite y = true) (hzero : isZero x = false)
    (h : valRat x = valRat y) : x = y := by
  have hzero' : isZero y = false := by
    rw [← Bool.not_eq_true, ← valRat_eq_zero_iff hy, ← h, valRat_eq_zero_iff hx, Bool.not_eq_true]
    exact hzero
  rw [← roundPackRat_valRat hx hzero, ← roundPackRat_valRat hy hzero', h]

/-! ### Where a magnitude overflows -/

theorem two_mul_zpow_le {p q : ℤ} (h : p < q) : 2 * (2 : ℚ) ^ p ≤ (2 : ℚ) ^ q := by
  rw [← zpow_one_add₀ two_ne_zero]
  exact zpow_le_zpow_right₀ one_le_two (by omega)

/-- A pair's exponent is bounded exactly by its value. -/
theorem Normalised.exp_le_iff {n q Q : ℤ} (h : Normalised n q) (hQ : -262378 ≤ Q) :
    q ≤ Q ↔ (n : ℚ) * (2 : ℚ) ^ q < 2 ^ 237 * (2 : ℚ) ^ Q := by
  have hp : (0 : ℚ) < (2 : ℚ) ^ q := zpow_pos two_pos _
  constructor
  · intro hle
    have hfits : (n : ℚ) < 2 ^ 237 := by exact_mod_cast h.fits
    calc (n : ℚ) * (2 : ℚ) ^ q < 2 ^ 237 * (2 : ℚ) ^ q := mul_lt_mul_of_pos_right hfits hp
      _ ≤ 2 ^ 237 * (2 : ℚ) ^ Q := mul_le_mul_of_nonneg_left (zpow_le_zpow_right₀ one_le_two hle) (by positivity)
  · contrapose!
    intro hlt
    have hleading : (2 ^ 236 : ℤ) ≤ n := not_lt.1 fun hsub => by have := h.leading hsub; omega
    have hleading' : (2 ^ 236 : ℚ) ≤ n := by exact_mod_cast hleading
    calc 2 ^ 237 * (2 : ℚ) ^ Q = 2 ^ 236 * (2 * (2 : ℚ) ^ Q) := by ring
      _ ≤ 2 ^ 236 * (2 : ℚ) ^ q := mul_le_mul_of_nonneg_left (two_mul_zpow_le hlt) (by positivity)
      _ ≤ n * (2 : ℚ) ^ q := mul_le_mul_of_nonneg_right hleading' hp.le

/-- A magnitude rounds below 2^237 2^Q exactly when it is below (2^237 - 1/2) 2^Q. -/
theorem rounded_lt_iff {v : ℚ} {Q : ℤ} (hv : 0 < v) (hQ : -262378 ≤ Q) :
    (roundedSig v : ℚ) * (2 : ℚ) ^ ulpExp v < 2 ^ 237 * (2 : ℚ) ^ Q ↔ v < (2 ^ 237 - 1 / 2) * (2 : ℚ) ^ Q := by
  have hp : (0 : ℚ) < (2 : ℚ) ^ ulpExp v := zpow_pos two_pos _
  have hv_eq : v = v / (2 : ℚ) ^ ulpExp v * (2 : ℚ) ^ ulpExp v := (div_mul_cancel₀ v hp.ne').symm
  rcases lt_trichotomy (ulpExp v) Q with hlt | heq | hgt
  · have hstep := two_mul_zpow_le hlt
    have hdiv := mul_lt_mul_of_pos_right (div_ulp_lt hv) hp
    have hsig : (roundedSig v : ℚ) ≤ 2 ^ 237 := by exact_mod_cast roundedSig_le hv
    have hround := mul_le_mul_of_nonneg_right hsig hp.le
    rw [← hv_eq] at hdiv
    constructor <;> intro <;> linarith
  · have heven := rneRat_lt_iff_of_even (j := 2 ^ 237) (by decide) (v / (2 : ℚ) ^ ulpExp v)
    rw [← heq, mul_lt_mul_iff_left₀ hp, ← div_lt_iff₀ hp]
    exact_mod_cast heven
  · have hstep := two_mul_zpow_le hgt
    have hne : ulpExp v ≠ -262378 := by omega
    have hdiv := mul_le_mul_of_nonneg_right (le_div_ulp hv hne) hp.le
    have hsig : (2 ^ 236 : ℚ) ≤ roundedSig v := by exact_mod_cast le_roundedSig hv hne
    have hround := mul_le_mul_of_nonneg_right hsig hp.le
    have hQpos : (0 : ℚ) < (2 : ℚ) ^ Q := zpow_pos two_pos _
    rw [← hv_eq] at hdiv
    constructor <;> intro <;> linarith

/-- R96 (a): the least magnitude that rounds to an infinity. -/
def overflowBound : ℚ := ((2 : ℚ) ^ (237 : ℤ) - 1 / 2) * (2 : ℚ) ^ (261907 : ℤ)

theorem overflowBound_pos : 0 < overflowBound := mul_pos (by norm_num) (zpow_pos two_pos _)

/-- A rounded magnitude's pair is a finite float's exactly below the overflow bound. -/
theorem Normalised.exp_le_iff_lt_overflowBound {n q : ℤ} {v : ℚ} (h : Normalised n q) (hv : 0 < v)
    (hval : (n : ℚ) * (2 : ℚ) ^ q = (roundedSig v : ℚ) * (2 : ℚ) ^ ulpExp v) : q ≤ 261907 ↔ v < overflowBound := by
  rw [h.exp_le_iff (by decide), hval, rounded_lt_iff hv (by decide), overflowBound, zpow_ofNat (2 : ℚ) 237]

/-! ### No finite float is nearer -/

/-- An error in units of the ULP. -/
theorem abs_mul_ulp_sub (v : ℚ) (j : ℤ) :
    |(j : ℚ) * (2 : ℚ) ^ ulpExp v - v| = |v / (2 : ℚ) ^ ulpExp v - j| * (2 : ℚ) ^ ulpExp v := by
  have hp : (0 : ℚ) < (2 : ℚ) ^ ulpExp v := zpow_pos two_pos _
  rw [abs_sub_comm, ← abs_of_pos hp, ← abs_mul, abs_of_pos hp, sub_mul, div_mul_cancel₀ v hp.ne']

/-- A dyadic value at an exponent not below the ULP is a multiple of the ULP. -/
theorem exists_mul_zpow_eq (c : ℤ) {p q : ℤ} (h : q ≤ p) : ∃ j : ℤ, (c : ℚ) * (2 : ℚ) ^ p = j * (2 : ℚ) ^ q := by
  obtain ⟨k, rfl⟩ := Int.le.dest h
  refine ⟨c * 2 ^ k, ?_⟩
  rw [zpow_add₀ two_ne_zero, zpow_natCast]
  push_cast
  ring

section Nearest

variable {v : ℚ} {c p : ℤ}

/-- A value of at most 237 bits at a smaller exponent lies below v's binade and is farther away than the rounded one. -/
theorem abs_rounded_sub_lt_of_below (hv : 0 < v) (hc : c < 2 ^ 237) (hleast : -262378 ≤ p) (hp : p < ulpExp v) :
    |(roundedSig v : ℚ) * (2 : ℚ) ^ ulpExp v - v| < |(c : ℚ) * (2 : ℚ) ^ p - v| := by
  have hne : ulpExp v ≠ -262378 := by omega
  have hulp : (0 : ℚ) < (2 : ℚ) ^ ulpExp v := zpow_pos two_pos _
  have hbinade : 2 ^ 236 * (2 : ℚ) ^ ulpExp v ≤ v := (le_div_iff₀ hulp).1 (le_div_ulp hv hne)
  have hbelow : (c : ℚ) * (2 : ℚ) ^ p < 2 ^ 236 * (2 : ℚ) ^ ulpExp v :=
    calc (c : ℚ) * (2 : ℚ) ^ p < 2 ^ 237 * (2 : ℚ) ^ p :=
          mul_lt_mul_of_pos_right (by exact_mod_cast hc) (zpow_pos two_pos p)
      _ = 2 ^ 236 * (2 * (2 : ℚ) ^ p) := by ring
      _ ≤ 2 ^ 236 * (2 : ℚ) ^ ulpExp v := mul_le_mul_of_nonneg_left (two_mul_zpow_le hp) (by positivity)
  calc |(roundedSig v : ℚ) * (2 : ℚ) ^ ulpExp v - v| ≤ |((2 ^ 236 : ℤ) : ℚ) * (2 : ℚ) ^ ulpExp v - v| := by
        rw [abs_mul_ulp_sub, abs_mul_ulp_sub]
        exact mul_le_mul_of_nonneg_right (abs_sub_rneRat_le _ _) hulp.le
    _ = v - 2 ^ 236 * (2 : ℚ) ^ ulpExp v := by
        rw [Int.cast_pow, Int.cast_ofNat, abs_sub_comm, abs_of_nonneg (sub_nonneg.2 hbinade)]
    _ < v - c * (2 : ℚ) ^ p := by linarith
    _ ≤ |(c : ℚ) * (2 : ℚ) ^ p - v| := by
        rw [abs_sub_comm]
        exact le_abs_self _

/-- No value of at most 237 bits at an exponent of at least EMIN - 236 is nearer to v than the rounded one. -/
theorem abs_rounded_sub_le (hv : 0 < v) (hc : c < 2 ^ 237) (hleast : -262378 ≤ p) :
    |(roundedSig v : ℚ) * (2 : ℚ) ^ ulpExp v - v| ≤ |(c : ℚ) * (2 : ℚ) ^ p - v| := by
  rcases lt_or_ge p (ulpExp v) with hp | hp
  · exact (abs_rounded_sub_lt_of_below hv hc hleast hp).le
  · obtain ⟨j, hj⟩ := exists_mul_zpow_eq c hp
    rw [hj, abs_mul_ulp_sub, abs_mul_ulp_sub]
    exact mul_le_mul_of_nonneg_right (abs_sub_rneRat_le _ _) (zpow_pos two_pos _).le

/-- When another value is as near, the rounded significand is even. -/
theorem roundedSig_even_of_abs_sub_eq (hv : 0 < v) (hc : c < 2 ^ 237) (hleast : -262378 ≤ p)
    (hne : (c : ℚ) * (2 : ℚ) ^ p ≠ roundedSig v * (2 : ℚ) ^ ulpExp v)
    (htie : |(c : ℚ) * (2 : ℚ) ^ p - v| = |(roundedSig v : ℚ) * (2 : ℚ) ^ ulpExp v - v|) : roundedSig v % 2 = 0 := by
  rcases lt_or_ge p (ulpExp v) with hp | hp
  · exact absurd htie (abs_rounded_sub_lt_of_below hv hc hleast hp).ne'
  · obtain ⟨j, hj⟩ := exists_mul_zpow_eq c hp
    rw [hj, abs_mul_ulp_sub, abs_mul_ulp_sub] at htie
    rw [hj] at hne
    exact rneRat_even_of_abs_sub_eq (fun h => hne (by rw [h]; rfl)) (mul_right_cancel₀ (zpow_pos two_pos _).ne' htie)

end Nearest

/-! ### RoundPack's result -/

/-- A finite float's significand, negative when the float's sign is not `sg`. -/
def relSig (sg : Bool) (z : Packed) : ℤ := if sgn z = sg then sig z else -(sig z : ℤ)

theorem valRat_eq_relSig (sg : Bool) (z : Packed) :
    valRat z = (if sg then -1 else 1) * ((relSig sg z : ℚ) * (2 : ℚ) ^ lastExp z) := by
  rw [valRat, relSig]
  cases sg <;> cases sgn z <;> simp

theorem relSig_lt {z : Packed} (sg : Bool) (h : isFinite z = true) : relSig sg z < 2 ^ 237 := by
  have hnorm := normalised_of_isFinite h
  have hnonneg := hnorm.nonneg
  have hfits := hnorm.fits
  rw [relSig]
  split_ifs <;> omega

/-- Below the overflow bound RoundPack gives a finite float of the sign asked for, whose value is v rounded to a
multiple of its ULP and whose fraction is even when the rounded significand is. -/
theorem roundPackRat_of_lt {v : ℚ} (hv : 0 < v) (hlt : v < overflowBound) (s : Bool) :
    isFinite (roundPackRat s v) = true ∧ sgn (roundPackRat s v) = s ∧
    valRat (roundPackRat s v) = (if s then -1 else 1) * ((roundedSig v : ℚ) * (2 : ℚ) ^ ulpExp v) ∧
    (roundedSig v % 2 = 0 → fracField (roundPackRat s v) % 2 = 0) := by
  obtain ⟨n, q, hnorm, hpack, hval, heven⟩ := exists_roundPackRat_eq hv
  have hfinite : q ≤ 261907 := (hnorm.exp_le_iff_lt_overflowBound hv hval).2 hlt
  rw [hpack, ← hval]
  refine ⟨isFinite_finishRat hnorm hfinite s, sgn_finishRat hnorm hfinite s, valRat_finishRat hnorm hfinite s,
    fun hround => ?_⟩
  have hn := heven hround
  have hsig := sig_finishRat hnorm hfinite s
  rw [← sig_mod_two]
  omega

/-- From the overflow bound on RoundPack gives an infinity (R96 (a)). -/
theorem roundPackRat_of_le {v : ℚ} (hle : overflowBound ≤ v) (s : Bool) :
    roundPackRat s v = infOf s := by
  have hv : 0 < v := overflowBound_pos.trans_le hle
  obtain ⟨n, q, hnorm, hpack, hval, -⟩ := exists_roundPackRat_eq hv
  have hover : ¬ q ≤ 261907 := fun h => hle.not_gt ((hnorm.exp_le_iff_lt_overflowBound hv hval).1 h)
  rw [hpack, finishRat_of_overflow s n (not_le.1 hover)]

/-- No finite float is nearer to the signed magnitude, and the fraction is even when another is as near. -/
theorem roundPackRat_nearest {v : ℚ} (hv : 0 < v) (hlt : v < overflowBound) (s : Bool)
    {z : Packed} (hz : isFinite z = true) :
    |valRat (roundPackRat s v) - (if s then -v else v)| ≤ |valRat z - (if s then -v else v)| ∧
    (z ≠ roundPackRat s v →
      |valRat z - (if s then -v else v)| = |valRat (roundPackRat s v) - (if s then -v else v)| →
      fracField (roundPackRat s v) % 2 = 0) := by
  obtain ⟨hfin, -, hval, heven⟩ := roundPackRat_of_lt hv hlt s
  have hleast := (normalised_of_isFinite hz).least
  have hbits := relSig_lt s hz
  have hvalz := valRat_eq_relSig s z
  rw [hval, hvalz, abs_signed_sub, abs_signed_sub]
  refine ⟨abs_rounded_sub_le hv hbits hleast, fun hne htie => ?_⟩
  by_cases hsame : valRat z = valRat (roundPackRat s v)
  · have hzero : isZero (roundPackRat s v) = true := by
      by_contra h
      exact hne (eq_of_valRat_eq hfin hz (Bool.not_eq_true _ ▸ h) hsame.symm).symm
    rw [((isZero_iff _).1 hzero).2]
  · refine heven (roundedSig_even_of_abs_sub_eq hv hbits hleast (fun h => hsame ?_) htie)
    rw [hval, hvalz, h]

/-- Settles O32: the magnitude's overflow bound, and below it the nearest finite float. -/
theorem roundPackGivesTheNearestFloat : Obligations.RoundPackGivesTheNearestFloat := by
  unfold Obligations.RoundPackGivesTheNearestFloat
  intro sg num den e v hnum hden hv
  have hpos : 0 < v := hv ▸ mul_pos (div_pos (Nat.cast_pos.2 hnum) (Nat.cast_pos.2 hden)) (zpow_pos two_pos e)
  rw [roundPackRefinesRationalRounding sg num den e hnum hden, ← hv]
  refine ⟨fun hlt => ?_, fun hle => roundPackRat_of_le hle sg⟩
  obtain ⟨hfin, hsgn, -⟩ := roundPackRat_of_lt hpos hlt sg
  refine ⟨hfin, hsgn, fun z hz => ?_⟩
  rw [fracBits, ← fracField_eq]
  exact roundPackRat_nearest hpos hlt sg hz

end Sys2Proof.Machine
end

section
/-! FCLASS, FUNPACK and FPACK (43_float_format.md R97 to R99). Each is one completing command; what is left is the class
by field positions, the triple as three registers hold it, and that RoundPack gives no NaN. -/

namespace Sys2Proof.Machine

open Sys2Proof.Reference

/-! ### Fields by position -/

theorem expBits_eq (x : Packed) : expBits x = expField x := (expField_eq x).symm

theorem fracBits_eq (x : Packed) : fracBits x = fracField x := (fracField_eq x).symm

theorem negBit_iff (x : Packed) : negBit x ↔ sgn x = true := by
  rw [sgn_eq, decide_eq_true_eq, negBit]

/-! ### Class codes (R97) -/

section ClassCode

variable {x : Packed}

theorem classOf_eq_nan (he : expField x = 524287) (hf : fracField x ≠ 0) : classOf x = .nan := by
  simp [classOf, he, hf]

theorem classOf_eq_infinity (he : expField x = 524287) (hf : fracField x = 0) : classOf x = .infinity := by
  simp [classOf, he, hf]

theorem classOf_eq_normal (hlow : 1 ≤ expField x) (hhigh : expField x ≤ 524286) : classOf x = .normal := by
  have hzero : expField x ≠ 0 := by omega
  have hones : expField x ≠ 524287 := by omega
  simp [classOf, hzero, hones]

theorem classOf_eq_subnormal (he : expField x = 0) (hf : fracField x ≠ 0) : classOf x = .subnormal := by
  simp [classOf, he, hf]

theorem classOf_eq_zero (he : expField x = 0) (hf : fracField x = 0) : classOf x = .zero := by
  simp [classOf, he, hf]

theorem classCode_of_nan (h : classOf x = .nan) : classCode x = 0 := by
  rw [classCode, h]

theorem classCode_of_infinity (h : classOf x = .infinity) : classCode x = if sgn x then 1 else 8 := by
  rw [classCode, h]
  cases sgn x <;> rfl

theorem classCode_of_normal (h : classOf x = .normal) : classCode x = if sgn x then 2 else 7 := by
  rw [classCode, h]
  cases sgn x <;> rfl

theorem classCode_of_subnormal (h : classOf x = .subnormal) : classCode x = if sgn x then 3 else 6 := by
  rw [classCode, h]
  cases sgn x <;> rfl

theorem classCode_of_zero (h : classOf x = .zero) : classCode x = if sgn x then 4 else 5 := by
  rw [classCode, h]
  cases sgn x <;> rfl

theorem classCode_lt (x : Packed) : classCode x < 9 := by
  rw [classCode]
  cases classOf x <;> cases sgn x <;> decide

/-- A code chosen by the sign, as the two clauses of a statement. -/
theorem clauses_of_eq_ite_sgn {c neg pos : ℕ} (h : c = if sgn x then neg else pos) :
    (negBit x → c = neg) ∧ (¬ negBit x → c = pos) := by
  rw [negBit_iff]
  exact ⟨fun hs => by rw [h, if_pos hs], fun hs => by rw [h, if_neg hs]⟩

end ClassCode

/-- Settles O22: the one result is the class code, and the fields tell the class. -/
theorem fclassCodesByFields : Obligations.FclassCodesByFields := by
  unfold Obligations.FclassCodesByFields
  intro rd rs1 s
  have hfits : classCode (s.readFloat rs1) < 2 ^ bits .w128 := (classCode_lt _).trans (by decide)
  obtain ⟨t, hexec, hcode, hdone⟩ := exec_one_int (i := .fclass rd rs1) (s := s) rfl rfl hfits
  refine ⟨encodes_fields (Instr.wf_of_dests_singleton rfl), t, hexec, hdone, ?_⟩
  rw [hcode, expBits_eq, fracBits_eq]
  refine ⟨?_, ?_, ?_, ?_, ?_⟩
  · exact fun ⟨he, hf⟩ => classCode_of_nan (classOf_eq_nan he hf)
  · exact fun ⟨he, hf⟩ => clauses_of_eq_ite_sgn (classCode_of_infinity (classOf_eq_infinity he hf))
  · exact fun ⟨hlow, hhigh⟩ => clauses_of_eq_ite_sgn (classCode_of_normal (classOf_eq_normal hlow hhigh))
  · exact fun ⟨he, hf⟩ => clauses_of_eq_ite_sgn (classCode_of_subnormal (classOf_eq_subnormal he hf))
  · exact fun ⟨he, hf⟩ => clauses_of_eq_ite_sgn (classCode_of_zero (classOf_eq_zero he hf))

/-! ### The triple in registers (R98) -/

/-- FUNPACK's significand has at most 237 bits, for every pattern. -/
theorem sig_lt (x : Packed) : sig x < 2 ^ 237 := by
  have hfrac := fracField_lt x
  rw [sig_eq]
  split_ifs <;> omega

theorem lastExp_ge (x : Packed) : -262378 ≤ lastExp x := by
  rw [lastExp_eq]
  omega

/-- The exponent 261908 marks the non-finite classes, and none is greater (R98). -/
theorem lastExp_le (x : Packed) : lastExp x ≤ 261908 := by
  have hlt := expField_lt x
  rw [lastExp_eq]
  omega

theorem lastExp_eq_iff_not_finite (x : Packed) : lastExp x = 261908 ↔ isFinite x = false := by
  rw [← Bool.not_eq_true, isFinite_iff, lastExp_eq]
  omega

/-- An exponent as a 32-bit two's-complement value in a register (R98). -/
theorem ofInt_setWidth_toNat (q : ℤ) : (((BitVec.ofInt 32 q).setWidth 1024).toNat : ℤ) = q % 2 ^ 32 := by
  rw [BitVec.toNat_setWidth_of_le (by decide), BitVec.toNat_ofInt, Int.toNat_of_nonneg (Int.emod_nonneg _ (by decide))]
  rfl

/-- The register's low 32 bits, read as signed, are the exponent again (R99). -/
theorem ofInt_setWidth_toInt {q : ℤ} (hlow : -2 ^ 31 ≤ q) (hhigh : q < 2 ^ 31) :
    (((BitVec.ofInt 32 q).setWidth 1024).setWidth 32).toInt = q := by
  rw [BitVec.setWidth_setWidth_of_le _ (by decide), BitVec.setWidth_eq]
  exact BitVec.toInt_ofInt_eq_self (by decide) hlow hhigh

/-- Three writes to different registers: each register holds its own value. -/
theorem finish_regs_of_writesOf_triple {i : Instr} {s : State} {rd rd2 rd3 : RegId} {v v2 v3 : Data} (h12 : rd ≠ rd2)
    (h13 : rd ≠ rd3) (h23 : rd2 ≠ rd3) (h : writesOf i s = [(rd, v), (rd2, v2), (rd3, v3)]) :
    (s.finish i).reg rd = v ∧ (s.finish i).reg rd2 = v2 ∧ (s.finish i).reg rd3 = v3 := by
  rw [State.finish, h]
  simp [h12, h13, h23]

/-- What FUNPACK does: significand, exponent and sign in three different registers (R98). -/
theorem exec_funpack {rd rd2 rd3 : RegId} (h12 : rd ≠ rd2) (h13 : rd ≠ rd3) (h23 : rd2 ≠ rd3) (a : RegId) (s : State) :
    ∃ t, exec (.funpack rd rd2 rd3 a) s = .next t ∧ Completed s t [rd, rd2, rd3] s.cf ∧
      (t.reg rd).toNat = sig (s.readFloat a) ∧
      t.reg rd2 = (BitVec.ofInt 32 (lastExp (s.readFloat a))).setWidth 1024 ∧
      (t.reg rd3).toNat = (sgn (s.readFloat a)).toNat := by
  obtain ⟨hsig, hexp, hsign⟩ := finish_regs_of_writesOf_triple (i := .funpack rd rd2 rd3 a) (s := s) h12 h13 h23 rfl
  have hfits : sig (s.readFloat a) < 2 ^ bits .w256 := (sig_lt _).trans (by decide)
  have hfits' : (sgn (s.readFloat a)).toNat < 2 ^ bits .w256 := (Bool.toNat_lt _).trans (by decide)
  refine ⟨s.finish _, exec_of_noFault rfl, completed_finish s _, ?_, hexp, ?_⟩
  · rw [hsig, ofNat_toNat_of_lt_bits hfits]
  · rw [hsign, ofNat_toNat_of_lt_bits hfits']

/-- R98's significand by field positions. -/
theorem sig_eq_of_bits (x : Packed) :
    sig x = if 1 ≤ expBits x ∧ expBits x ≤ 524286 then 2 ^ 236 + fracBits x else fracBits x := by
  have hlt := expField_lt x
  rw [sig_eq, expBits_eq, fracBits_eq]
  split_ifs <;> omega

/-- Settles O23: the three results are the significand, exponent and sign that R92's value is made of. -/
theorem funpackWritesTheTriple : Obligations.FunpackWritesTheTriple := by
  unfold Obligations.FunpackWritesTheTriple
  intro rd rd2 rd3 rs1 s h12 h13 h23
  obtain ⟨t, hexec, hdone, hsig, hexp, hsign⟩ := exec_funpack h12 h13 h23 rs1 s
  have hlow := lastExp_ge (s.readFloat rs1)
  have hhigh := lastExp_le (s.readFloat rs1)
  have hword : ((t.reg rd2).toNat : ℤ) = lastExp (s.readFloat rs1) % 2 ^ 32 := by rw [hexp, ofInt_setWidth_toNat]
  refine ⟨encodes_fields (Instr.wf_iff.2 (by simp [Instr.dests, h12, h13, h23])), t, hexec, hdone, ?_, ?_, ?_, ?_,
    fun _ => ?_, ?_⟩
  · rw [hsig, sig_eq_of_bits]
  · rw [hword, expBits_eq, lastExp_eq]
  · rw [hsign, negBit_iff]
    exact fun hneg => by rw [hneg]; rfl
  · rw [hsign, negBit_iff, Bool.not_eq_true]
    exact fun hpos => by rw [hpos]; rfl
  · rw [valRat, hsig, hexp, ofInt_setWidth_toInt (by omega) (by omega), hsign]
    cases sgn (s.readFloat rs1) <;> rfl
  · rw [← lastExp_eq_iff_not_finite]
    omega

/-! ### Packing a triple (R99) -/

theorem packTriple_eq_packRat (m : ℕ) (q : ℤ) (s : Bool) : packTriple m q s = packRat m q s := by
  rw [packTriple, packRat]
  by_cases hm : m = 0
  · rw [if_pos hm, if_pos hm]
  · rw [if_neg hm, if_neg hm, roundPack_eq_roundPackRat s (Nat.pos_of_ne_zero hm)]

theorem isNaN_of_isFinite {x : Packed} (h : isFinite x = true) : isNaN x = false := by
  rw [← Bool.not_eq_true, isNaN_iff]
  exact fun hnan => (isFinite_iff x).1 h hnan.1

theorem isNaN_infOf (s : Bool) : isNaN (infOf s) = false := by
  rw [← Bool.not_eq_true, isNaN_iff, infOf, fracField_packFields]
  exact fun hnan => hnan.2 rfl

theorem isFinite_zeroOf (s : Bool) : isFinite (zeroOf s) = true := by
  rw [isFinite_iff, zeroOf, expField_packFields]
  decide

/-- Rounding gives a finite float or an infinity. -/
theorem isNaN_roundPackRat {v : ℚ} (hv : 0 < v) (s : Bool) : isNaN (roundPackRat s v) = false := by
  rcases lt_or_ge v overflowBound with hlt | hle
  · exact isNaN_of_isFinite (roundPackRat_of_lt hv hlt s).1
  · rw [roundPackRat_of_le hle]
    exact isNaN_infOf s

/-- FPACK never produces a NaN (R99). -/
theorem isNaN_packTriple (m : ℕ) (q : ℤ) (s : Bool) : isNaN (packTriple m q s) = false := by
  rw [packTriple_eq_packRat, packRat]
  split_ifs with hm
  · exact isNaN_of_isFinite (isFinite_zeroOf s)
  · exact isNaN_roundPackRat (mul_pos (Nat.cast_pos.2 (Nat.pos_of_ne_zero hm)) (zpow_pos two_pos q)) s

/-- A zero is the signed zero of its sign. -/
theorem zeroOf_sgn {x : Packed} (h : isZero x = true) : zeroOf (sgn x) = x := by
  obtain ⟨he, hf⟩ := (isZero_iff x).1 h
  refine packed_ext (sgn_packFields ..) ?_ ?_
  · rw [zeroOf, expField_packFields, he]
    rfl
  · rw [zeroOf, fracField_packFields, hf]
    rfl

/-- A finite float's own triple packs to that float (R99). -/
theorem packTriple_of_isFinite {x : Packed} (h : isFinite x = true) : packTriple (sig x) (lastExp x) (sgn x) = x := by
  rw [packTriple]
  cases hzero : isZero x with
  | true => rw [if_pos ((sig_eq_zero_iff h).2 hzero), zeroOf_sgn hzero]
  | false => rw [if_neg (sig_pos h hzero).ne', roundPack_of_isFinite h hzero]

/-- What FPACK does: one packed triple in rd (R99). -/
theorem exec_fpack (rd a b c : RegId) (s : State) :
    ∃ t, exec (.fpack rd a b c) s = .next t ∧ Completed s t [rd] s.cf ∧
      t.reg rd = (packTriple (s.readSignificand a) (s.readExponent b) (s.readSign c)).setWidth 1024 ∧
      t.readFloat rd = packTriple (s.readSignificand a) (s.readExponent b) (s.readSign c) := by
  refine ⟨s.finish _, exec_of_noFault rfl, completed_finish s _, finish_reg_of_writesOf rfl, ?_⟩
  exact readFloat_writeFloat_self s rd _

theorem readSignificand_eq (s : State) (i : RegId) : s.readSignificand i = (s.reg i).toNat % 2 ^ 256 :=
  BitVec.toNat_setWidth ..

/-- Settles O24: the one result is the packed triple, rounded once. -/
theorem fpackRoundsTheTriple : Obligations.FpackRoundsTheTriple := by
  unfold Obligations.FpackRoundsTheTriple
  intro rd rs1 rs2 rs3 s
  obtain ⟨t, hexec, hdone, hreg, hfloat⟩ := exec_fpack rd rs1 rs2 rs3 s
  refine ⟨encodes_fields (Instr.wf_of_dests_singleton rfl), t, hexec, hdone, ?_, hfloat ▸ isNaN_packTriple ..⟩
  rw [hreg, packTriple_eq_packRat, readSignificand_eq]
  rfl

/-- Settles O25: FPACK reads back the three values that FUNPACK wrote. -/
theorem fpackInvertsFunpackOnFinite : Obligations.FpackInvertsFunpackOnFinite := by
  unfold Obligations.FpackInvertsFunpackOnFinite
  intro m q g rd rs1 s hmq hmg hqg
  obtain ⟨t, hunpack, -, hsig, hexp, hsign⟩ := exec_funpack hmq hmg hqg rs1 s
  obtain ⟨u, hpack, -, -, hfloat⟩ := exec_fpack rd m q g t
  have hm : t.readSignificand m = sig (s.readFloat rs1) := by
    rw [readSignificand_eq, hsig, Nat.mod_eq_of_lt ((sig_lt _).trans (by decide))]
  have hq : t.readExponent q = lastExp (s.readFloat rs1) := by
    have hlow := lastExp_ge (s.readFloat rs1)
    have hhigh := lastExp_le (s.readFloat rs1)
    rw [State.readExponent, hexp, ofInt_setWidth_toInt (by omega) (by omega)]
  have hg : t.readSign g = sgn (s.readFloat rs1) := by
    rw [State.readSign, BitVec.getLsbD, hsign]
    cases sgn (s.readFloat rs1) <;> rfl
  refine ⟨t, u, hunpack, hpack, hfloat ▸ isNaN_packTriple .., fun hfin => ?_⟩
  rw [hfloat, hm, hq, hg, packTriple_of_isFinite hfin]

end Sys2Proof.Machine
end

section
/-! Float add, subtract, multiply, divide and fused multiply-add (44_float_arith.md R103 to R107). The integer case
tables and those over the rationals differ only in the last case, the exact result rounded once; `addFloat_eq_addRat` to
`fmaFloat_eq_fmaRat` say so, and what follows about the results is proved on the rational tables. -/

namespace Sys2Proof.Machine

open Sys2Proof.Reference

/-! ### A command whose one result is a float -/

/-- A command that raises no fault and writes one float completes with that float in rd, zero-extended, and with the
frame of R52. -/
theorem exec_one_float {i : Instr} {s : State} {rd : RegId} {x : Packed} (hok : operandFault i s = none)
    (hwrites : writesOf i s = [floatWrite rd x]) :
    ∃ t, exec i s = .next t ∧ Completed s t [rd] (carryAfter i s) ∧ t.reg rd = x.setWidth 1024 := by
  have hdests : i.dests = [rd] := by rw [← writesOf_dests i s, hwrites]; rfl
  exact ⟨s.finish i, exec_of_noFault hok, hdests ▸ completed_finish s i, finish_reg_of_writesOf hwrites⟩

/-- A float in a register is read back (R15). -/
theorem readFloat_of_reg_eq {s : State} {i : RegId} {x : Packed} (h : s.reg i = x.setWidth 1024) :
    s.readFloat i = x := by
  rw [State.readFloat, h, BitVec.setWidth_setWidth_of_le x (by decide), BitVec.setWidth_eq]

/-! ### Finite operands -/

section Operand

variable {x : Packed}

theorem isFinite_of_not (hnan : ¬ isNaN x = true) (hinf : ¬ isInf x = true) : isFinite x = true := by
  simp [isFinite, hnan, hinf]

theorem isInf_of_isFinite (h : isFinite x = true) : isInf x = false := by
  rw [← Bool.not_eq_true, isInf_iff]
  exact fun hinf => (isFinite_iff x).1 h hinf.1

theorem sig_pos_of_not (hnan : ¬ isNaN x = true) (hinf : ¬ isInf x = true) (hzero : ¬ isZero x = true) :
    0 < sig x :=
  sig_pos (isFinite_of_not hnan hinf) (Bool.not_eq_true _ ▸ hzero)

theorem abs_valRat_pos (h : 0 < sig x) : 0 < |valRat x| := by
  rw [abs_valRat]
  exact mul_pos (Nat.cast_pos.2 h) (zpow_pos two_pos _)

end Operand

/-! ### The exact result, rounded once -/

/-- R102 over the rationals: sign and magnitude of the exact result. -/
theorem roundExact_eq_roundPackRat {v : Exact} (h : v.mant ≠ 0) :
    roundExact v = roundPackRat (decide (exactRat v < 0)) |exactRat v| := by
  have hmag : |exactRat v| = (v.mant.natAbs : ℚ) * (2 : ℚ) ^ v.exp := by
    rw [exactRat, abs_mul, abs_of_pos (zpow_pos two_pos v.exp : (0 : ℚ) < _), Nat.cast_natAbs, Int.cast_abs]
  rw [roundExact, roundPack_eq_roundPackRat _ (Int.natAbs_pos.2 h), hmag, decide_eq_decide.2 (exactRat_neg_iff v)]

/-- The last case of R103 and R107: `zero` for an exact zero, else one rounding. -/
theorem ite_mant_roundExact (v : Exact) (zero : Packed) :
    (if v.mant = 0 then zero else roundExact v) =
      if exactRat v = 0 then zero else roundPackRat (decide (exactRat v < 0)) |exactRat v| := by
  by_cases h : v.mant = 0
  · rw [if_pos h, if_pos ((exactRat_eq_zero_iff v).2 h)]
  · rw [if_neg h, if_neg (mt (exactRat_eq_zero_iff v).1 h), roundExact_eq_roundPackRat h]

/-- The last case of R105. -/
theorem roundPack_mul (s : Bool) {x y : Packed} (hx : 0 < sig x) (hy : 0 < sig y) :
    roundPack s (sig x * sig y) 1 (lastExp x + lastExp y) = roundPackRat s (|valRat x| * |valRat y|) := by
  rw [roundPack_eq_roundPackRat s (Nat.mul_pos hx hy), abs_valRat, abs_valRat, zpow_add₀ two_ne_zero, Nat.cast_mul,
    mul_mul_mul_comm]

/-- The last case of R106. -/
theorem roundPack_div (s : Bool) {x y : Packed} (hx : 0 < sig x) (hy : 0 < sig y) :
    roundPack s (sig x) (sig y) (lastExp x - lastExp y) = roundPackRat s (|valRat x| / |valRat y|) := by
  rw [roundPackRefinesRationalRounding s _ _ _ hx hy, abs_valRat, abs_valRat, zpow_sub₀ two_ne_zero,
    div_mul_div_comm]

/-! ### The case tables agree -/

theorem addFloat_eq_addRat (x y : Packed) : addFloat x y = addRat x y := by
  have hsum : exactRat ((val x).add (val y)) = valRat x + valRat y := by
    rw [exactRat_add, exactRat_val, exactRat_val]
  simp only [addFloat, addRat, Bool.or_eq_true, Bool.and_eq_true, bne_iff_ne, ite_mant_roundExact, hsum]

theorem fmaFloat_eq_fmaRat (x y z : Packed) : fmaFloat x y z = fmaRat x y z := by
  have hsum : exactRat (((val x).mul (val y)).add (val z)) = valRat x * valRat y + valRat z := by
    rw [exactRat_add, exactRat_mul, exactRat_val, exactRat_val, exactRat_val]
  simp only [fmaFloat, fmaRat, Bool.or_eq_true, Bool.and_eq_true, bne_iff_ne, ite_mant_roundExact, hsum, or_assoc,
    and_assoc]

theorem mulFloat_eq_mulRat (x y : Packed) : mulFloat x y = mulRat x y := by
  simp only [mulFloat, mulRat, Bool.or_eq_true, Bool.and_eq_true]
  split_ifs with hnan _ hinf hzero
  · rfl
  · rfl
  · rfl
  · rfl
  · obtain ⟨hnx, hny⟩ := not_or.1 hnan
    obtain ⟨hix, hiy⟩ := not_or.1 hinf
    obtain ⟨hzx, hzy⟩ := not_or.1 hzero
    exact roundPack_mul _ (sig_pos_of_not hnx hix hzx) (sig_pos_of_not hny hiy hzy)

theorem divFloat_eq_divRat (x y : Packed) : divFloat x y = divRat x y := by
  simp only [divFloat, divRat, Bool.or_eq_true, Bool.and_eq_true]
  split_ifs with hnan _ _ hix hiy hzy hzx
  · rfl
  · rfl
  · rfl
  · rfl
  · rfl
  · rfl
  · rfl
  · obtain ⟨hnx, hny⟩ := not_or.1 hnan
    exact roundPack_div _ (sig_pos_of_not hnx hix hzx) (sig_pos_of_not hny hiy hzy)

/-- Adding 2^255 modulo 2^256 flips the sign bit and no other (R104). -/
theorem xor_signMask_eq (x : Packed) : x ^^^ signMask = BitVec.ofNat 256 (x.toNat + 2 ^ 255) := by
  refine BitVec.eq_of_getLsbD_eq fun i hi => ?_
  rw [BitVec.getLsbD_xor, signMask, BitVec.getLsbD_ofNat, BitVec.getLsbD_ofNat, Nat.testBit_two_pow, Nat.add_comm,
    BitVec.getLsbD]
  obtain rfl | hlow : i = 255 ∨ i < 255 := by omega
  · rw [Nat.testBit_two_pow_add_eq]
    simp
  · rw [Nat.testBit_two_pow_add_gt hlow]
    simp [hlow.ne', hi]

/-! ### The commands -/

/-- Settles O26: the one result is R103's. -/
theorem faddRoundsTheExactSum : Obligations.FaddRoundsTheExactSum := by
  unfold Obligations.FaddRoundsTheExactSum
  intro rd rs1 rs2 s
  rw [← addFloat_eq_addRat]
  exact ⟨encodes_fields (Instr.wf_of_dests_singleton rfl), exec_one_float rfl rfl⟩

/-- Settles O27: as FADD, on the second operand with its sign flipped. -/
theorem fsubAddsTheNegated : Obligations.FsubAddsTheNegated := by
  unfold Obligations.FsubAddsTheNegated
  intro rd rs1 rs2 s
  rw [← addFloat_eq_addRat, ← xor_signMask_eq]
  exact ⟨encodes_fields (Instr.wf_of_dests_singleton rfl), exec_one_float rfl rfl⟩

/-- Settles O28: the one result is R105's. -/
theorem fmulRoundsTheExactProduct : Obligations.FmulRoundsTheExactProduct := by
  unfold Obligations.FmulRoundsTheExactProduct
  intro rd rs1 rs2 s
  rw [← mulFloat_eq_mulRat]
  exact ⟨encodes_fields (Instr.wf_of_dests_singleton rfl), exec_one_float rfl rfl⟩

/-- Settles O29: the one result is R106's. -/
theorem fdivRoundsTheExactQuotient : Obligations.FdivRoundsTheExactQuotient := by
  unfold Obligations.FdivRoundsTheExactQuotient
  intro rd rs1 rs2 s
  rw [← divFloat_eq_divRat]
  exact ⟨encodes_fields (Instr.wf_of_dests_singleton rfl), exec_one_float rfl rfl⟩

/-- Settles O30: the one result is R107's. -/
theorem fmaRoundsOnce : Obligations.FmaRoundsOnce := by
  unfold Obligations.FmaRoundsOnce
  intro rd rs1 rs2 rs3 s
  rw [← fmaFloat_eq_fmaRat]
  exact ⟨encodes_fields (Instr.wf_of_dests_singleton rfl), exec_one_float rfl rfl⟩

end Sys2Proof.Machine
end

section
/-! NaN results and exact zeros of the float commands (44_float_arith.md R93, R100, R101 and the corner cases of R107),
read off the case tables over the rationals. -/

namespace Sys2Proof.Machine

open Sys2Proof.Reference

/-! ### Every NaN result is the canonical NaN (R93) -/

/-- A NaN among such results is QNaN. -/
def CanonicalIfNaN (r : Packed) : Prop := isNaN r = true → r = qNaN

theorem canonicalIfNaN_of_not_isNaN {r : Packed} (h : isNaN r = false) : CanonicalIfNaN r := fun hnan =>
  absurd hnan (h ▸ Bool.false_ne_true)

theorem canonicalIfNaN_qNaN : CanonicalIfNaN qNaN := fun _ => rfl

theorem canonicalIfNaN_infOf (s : Bool) : CanonicalIfNaN (infOf s) := canonicalIfNaN_of_not_isNaN (isNaN_infOf s)

theorem isNaN_zeroOf (s : Bool) : isNaN (zeroOf s) = false := isNaN_of_isFinite (isFinite_zeroOf s)

theorem canonicalIfNaN_zeroOf (s : Bool) : CanonicalIfNaN (zeroOf s) := canonicalIfNaN_of_not_isNaN (isNaN_zeroOf s)

theorem canonicalIfNaN_roundPackRat {v : ℚ} (hv : 0 < v) (s : Bool) : CanonicalIfNaN (roundPackRat s v) :=
  canonicalIfNaN_of_not_isNaN (isNaN_roundPackRat hv s)

theorem canonicalIfNaN_addRat (x y : Packed) : CanonicalIfNaN (addRat x y) := by
  rw [addRat]
  split_ifs with _ _ _ _ _ hsum
  · exact canonicalIfNaN_qNaN
  · exact canonicalIfNaN_qNaN
  · exact canonicalIfNaN_infOf _
  · exact canonicalIfNaN_infOf _
  · exact canonicalIfNaN_infOf _
  · exact canonicalIfNaN_zeroOf _
  · exact canonicalIfNaN_zeroOf _
  · exact canonicalIfNaN_roundPackRat (abs_pos.2 hsum) _

theorem canonicalIfNaN_mulRat (x y : Packed) : CanonicalIfNaN (mulRat x y) := by
  rw [mulRat]
  split_ifs with hnan _ hinf hzero
  · exact canonicalIfNaN_qNaN
  · exact canonicalIfNaN_qNaN
  · exact canonicalIfNaN_infOf _
  · exact canonicalIfNaN_zeroOf _
  · obtain ⟨hnx, hny⟩ := not_or.1 hnan
    obtain ⟨hix, hiy⟩ := not_or.1 hinf
    obtain ⟨hzx, hzy⟩ := not_or.1 hzero
    have hx := abs_valRat_pos (sig_pos_of_not hnx hix hzx)
    have hy := abs_valRat_pos (sig_pos_of_not hny hiy hzy)
    exact canonicalIfNaN_roundPackRat (mul_pos hx hy) _

theorem canonicalIfNaN_divRat (x y : Packed) : CanonicalIfNaN (divRat x y) := by
  rw [divRat]
  split_ifs with hnan _ _ hix hiy hzy hzx
  · exact canonicalIfNaN_qNaN
  · exact canonicalIfNaN_qNaN
  · exact canonicalIfNaN_qNaN
  · exact canonicalIfNaN_infOf _
  · exact canonicalIfNaN_zeroOf _
  · exact canonicalIfNaN_infOf _
  · exact canonicalIfNaN_zeroOf _
  · obtain ⟨hnx, hny⟩ := not_or.1 hnan
    have hx := abs_valRat_pos (sig_pos_of_not hnx hix hzx)
    have hy := abs_valRat_pos (sig_pos_of_not hny hiy hzy)
    exact canonicalIfNaN_roundPackRat (div_pos hx hy) _

theorem canonicalIfNaN_fmaRat (x y z : Packed) : CanonicalIfNaN (fmaRat x y z) := by
  rw [fmaRat]
  split_ifs with _ _ _ _ _ hsum
  · exact canonicalIfNaN_qNaN
  · exact canonicalIfNaN_qNaN
  · exact canonicalIfNaN_qNaN
  · exact canonicalIfNaN_infOf _
  · exact canonicalIfNaN_infOf _
  · exact canonicalIfNaN_zeroOf _
  · exact canonicalIfNaN_zeroOf _
  · exact canonicalIfNaN_roundPackRat (abs_pos.2 hsum) _

/-! ### A NaN source (R100) -/

/-- A NaN stays a NaN when its sign is flipped (R104). -/
theorem isNaN_xor_signMask (x : Packed) : isNaN (x ^^^ signMask) = isNaN x := by
  have hval : (x ^^^ signMask).toNat = (x.toNat + 2 ^ 255) % 2 ^ 256 := by rw [xor_signMask_eq, BitVec.toNat_ofNat]
  have hexp : expField (x ^^^ signMask) = expField x := by
    rw [expField_eq, expField_eq, hval]
    omega
  have hfrac : fracField (x ^^^ signMask) = fracField x := by
    rw [fracField_eq, fracField_eq, hval]
    omega
  rw [Bool.eq_iff_iff, isNaN_iff, isNaN_iff, hexp, hfrac]

/-- R93's pattern in a register. -/
theorem qNaN_setWidth_toNat : (qNaN.setWidth 1024).toNat =
    0x7FFFF80000000000000000000000000000000000000000000000000000000000 := by
  rw [BitVec.toNat_setWidth_of_le (by decide), qNaN, packFields_toNat]
  rfl

/-- A command with one float result `r` that is QNaN for a NaN source and whenever it is a NaN leaves R93's pattern. -/
theorem exec_canonicalNaN {i : Instr} {s : State} {rd : RegId} {x r : Packed} (hok : operandFault i s = none)
    (hwrites : writesOf i s = [floatWrite rd x]) (hvalue : x = r) (hresult : CanonicalIfNaN r)
    (hsource : (∃ a ∈ i.sources, isNaN (s.readFloat a) = true) → r = qNaN) :
    ∃ t, exec i s = .next t ∧
      ((∃ a ∈ i.sources, isNaN (s.readFloat a) = true) ∨ isNaN (t.readFloat rd) = true →
        (t.reg rd).toNat = 0x7FFFF80000000000000000000000000000000000000000000000000000000000) := by
  subst hvalue
  obtain ⟨t, hexec, -, hreg⟩ := exec_one_float hok hwrites
  refine ⟨t, hexec, fun hnan => ?_⟩
  rw [readFloat_of_reg_eq hreg] at hnan
  rw [hreg, hnan.elim hsource hresult, qNaN_setWidth_toNat]

/-- Settles O38: the first case of each table for the sources, all its cases for the result. -/
theorem nanOperandGivesTheCanonicalNaN : Obligations.NaNOperandGivesTheCanonicalNaN := by
  unfold Obligations.NaNOperandGivesTheCanonicalNaN
  intro rd rs1 rs2 rs3 s i hi
  simp only [List.mem_cons, List.not_mem_nil, or_false] at hi
  obtain rfl | rfl | rfl | rfl | rfl := hi
  · refine exec_canonicalNaN rfl rfl (addFloat_eq_addRat _ _) (canonicalIfNaN_addRat _ _) fun h => if_pos ?_
    simpa [Instr.sources] using h
  · refine exec_canonicalNaN rfl rfl (addFloat_eq_addRat _ _) (canonicalIfNaN_addRat _ _) fun h => if_pos ?_
    simpa [Instr.sources, isNaN_xor_signMask] using h
  · refine exec_canonicalNaN rfl rfl (mulFloat_eq_mulRat _ _) (canonicalIfNaN_mulRat _ _) fun h => if_pos ?_
    simpa [Instr.sources] using h
  · refine exec_canonicalNaN rfl rfl (divFloat_eq_divRat _ _) (canonicalIfNaN_divRat _ _) fun h => if_pos ?_
    simpa [Instr.sources] using h
  · refine exec_canonicalNaN rfl rfl (fmaFloat_eq_fmaRat _ _ _) (canonicalIfNaN_fmaRat _ _ _) fun h => if_pos ?_
    simpa [Instr.sources] using h

/-! ### Finite operands -/

section Finite

variable {x y z : Packed}

theorem addRat_of_isFinite (hx : isFinite x = true) (hy : isFinite y = true) :
    addRat x y = if valRat x + valRat y = 0 then
      (if isZero x ∧ isZero y then zeroOf (sgn x && sgn y) else zeroOf false)
      else roundPackRat (decide (valRat x + valRat y < 0)) |valRat x + valRat y| := by
  simp [addRat, isNaN_of_isFinite, isInf_of_isFinite, hx, hy]

theorem mulRat_of_isFinite (hx : isFinite x = true) (hy : isFinite y = true) :
    mulRat x y = if isZero x ∨ isZero y then zeroOf (sgn x ^^ sgn y)
      else roundPackRat (sgn x ^^ sgn y) (|valRat x| * |valRat y|) := by
  simp [mulRat, isNaN_of_isFinite, isInf_of_isFinite, hx, hy]

theorem fmaRat_of_isFinite (hx : isFinite x = true) (hy : isFinite y = true) (hz : isFinite z = true) :
    fmaRat x y z = if valRat x * valRat y + valRat z = 0 then
      (if (isZero x ∨ isZero y) ∧ isZero z then zeroOf ((sgn x ^^ sgn y) && sgn z) else zeroOf false)
      else roundPackRat (decide (valRat x * valRat y + valRat z < 0)) |valRat x * valRat y + valRat z| := by
  simp [fmaRat, isNaN_of_isFinite, isInf_of_isFinite, hx, hy, hz]

/-- The sign that R105 gives a product is the sign of the exact product. -/
theorem decide_valRat_mul_neg (hx : isFinite x = true) (hy : isFinite y = true)
    (hzero : ¬ (isZero x = true ∨ isZero y = true)) : decide (valRat x * valRat y < 0) = (sgn x ^^ sgn y) := by
  obtain ⟨hzx, hzy⟩ := not_or.1 hzero
  rw [← decide_valRat_neg hx (Bool.not_eq_true _ ▸ hzx), ← decide_valRat_neg hy (Bool.not_eq_true _ ▸ hzy)]
  rcases lt_or_gt_of_ne (mt (valRat_eq_zero_iff hx).1 hzx) with hsx | hsx <;>
    rcases lt_or_gt_of_ne (mt (valRat_eq_zero_iff hy).1 hzy) with hsy | hsy <;>
    simp [mul_neg_iff, hsx, hsy, hsx.not_gt, hsy.not_gt]

end Finite

/-! ### The sign of an exact zero (R101) -/

/-- A zero whose sign is `b` under the condition `c` and positive else. -/
theorem ite_zeroOf (c b : Bool) : (if c = true then zeroOf b else zeroOf false) = zeroOf (c && b) := by
  cases c <;> rfl

/-- Settles O39: finite operands reach the zero case of R103 and R107. -/
theorem exactZeroSumSign : Obligations.ExactZeroSumSign := by
  unfold Obligations.ExactZeroSumSign
  intro x y z hx hy hz
  refine ⟨fun hsum => ?_, fun hsum => ?_⟩
  · rw [addFloat_eq_addRat, addRat_of_isFinite hx hy, if_pos hsum]
    simp only [← Bool.and_eq_true, ite_zeroOf, Bool.and_assoc]
  · rw [fmaFloat_eq_fmaRat, fmaRat_of_isFinite hx hy hz, if_pos hsum]
    simp only [← Bool.and_eq_true, ← Bool.or_eq_true, ite_zeroOf, Bool.and_assoc]

/-! ### A zero addend (R107, corner cases) -/

theorem isZero_zeroOf (s : Bool) : isZero (zeroOf s) = true := by
  rw [isZero_iff, zeroOf, expField_packFields, fracField_packFields]
  exact ⟨rfl, rfl⟩

theorem valRat_zeroOf (s : Bool) : valRat (zeroOf s) = 0 :=
  (valRat_eq_zero_iff (isFinite_zeroOf s)).2 (isZero_zeroOf s)

theorem sgn_zeroOf (s : Bool) : sgn (zeroOf s) = s := sgn_packFields ..

/-- The addend takes part in the sign of an exact zero product (R101). -/
theorem fmaRat_zeroOf_of_zero_product {x y : Packed} (hx : isFinite x = true) (hy : isFinite y = true)
    (hzero : isZero x = true ∨ isZero y = true) (s : Bool) :
    fmaRat x y (zeroOf s) = zeroOf ((sgn x ^^ sgn y) && s) := by
  have hprod : valRat x * valRat y + valRat (zeroOf s) = 0 := by
    rw [valRat_zeroOf, add_zero, mul_eq_zero, valRat_eq_zero_iff hx, valRat_eq_zero_iff hy]
    exact hzero
  rw [fmaRat_of_isFinite hx hy (isFinite_zeroOf s), if_pos hprod, if_pos ⟨hzero, isZero_zeroOf s⟩, sgn_zeroOf]

theorem fmaRat_zeroOf_of_not_zero {x y : Packed} (hx : isFinite x = true) (hy : isFinite y = true)
    (hzero : ¬ (isZero x = true ∨ isZero y = true)) (s : Bool) : fmaRat x y (zeroOf s) = mulRat x y := by
  have hprod : valRat x * valRat y ≠ 0 := by
    rwa [Ne, mul_eq_zero, valRat_eq_zero_iff hx, valRat_eq_zero_iff hy]
  rw [fmaRat_of_isFinite hx hy (isFinite_zeroOf s), mulRat_of_isFinite hx hy, if_neg hzero, valRat_zeroOf, add_zero,
    if_neg hprod, decide_valRat_mul_neg hx hy hzero, abs_mul]

/-- A NaN or an infinity decides both tables before the addend does. -/
theorem fmaRat_zeroOf_of_not_finite {x y : Packed} (h : ¬ (isFinite x = true ∧ isFinite y = true)) (s : Bool) :
    fmaRat x y (zeroOf s) = mulRat x y := by
  by_cases hnan : isNaN x = true ∨ isNaN y = true
  · rw [fmaRat, mulRat, if_pos hnan, if_pos (or_assoc.1 (.inl hnan))]
  · obtain ⟨hnx, hny⟩ := not_or.1 hnan
    have hinf : isInf x = true ∨ isInf y = true := by
      by_contra hno
      obtain ⟨hix, hiy⟩ := not_or.1 hno
      exact h ⟨isFinite_of_not hnx hix, isFinite_of_not hny hiy⟩
    simp [fmaRat, mulRat, hnx, hny, hinf, isNaN_zeroOf, isInf_of_isFinite (isFinite_zeroOf s)]

theorem fmaRat_zeroOf_of_not {x y : Packed}
    (h : ¬ (isFinite x = true ∧ isFinite y = true ∧ (isZero x = true ∨ isZero y = true))) (s : Bool) :
    fmaRat x y (zeroOf s) = mulRat x y := by
  by_cases hfin : isFinite x = true ∧ isFinite y = true
  · obtain ⟨hx, hy⟩ := hfin
    exact fmaRat_zeroOf_of_not_zero hx hy (fun hzero => h ⟨hx, hy, hzero⟩) s
  · exact fmaRat_zeroOf_of_not_finite hfin s

/-- Settles O40: the addend decides the sign of an exact zero product and nothing else. -/
theorem fmaWithZeroAddendIsTheProduct : Obligations.FmaWithZeroAddendIsTheProduct := by
  unfold Obligations.FmaWithZeroAddendIsTheProduct
  intro x y
  rw [fmaFloat_eq_fmaRat, fmaFloat_eq_fmaRat, mulFloat_eq_mulRat]
  refine ⟨?_, fun ⟨hx, hy, hzero⟩ => ?_, fun h => fmaRat_zeroOf_of_not h false⟩
  · by_cases h : isFinite x = true ∧ isFinite y = true ∧ (isZero x = true ∨ isZero y = true)
    · obtain ⟨hx, hy, hzero⟩ := h
      rw [fmaRat_zeroOf_of_zero_product hx hy hzero, mulRat_of_isFinite hx hy, if_pos hzero, Bool.and_true]
    · exact fmaRat_zeroOf_of_not h true
  · rw [fmaRat_zeroOf_of_zero_product hx hy hzero, Bool.and_false]

end Sys2Proof.Machine
end

section
/-! Float negate, absolute value and the two comparisons (45_float_sign_compare.md R109 to R112). FNEG and FABS keep the
pattern modulo 2^255, and with it every field but the sign. The comparisons write the order code of a linear order: of
the extended values (`extCmp_eq_compare`), and of the sign-magnitude keys (`totalKey_eq_keyOf`). -/

namespace Sys2Proof.Machine

open Sys2Proof.Reference

/-! ### The sign bit and the other fields (R109, R110) -/

theorem negFloat_toNat (x : Packed) : (negFloat x).toNat = (x.toNat + 2 ^ 255) % 2 ^ 256 := by
  rw [negFloat, xor_signMask_eq, BitVec.toNat_ofNat]

theorem absFloat_toNat (x : Packed) : (absFloat x).toNat = x.toNat % 2 ^ 255 := by
  have hmask : (~~~signMask).toNat = 2 ^ 255 - 1 := by
    rw [BitVec.toNat_not, signMask, BitVec.toNat_ofNat]
    rfl
  rw [absFloat, BitVec.toNat_and, hmask, Nat.and_two_pow_sub_one_eq_mod]

theorem sgn_negFloat (x : Packed) : sgn (negFloat x) = !sgn x := by
  have hlt := x.isLt
  rw [sgn_eq, sgn_eq, negFloat_toNat, ← decide_not, decide_eq_decide]
  omega

theorem sgn_absFloat (x : Packed) : sgn (absFloat x) = false := by
  rw [sgn_eq, absFloat_toNat, decide_eq_false_iff_not]
  omega

/-- Exponent and fraction lie below bit 255. -/
theorem fields_eq_of_toNat_mod_eq {x y : Packed} (h : x.toNat % 2 ^ 255 = y.toNat % 2 ^ 255) :
    expBits x = expBits y ∧ fracBits x = fracBits y := by
  rw [expBits, expBits, fracBits, fracBits]
  omega

/-- A command whose one result differs from `y` at most in the sign. -/
theorem exec_one_float_of_toNat_mod_eq {i : Instr} {s : State} {rd : RegId} {x y : Packed}
    (hok : operandFault i s = none) (hwrites : writesOf i s = [floatWrite rd x])
    (hmag : x.toNat % 2 ^ 255 = y.toNat % 2 ^ 255) :
    ∃ t, exec i s = .next t ∧ Completed s t [rd] (carryAfter i s) ∧ (t.reg rd).toNat = x.toNat ∧
      sgn (t.readFloat rd) = sgn x ∧ expBits (t.readFloat rd) = expBits y ∧ fracBits (t.readFloat rd) = fracBits y := by
  obtain ⟨t, hexec, hdone, hreg⟩ := exec_one_float hok hwrites
  have hread := readFloat_of_reg_eq hreg
  refine ⟨t, hexec, hdone, ?_, congrArg sgn hread, hread ▸ fields_eq_of_toNat_mod_eq hmag⟩
  rw [hreg, BitVec.toNat_setWidth_of_le (by decide)]

/-- Settles O35: each result is the source modulo 2^255, with the sign flipped or cleared. -/
theorem fnegFabsTouchOnlyTheSign : Obligations.FnegFabsTouchOnlyTheSign := by
  unfold Obligations.FnegFabsTouchOnlyTheSign
  intro rd rs1 s
  rw [← negFloat_toNat, ← sgn_negFloat, ← absFloat_toNat, ← sgn_absFloat (s.readFloat rs1)]
  have hneg : (negFloat (s.readFloat rs1)).toNat % 2 ^ 255 = (s.readFloat rs1).toNat % 2 ^ 255 := by
    rw [negFloat_toNat]
    omega
  have habs : (absFloat (s.readFloat rs1)).toNat % 2 ^ 255 = (s.readFloat rs1).toNat % 2 ^ 255 := by
    rw [absFloat_toNat, Nat.mod_mod]
  exact ⟨⟨encodes_fields (Instr.wf_of_dests_singleton rfl), exec_one_float_of_toNat_mod_eq rfl rfl hneg⟩,
    ⟨encodes_fields (Instr.wf_of_dests_singleton rfl), exec_one_float_of_toNat_mod_eq rfl rfl habs⟩⟩

/-! ### Order codes -/

/-- The codes 0, 1 and 2 tell the three cases of a linear order (R64, R111, R112). -/
theorem orderCode_compare_clauses {α : Type} [LinearOrder α] (a b : α) :
    (a < b → orderCode (compare a b) = 0) ∧ (a = b → orderCode (compare a b) = 1) ∧
      (b < a → orderCode (compare a b) = 2) := by
  refine ⟨fun hlt => ?_, fun heq => ?_, fun hgt => ?_⟩
  · rw [compare_lt_iff_lt.2 hlt, orderCode]
  · rw [compare_eq_iff_eq.2 heq, orderCode]
  · rw [compare_gt_iff_gt.2 hgt, orderCode]

theorem orderCode_eq_one_iff (o : Ordering) : orderCode o = 1 ↔ o = .eq := by cases o <;> decide

/-! ### The order of the extended values (R111) -/

section Extended

variable {x y : Packed}

theorem extSide_cases (x : Packed) : extSide x = -1 ∨ extSide x = 0 ∨ extSide x = 1 := by
  rw [extSide]
  split_ifs
  · exact .inl rfl
  · exact .inr (.inr rfl)
  · exact .inr (.inl rfl)

theorem extVal_eq_bot_iff : extVal x = ⊥ ↔ extSide x = -1 := by
  rw [extVal, extSide]
  split_ifs <;> simp

theorem extVal_eq_top_iff : extVal x = ⊤ ↔ extSide x = 1 := by
  rw [extVal, extSide]
  split_ifs
  · simp
  · simp
  · exact iff_of_false (WithBot.coe_lt_coe.2 (WithTop.coe_lt_top _)).ne (by decide)

theorem extVal_of_extSide_eq_zero (h : extSide x = 0) : extVal x = ((valRat x : WithTop ℚ) : WithBot (WithTop ℚ)) := by
  refine if_neg fun hinf => absurd h ?_
  rw [extSide, if_pos hinf]
  cases sgn x <;> decide

/-- -Inf lies below every other extended value, and +Inf above. -/
theorem extVal_lt_of_extSide_lt (h : extSide x < extSide y) : extVal x < extVal y := by
  obtain hx | hy : extSide x = -1 ∨ extSide y = 1 := by
    have hcx := extSide_cases x
    have hcy := extSide_cases y
    omega
  · rw [extVal_eq_bot_iff.2 hx, bot_lt_iff_ne_bot, Ne, extVal_eq_bot_iff]
    omega
  · rw [extVal_eq_top_iff.2 hy, lt_top_iff_ne_top, Ne, extVal_eq_top_iff]
    omega

/-- Two infinities of one sign are equal. -/
theorem extVal_eq_of_extSide_eq (h : extSide x = extSide y) (hinf : extSide x ≠ 0) : extVal x = extVal y := by
  obtain hx | hx | hx := extSide_cases x
  · rw [extVal_eq_bot_iff.2 hx, extVal_eq_bot_iff.2 (h ▸ hx)]
  · exact absurd hx hinf
  · rw [extVal_eq_top_iff.2 hx, extVal_eq_top_iff.2 (h ▸ hx)]

end Extended

/-- The comparison by sides and then by values is the order of the extended values. -/
theorem extCmp_eq_compare (x y : Packed) : extCmp x y = compare (extVal x) (extVal y) := by
  rw [extCmp]
  split_ifs with hreal
  · obtain ⟨hx, hy⟩ := hreal
    have hmono : StrictMono fun q : ℚ => ((q : WithTop ℚ) : WithBot (WithTop ℚ)) :=
      WithBot.coe_strictMono.comp WithTop.coe_strictMono
    rw [exactCmp_eq, exactRat_val, exactRat_val, extVal_of_extSide_eq_zero hx, extVal_of_extSide_eq_zero hy,
      ← cmp_eq_compare, ← cmp_eq_compare]
    exact (hmono.cmp_map_eq _ _).symm
  · rcases lt_trichotomy (extSide x) (extSide y) with hlt | heq | hgt
    · rw [compare_lt_iff_lt.2 hlt, compare_lt_iff_lt.2 (extVal_lt_of_extSide_lt hlt)]
    · have hinf : extSide x ≠ 0 := fun hx => hreal ⟨hx, heq ▸ hx⟩
      rw [compare_eq_iff_eq.2 heq, compare_eq_iff_eq.2 (extVal_eq_of_extSide_eq heq hinf)]
    · rw [compare_gt_iff_gt.2 hgt, compare_gt_iff_gt.2 (extVal_lt_of_extSide_lt hgt)]

theorem partialCode_of_isNaN {x y : Packed} (h : isNaN x = true ∨ isNaN y = true) : partialCode x y = 3 :=
  if_pos (Bool.or_eq_true _ _ ▸ h)

theorem partialCode_of_not_isNaN {x y : Packed} (hx : isNaN x = false) (hy : isNaN y = false) :
    partialCode x y = orderCode (compare (extVal x) (extVal y)) := by
  rw [partialCode, hx, hy, ← extCmp_eq_compare]
  rfl

theorem partialCode_lt (x y : Packed) : partialCode x y < 2 ^ bits .w128 := by
  rw [partialCode]
  split_ifs
  · decide
  · exact orderCode_lt_two_pow_bits _ _

/-- Settles O36: the one result is 3 for a NaN, else the order code of the extended values. -/
theorem fcmpComparesExtendedValues : Obligations.FcmpComparesExtendedValues := by
  unfold Obligations.FcmpComparesExtendedValues
  intro rd rs1 rs2 s
  obtain ⟨t, hexec, hcode, hdone⟩ := exec_one_int (i := .fcmp rd rs1 rs2) (s := s) rfl rfl (partialCode_lt _ _)
  refine ⟨encodes_fields (Instr.wf_of_dests_singleton rfl), t, hexec, hdone, ?_, fun ⟨hx, hy⟩ => ?_⟩
  · exact fun hnan => hcode.trans (partialCode_of_isNaN hnan)
  · rw [hcode, partialCode_of_not_isNaN hx hy]
    exact orderCode_compare_clauses _ _

/-! ### The total order of the patterns (R112) -/

theorem totalKey_eq_keyOf (x : Packed) : totalKey x = keyOf x := by
  have hlt := x.isLt
  have hlow : (x.extractLsb' 0 255).toNat = x.toNat % 2 ^ 255 := by rw [BitVec.extractLsb'_toNat, Nat.shiftRight_zero]
  simp only [totalKey, keyOf, sgn_eq, decide_eq_true_eq, hlow]
  split_ifs <;> omega

/-- Patterns of different sign have keys of different sign, and the magnitude tells the others apart. -/
theorem keyOf_injective : Function.Injective keyOf := by
  intro x y h
  have hx := x.isLt
  have hy := y.isLt
  refine BitVec.eq_of_toNat_eq ?_
  rw [keyOf, keyOf] at h
  split_ifs at h <;> omega

theorem totalCode_eq_orderCode (x y : Packed) : totalCode x y = orderCode (compare (keyOf x) (keyOf y)) := by
  rw [totalCode, totalKey_eq_keyOf, totalKey_eq_keyOf]

/-- Settles O37: the one result is the order code of the keys, and the key determines the pattern. -/
theorem ftcmpIsATotalOrderOnPatterns : Obligations.FtcmpIsATotalOrderOnPatterns := by
  unfold Obligations.FtcmpIsATotalOrderOnPatterns
  intro rd rs1 rs2 s
  obtain ⟨t, hexec, hcode, hdone⟩ :=
    exec_one_int (i := .ftcmp rd rs1 rs2) (s := s) rfl rfl (orderCode_lt_two_pow_bits _ .w128)
  obtain ⟨hless, hequal, hgreater⟩ := orderCode_compare_clauses (keyOf (s.readFloat rs1)) (keyOf (s.readFloat rs2))
  refine ⟨encodes_fields (Instr.wf_of_dests_singleton rfl), t, hexec, hdone, ?_⟩
  rw [hcode, totalCode_eq_orderCode]
  exact ⟨hless, hequal, hgreater, by rw [orderCode_eq_one_iff, compare_eq_iff_eq, keyOf_injective.eq_iff]⟩

end Sys2Proof.Machine
end

section
/-! Faults, the halted state and the idle block (60_exceptions.md R113 to R117, R126). A command's two outcomes and their
frames are those of `exec_of_fault` and `exec_of_noFault`; a step is one host action (`step_of_pending`). -/

namespace Sys2Proof.Machine

open Sys2Proof.Reference

variable {s : State}

/-- STATUS as a number: FAULT, the code of CAUSE and CF, each at the weight of its lowest bit (R19, R22, R23). -/
theorem statusWord_toNat (s : State) :
    s.statusWord.toNat = s.fault.toNat + 0x10 * (causeCode s.cause).toNat + 0x100 * s.cf.toNat := by
  simp only [State.statusWord, append_toNat, BitVec.toNat_ofBool, BitVec.ofNat_eq_ofNat, BitVec.toNat_ofNat]
  omega

/-- A step at an issued illegal word, on a block that is not halted, is the fault entry ILLEGAL (R115, R117). -/
theorem step_of_illegal {c : Cmd} {rest : List HostAction} (hpending : s.pending = .issue c :: rest)
    (hrun : s.fault = false) (hillegal : IllegalWord c) :
    step s = .next (State.enterFault { s with pending := rest, answer := .none } .illegal c) := by
  obtain ⟨r, hr⟩ := (decode_refuses_iff c).2 hillegal
  rw [step_of_pending hpending]
  exact issue_of_illegal (s := { s with pending := rest, answer := .none }) hrun hr

/-- A halted block keeps CIX, CF and the count of Resets under every action but Reset (R116). -/
theorem afterAction_counters_of_halted {a : HostAction} (h : s.fault = true) (ha : a ≠ .reset) :
    (afterAction s a).cix = s.cix ∧ (afterAction s a).cf = s.cf ∧ (afterAction s a).draws = s.draws := by
  cases a with
  | reset => exact absurd rfl ha
  | writeReg | readReg | readStatus => exact ⟨rfl, rfl, rfl⟩
  | issue c =>
    rw [afterAction_issue (issue_of_halted h)]
    exact ⟨rfl, rfl, rfl⟩

/-- A halted block ignores an issued word (R116). -/
theorem afterAction_issue_reg_of_halted (h : s.fault = true) (c : Cmd) (r : RegId) :
    (afterAction s (.issue c)).reg r = s.reg r := by
  rw [afterAction_issue (issue_of_halted h)]
  rfl

/-- WriteReg sets its register and no other, halted or not (R130). -/
theorem afterAction_writeReg_reg (s : State) (i : RegId) (v : Data) (r : RegId) :
    (afterAction s (.writeReg i v)).reg r = if r = i then v else s.reg r :=
  s.setReg_reg i r v

/-- Settles O54: the two outcomes of a command, by `operandFault`, with their frames. -/
theorem faultsExactlyOnPreconditions : Obligations.FaultsExactlyOnPreconditions := by
  unfold Obligations.FaultsExactlyOnPreconditions
  intro i s
  cases hk : operandFault i s with
  | some c =>
    refine ⟨_, exec_of_fault hk, ?_, nofun⟩
    rintro _ ⟨⟩
    exact faulted_enterFault s c _
  | none => exact ⟨_, exec_of_noFault hk, nofun, fun _ => completed_finish s i⟩

/-- Settles O46: the step is the fault entry, whose STATUS has FAULT, CAUSE = 1 and the old CF. -/
theorem illegalWordEntersTheFault : Obligations.IllegalWordEntersTheFault := by
  unfold Obligations.IllegalWordEntersTheFault
  intro s c rest hpending hrun hillegal
  exact ⟨_, step_of_illegal hpending hrun hillegal, faulted_enterFault _ .illegal c, statusWord_toNat _⟩

/-- Settles O47: the step is the host's action, and a halted block keeps its fault record under all but Reset. -/
theorem haltedUntilReset : Obligations.HaltedUntilReset := by
  unfold Obligations.HaltedUntilReset
  intro s a rest hhalt hpending
  refine ⟨_, (step_of_pending hpending).trans (hostAct_take a s rest), rfl, fun ha => ?_, ?_, ?_, ?_, ?_, ?_⟩
  · obtain ⟨hfault, hcause, hfcmd, hfcix⟩ := afterAction_of_halted hhalt ha
    obtain ⟨hcix, hcf, hdraws⟩ := afterAction_counters_of_halted hhalt ha
    exact ⟨hfault.trans hhalt, hcause, hfcmd, hfcix, hcix, hcf, hdraws⟩
  · rintro c rfl r
    exact afterAction_issue_reg_of_halted hhalt c r
  · rintro i v rfl
    exact ⟨(afterAction_writeReg_reg s i v i).trans (if_pos rfl),
      fun r hr => (afterAction_writeReg_reg s i v r).trans (if_neg hr)⟩
  · rintro i rfl
    exact ⟨rfl, fun _ => rfl⟩
  · rintro n rfl
    exact ⟨rfl, fun _ => rfl⟩
  · rintro rfl
    rfl

/-- Settles O57: with no action to come the step is the idle one. -/
theorem idleBlockKeepsAllState : Obligations.IdleBlockKeepsAllState := by
  unfold Obligations.IdleBlockKeepsAllState
  intro s hidle
  simp only [step, hidle]

end Sys2Proof.Machine
end

section
/-! The reset state and the host's port (70_reset_and_hazards.md R127, R128, R130). Each host action but the issue of a
word has one next state, the same halted or not; the statements read it field by field. -/

namespace Sys2Proof.Machine

variable {s : State} {rest : List HostAction}

/-! ### The next state of each action (R130) -/

theorem step_of_reset (h : s.pending = .reset :: rest) :
    step s = .next { (s.take rest).hostReset with answer := .none } :=
  step_of_pending h

theorem step_of_writeReg {i : RegId} {v : Data} (h : s.pending = .writeReg i v :: rest) :
    step s = .next { (s.take rest).setReg i v with answer := .none } :=
  step_of_pending h

theorem step_of_readReg {i : RegId} (h : s.pending = .readReg i :: rest) :
    step s = .next { s with pending := rest, answer := .reg (s.reg i) } :=
  step_of_pending h

theorem step_of_readStatus {n : StatusName} (h : s.pending = .readStatus n :: rest) :
    step s = .next { s with pending := rest, answer := .status (s.statusReg n) } :=
  step_of_pending h

/-! ### What the actions leave unchanged -/

theorem SameStatus.refl (s : State) : SameStatus s s := ⟨rfl, rfl, rfl, rfl, rfl, rfl, rfl⟩

theorem sameStatus_writeReg (s : State) (rest : List HostAction) (i : RegId) (v : Data) :
    SameStatus { s with pending := rest, answer := .none } { (s.take rest).setReg i v with answer := .none } :=
  ⟨rfl, rfl, rfl, rfl, rfl, rfl, rfl⟩

/-- With FAULT, CAUSE and CF clear, STATUS reads 0 (R19, R22, R23). -/
theorem statusWord_eq_zero (hcf : s.cf = false) (hcause : s.cause = .none) (hfault : s.fault = false) :
    s.statusWord = 0 := by
  apply BitVec.eq_of_toNat_eq
  rw [statusWord_toNat, hcf, hcause, hfault]
  rfl

/-- Settles O48: each action's next state, with the register rule of a write and the STATUS number of a status read. -/
theorem hostActionsDoOnlyTheirEffect : Obligations.HostActionsDoOnlyTheirEffect := by
  unfold Obligations.HostActionsDoOnlyTheirEffect
  intro s rest
  refine ⟨fun i v h => ?write, fun i h => ?read, fun n h => ?status⟩
  case write =>
    have hreg (r : RegId) := (s.take rest).setReg_reg i r v
    exact ⟨_, step_of_writeReg h, (hreg i).trans (if_pos rfl), rfl, rfl, fun r hr => (hreg r).trans (if_neg hr),
      sameStatus_writeReg s rest i v⟩
  case read => exact ⟨_, step_of_readReg h, rfl, rfl, fun _ => rfl, .refl _⟩
  case status =>
    refine ⟨_, s.statusReg n, step_of_readStatus h, rfl, rfl, fun _ => rfl, .refl _, ?_, ?_, ?_, ?_⟩
    · rintro rfl
      exact statusWord_toNat s
    · rintro rfl
      rfl
    · rintro rfl
      rfl
    · rintro rfl
      rfl

/-- Settles O49: the fields of the two reset states, whose STATUS is 0 because FAULT, CAUSE and CF are. -/
theorem resetClearsControlState : Obligations.ResetClearsControlState := by
  unfold Obligations.ResetClearsControlState
  refine ⟨⟨rfl, rfl, statusWord_eq_zero rfl rfl rfl, rfl, rfl, rfl⟩, fun s rest h => ?_⟩
  exact ⟨_, step_of_reset h, rfl, rfl, statusWord_eq_zero rfl rfl rfl, rfl, rfl, rfl, rfl,
    (s.take rest).hostReset_reg⟩

/-- Settles O51: the block is running after reset, with CAUSE, FCMD and FCIX 0. -/
theorem invariantHoldsAtReset : Obligations.InvariantHoldsAtReset := by
  unfold Obligations.InvariantHoldsAtReset
  exact ⟨fun _ => ⟨rfl, rfl, rfl⟩, fun hhalt => Bool.noConfusion hhalt⟩

end Sys2Proof.Machine
end

section
/-! Arithmetic at twice the operation width (40_int_addsub.md R57; 42_int_shift_bits.md R77): a low and a high piece by
two commands, the second of which takes up what the first one left over. ADD and SUB leave it in CF, WSHL and WSHR in a
register. -/

namespace Sys2Proof.Machine

open Sys2Proof.Reference

/-! ### A value of two N-bit pieces -/

/-- The 2N-bit value of a low and a high piece in two registers. -/
def State.readPair (s : State) (w : Width) (lo hi : RegId) : ℕ := s.readInt w lo + 2 ^ bits w * s.readInt w hi

theorem State.readPair_eq (s : State) (w : Width) (lo hi : RegId) :
    s.readPair w lo hi = s.readInt w lo + 2 ^ bits w * s.readInt w hi := rfl

section Operands

variable {s t : State} {dests : List RegId} {rd rd2 r : RegId} {cf : Bool}

/-- A register that holds an N-bit result is read as that result (R15). -/
theorem readInt_eq_of_toNat_eq {w : Width} {n : ℕ} (h : (t.reg r).toNat = n) (hn : n < 2 ^ bits w) :
    t.readInt w r = n :=
  (readInt_eq_toNat_of_lt (h.trans_lt hn)).trans h

/-- A command keeps every operand that is not one of its destinations (R26, R52). -/
theorem Completed.readInt_eq (h : Completed s t dests cf) (hr : r ∉ dests) (w : Width) :
    t.readInt w r = s.readInt w r :=
  readInt_congr (h.others r hr) w

theorem Completed.readInt_eq_of_one (h : Completed s t [rd] cf) (hrd : rd ≠ r) (w : Width) :
    t.readInt w r = s.readInt w r :=
  h.readInt_eq (by simp [hrd.symm]) w

theorem Completed.readInt_eq_of_two (h : Completed s t [rd, rd2] cf) (hrd : rd ≠ r) (hrd2 : rd2 ≠ r) (w : Width) :
    t.readInt w r = s.readInt w r :=
  h.readInt_eq (by simp [hrd.symm, hrd2.symm]) w

end Operands

/-! ### A carry chain (R57) -/

/-- Wrapping a sum of two N-bit values and a carry takes off 2^N exactly when CF is set. -/
theorem mod_add_mul_carry {B n : ℕ} (h : n < 2 * B) : n % B + B * (decide (B ≤ n)).toNat = n := by
  by_cases hcarry : B ≤ n
  · have hrest : n % B = n - B := by rw [Nat.mod_eq_sub_mod hcarry, Nat.mod_eq_of_lt (by omega)]
    rw [hrest, decide_eq_true hcarry, Bool.toNat_true, mul_one, Nat.sub_add_cancel hcarry]
  · rw [Nat.mod_eq_of_lt (not_le.1 hcarry), decide_eq_false hcarry, Bool.toNat_false, mul_zero, add_zero]

/-- Wrapping a difference of N-bit values and a borrow adds 2^N exactly when CF is set. -/
theorem sub_emod_eq_add_mul_borrow {B a b : ℕ} (ha : a < B) (hb : b ≤ B) :
    ((a : ℤ) - b) % B = a - b + B * (decide (a < b)).toNat := by
  by_cases hborrow : a < b
  · rw [decide_eq_true hborrow, Bool.toNat_true, Nat.cast_one, mul_one, ← Int.add_emod_right,
      Int.emod_eq_of_lt (by omega) (by omega)]
  · rw [decide_eq_false hborrow, Bool.toNat_false, Nat.cast_zero, mul_zero, add_zero,
      Int.emod_eq_of_lt (by omega) (by omega)]

section Chain

variable {w : Width} {s t : State} {rd : RegId}

/-- The result and CF of an addition make up its exact sum (R58, R59). -/
theorem readInt_add_mul_cf {n : ℕ} (hreg : (t.reg rd).toNat = n % 2 ^ bits w) (hcf : t.cf = decide (2 ^ bits w ≤ n))
    (hn : n < 2 * 2 ^ bits w) : t.readInt w rd + 2 ^ bits w * t.cf.toNat = n := by
  rw [readInt_eq_of_toNat_eq hreg (Nat.mod_lt _ (Nat.two_pow_pos _)), hcf, mod_add_mul_carry hn]

/-- The result and CF of a subtraction make up its exact difference (R60, R61). -/
theorem readInt_add_eq_add_mul_cf {a b : ℕ} (hreg : ((t.reg rd).toNat : ℤ) = ((a : ℤ) - b) % (2 ^ bits w : ℕ))
    (hcf : t.cf = decide (a < b)) (ha : a < 2 ^ bits w) (hb : b ≤ 2 ^ bits w) :
    t.readInt w rd + b = a + 2 ^ bits w * t.cf.toNat := by
  have hfits : (t.reg rd).toNat < 2 ^ bits w := by
    have hlt := Int.emod_lt_of_pos ((a : ℤ) - b) (Int.natCast_pos.2 (Nat.two_pow_pos (bits w)))
    omega
  rw [sub_emod_eq_add_mul_borrow ha hb, ← hcf] at hreg
  rw [readInt_eq_toNat_of_lt hfits]
  zify
  rw [hreg]
  push_cast
  ring

end Chain

section Link

variable (w : Width) {rl rh x1 y1 : RegId} (x0 y0 : RegId) (s : State)

theorem add_then_adc (hrl : rl ≠ rh) (hx1 : rl ≠ x1) (hy1 : rl ≠ y1) :
    ∃ t u, exec (.add w rl x0 y0) s = .next t ∧ exec (.adc w rh x1 y1) t = .next u ∧
      u.readPair w rl rh + 2 ^ bits w * 2 ^ bits w * u.cf.toNat = s.readPair w x0 x1 + s.readPair w y0 y1 := by
  obtain ⟨-, t, hadd, hlow, hfirst⟩ := addWritesSumAndCarry w rl x0 y0 s
  obtain ⟨-, u, hadc, hhigh, hsecond⟩ := adcWritesSumWithCarryIn w rh x1 y1 t
  have hx1t := hfirst.readInt_eq_of_one hx1 w
  have hy1t := hfirst.readInt_eq_of_one hy1 w
  have hrlu := hsecond.readInt_eq_of_one hrl.symm w
  have hlowSum : t.readInt w rl + 2 ^ bits w * t.cf.toNat = s.readInt w x0 + s.readInt w y0 :=
    readInt_add_mul_cf hlow hfirst.carry (by rw [two_mul]; exact add_lt_add (readInt_lt s w x0) (readInt_lt s w y0))
  have hhighSum : u.readInt w rh + 2 ^ bits w * u.cf.toNat = s.readInt w x1 + s.readInt w y1 + t.cf.toNat := by
    rw [← hx1t, ← hy1t]
    have hx1lt := readInt_lt t w x1
    have hy1lt := readInt_lt t w y1
    have hcf := t.cf.toNat_le
    exact readInt_add_mul_cf hhigh hsecond.carry (by omega)
  refine ⟨t, u, hadd, hadc, ?_⟩
  rw [State.readPair_eq, State.readPair_eq, State.readPair_eq, hrlu]
  zify at hlowSum hhighSum ⊢
  linear_combination hlowSum + (2 : ℤ) ^ bits w * hhighSum

theorem sub_then_sbb (hrl : rl ≠ rh) (hx1 : rl ≠ x1) (hy1 : rl ≠ y1) :
    ∃ t u, exec (.sub w rl x0 y0) s = .next t ∧ exec (.sbb w rh x1 y1) t = .next u ∧
      u.readPair w rl rh + s.readPair w y0 y1 = s.readPair w x0 x1 + 2 ^ bits w * 2 ^ bits w * u.cf.toNat := by
  obtain ⟨-, t, hsub, hlow, hfirst⟩ := subWritesDifferenceAndBorrow w rl x0 y0 s
  obtain ⟨-, u, hsbb, hhigh, hsecond⟩ := sbbWritesDifferenceWithBorrowIn w rh x1 y1 t
  have hx1t := hfirst.readInt_eq_of_one hx1 w
  have hy1t := hfirst.readInt_eq_of_one hy1 w
  have hrlu := hsecond.readInt_eq_of_one hrl.symm w
  have hlowDiff : t.readInt w rl + s.readInt w y0 = s.readInt w x0 + 2 ^ bits w * t.cf.toNat :=
    readInt_add_eq_add_mul_cf hlow hfirst.carry (readInt_lt s w x0) (readInt_lt s w y0).le
  have hhighDiff : u.readInt w rh + (s.readInt w y1 + t.cf.toNat) = s.readInt w x1 + 2 ^ bits w * u.cf.toNat := by
    rw [← hx1t, ← hy1t]
    rw [sub_sub, ← Nat.cast_add] at hhigh
    have hy1lt := readInt_lt t w y1
    have hcf := t.cf.toNat_le
    exact readInt_add_eq_add_mul_cf hhigh hsecond.carry (readInt_lt t w x1) (by omega)
  refine ⟨t, u, hsub, hsbb, ?_⟩
  rw [State.readPair_eq, State.readPair_eq, State.readPair_eq, hrlu]
  zify at hlowDiff hhighDiff ⊢
  linear_combination hlowDiff + (2 : ℤ) ^ bits w * hhighDiff

end Link

/-- Settles O7: the second command adds or subtracts what the first one carried or borrowed. -/
theorem carryChainsDoubleTheWidth : Obligations.CarryChainsDoubleTheWidth := by
  unfold Obligations.CarryChainsDoubleTheWidth
  intro w rl rh x0 x1 y0 y1 s hrl hx1 hy1
  exact ⟨add_then_adc w x0 y0 s hrl hx1 hy1, sub_then_sbb w x0 y0 s hrl hx1 hy1⟩

/-! ### A pair of shifts (R77) -/

section ShiftArithmetic

variable {N k : ℕ}

theorem mul_two_pow_div_lt {a : ℕ} (ha : a < 2 ^ N) : a * 2 ^ k / 2 ^ N < 2 ^ k :=
  Nat.div_lt_of_lt_mul (Nat.mul_lt_mul_of_pos_right ha (Nat.two_pow_pos k))

/-- The bits shifted in from the low half lie below those of the shifted high half, so ORing them in adds them. -/
theorem shl_mod_or_eq_add (a : ℕ) {c : ℕ} (hk : k ≤ N) (hc : c < 2 ^ k) :
    a * 2 ^ k % 2 ^ N ||| c = a * 2 ^ k % 2 ^ N + c := by
  have hmod : a * 2 ^ k % 2 ^ N = 2 ^ k * (a % 2 ^ (N - k)) := by
    rw [mul_comm a, ← Nat.mul_mod_mul_left, pow_mul_pow_sub 2 hk]
  rw [hmod, Nat.two_pow_add_eq_or_of_lt hc]

/-- The bits shifted in from the high half lie above those of the shifted low half, so ORing them in adds them. -/
theorem shr_or_eq_add {a : ℕ} (c : ℕ) (hk : k ≤ N) (ha : a < 2 ^ N) :
    a / 2 ^ k ||| c * 2 ^ (N - k) = a / 2 ^ k + c * 2 ^ (N - k) := by
  have hlow : a / 2 ^ k < 2 ^ (N - k) := Nat.div_lt_of_lt_mul (by rwa [pow_mul_pow_sub 2 hk])
  rw [Nat.or_comm, mul_comm c, ← Nat.two_pow_add_eq_or_of_lt hlow, add_comm]

/-- A left shift of a 2N-bit value, by its halves. -/
theorem shl_halves_eq {lo : ℕ} (hi : ℕ) (hk : k ≤ N) (hlo : lo < 2 ^ N) :
    lo * 2 ^ k % 2 ^ N + 2 ^ N * (hi * 2 ^ k % 2 ^ N ||| lo * 2 ^ k / 2 ^ N) =
      (lo + 2 ^ N * hi) * 2 ^ k % (2 ^ N * 2 ^ N) := by
  have hspilled : lo * 2 ^ k / 2 ^ N < 2 ^ k := mul_two_pow_div_lt hlo
  have hor := shl_mod_or_eq_add hi hk hspilled
  have hfits : hi * 2 ^ k % 2 ^ N + lo * 2 ^ k / 2 ^ N < 2 ^ N :=
    hor ▸ Nat.or_lt_two_pow (Nat.mod_lt _ (Nat.two_pow_pos N)) (hspilled.trans_le (Nat.pow_le_pow_right Nat.two_pos hk))
  have hhigh : (hi * 2 ^ k + lo * 2 ^ k / 2 ^ N) % 2 ^ N = hi * 2 ^ k % 2 ^ N + lo * 2 ^ k / 2 ^ N := by
    rw [← Nat.mod_add_mod, Nat.mod_eq_of_lt hfits]
  rw [hor, ← hhigh, add_mul, mul_assoc, Nat.mod_mul, Nat.add_mul_mod_self_left,
    Nat.add_mul_div_left _ _ (Nat.two_pow_pos N), add_comm (hi * 2 ^ k)]

/-- A right shift of a 2N-bit value, by its halves. -/
theorem shr_halves_eq {lo : ℕ} (hi : ℕ) (hk : k ≤ N) (hlo : lo < 2 ^ N) :
    (lo / 2 ^ k ||| hi % 2 ^ k * 2 ^ (N - k)) + 2 ^ N * (hi / 2 ^ k) = (lo + 2 ^ N * hi) / 2 ^ k := by
  have hsplit : 2 ^ N = 2 ^ k * 2 ^ (N - k) := (pow_mul_pow_sub 2 hk).symm
  have hhi : 2 ^ (N - k) * hi = hi % 2 ^ k * 2 ^ (N - k) + 2 ^ N * (hi / 2 ^ k) :=
    calc 2 ^ (N - k) * hi = 2 ^ (N - k) * (hi % 2 ^ k + 2 ^ k * (hi / 2 ^ k)) := by rw [Nat.mod_add_div]
      _ = hi % 2 ^ k * 2 ^ (N - k) + 2 ^ N * (hi / 2 ^ k) := by rw [hsplit]; ring
  rw [shr_or_eq_add _ hk hlo, add_assoc, ← hhi, hsplit, mul_assoc, Nat.add_mul_div_left _ _ (Nat.two_pow_pos k)]

end ShiftArithmetic

section ShiftPairs

variable {w : Width} {s : State} {lo hi p c p' d k : RegId}

theorem wshl_then_cshl (hk : s.readInt w k < bits w) (hpc : p ≠ c) (hpd : p' ≠ d) (hp' : p' ≠ p) (hd : d ≠ p)
    (hpk : p ≠ k) (hck : c ≠ k) (hphi : p ≠ hi) (hchi : c ≠ hi) :
    ∃ t u, exec (.wshl w p c lo k) s = .next t ∧ exec (.cshl w p' d hi k c) t = .next u ∧
      u.readPair w p p' = s.readPair w lo hi * 2 ^ s.readInt w k % (2 ^ bits w * 2 ^ bits w) := by
  obtain ⟨⟨-, -, hwiden⟩, -⟩ := wideningShiftsKeepSpilledBits w p c lo k s hpc
  obtain ⟨t, hwshl, hlow, hspilled, hfirst⟩ := hwiden hk
  have hkt := hfirst.readInt_eq_of_two hpk hck w
  have hhit := hfirst.readInt_eq_of_two hphi hchi w
  obtain ⟨⟨-, -, hcarry⟩, -⟩ := carryingShiftsOrInTheCarry w p' d hi k c t hpd
  obtain ⟨u, hcshl, hhigh, -, hsecond⟩ := hcarry (hkt.trans_lt hk)
  have hp : u.readInt w p = s.readInt w lo * 2 ^ s.readInt w k % 2 ^ bits w :=
    (hsecond.readInt_eq_of_two hp' hd w).trans (readInt_eq_of_toNat_eq hlow (lowHalf_lt w _))
  have hc : t.readInt w c = s.readInt w lo * 2 ^ s.readInt w k / 2 ^ bits w :=
    readInt_eq_of_toNat_eq hspilled (highHalf_shiftedLeft_lt (readInt_lt s w lo) hk.le)
  have hor := readInt_eq_of_toNat_eq hhigh (Nat.or_lt_two_pow (lowHalf_lt w _) (readInt_lt t w c))
  refine ⟨t, u, hwshl, hcshl, ?_⟩
  rw [State.readPair_eq, hp, hor, hkt, hhit, hc]
  exact shl_halves_eq _ hk.le (readInt_lt s w lo)

theorem wshr_then_cshr (hk : s.readInt w k < bits w) (hpc : p ≠ c) (hpd : p' ≠ d) (hp' : p' ≠ p) (hd : d ≠ p)
    (hpk : p ≠ k) (hck : c ≠ k) (hplo : p ≠ lo) (hclo : c ≠ lo) :
    ∃ t u, exec (.wshr w p c hi k) s = .next t ∧ exec (.cshr w p' d lo k c) t = .next u ∧
      u.readPair w p' p = s.readPair w lo hi / 2 ^ s.readInt w k := by
  obtain ⟨-, -, -, hwiden⟩ := wideningShiftsKeepSpilledBits w p c hi k s hpc
  obtain ⟨t, hwshr, hhigh, hspilled, hfirst⟩ := hwiden hk
  have hkt := hfirst.readInt_eq_of_two hpk hck w
  have hlot := hfirst.readInt_eq_of_two hplo hclo w
  obtain ⟨-, -, -, hcarry⟩ := carryingShiftsOrInTheCarry w p' d lo k c t hpd
  obtain ⟨u, hcshr, hlow, -, hsecond⟩ := hcarry (hkt.trans_lt hk)
  have hshr (r : State) (i : RegId) (n : ℕ) : r.readInt w i / 2 ^ n < 2 ^ bits w :=
    (Nat.div_le_self _ _).trans_lt (readInt_lt r w i)
  have hp : u.readInt w p = s.readInt w hi / 2 ^ s.readInt w k :=
    (hsecond.readInt_eq_of_two hp' hd w).trans (readInt_eq_of_toNat_eq hhigh (hshr s hi _))
  have hc : t.readInt w c = s.readInt w hi % 2 ^ s.readInt w k * 2 ^ (bits w - s.readInt w k) :=
    readInt_eq_of_toNat_eq hspilled (lowHalf_shiftedRight (w := w) _ hk.le ▸ lowHalf_lt w _)
  have hor := readInt_eq_of_toNat_eq hlow (Nat.or_lt_two_pow (hshr t lo _) (readInt_lt t w c))
  refine ⟨t, u, hwshr, hcshr, ?_⟩
  rw [State.readPair_eq, hp, hor, hkt, hlot, hc]
  exact shr_halves_eq _ hk.le (readInt_lt s w lo)

end ShiftPairs

/-- Settles O18: the second command ORs in the bits that the first one pushed out. -/
theorem pairOfShiftsShiftsTwiceTheWidth : Obligations.PairOfShiftsShiftsTwiceTheWidth := by
  unfold Obligations.PairOfShiftsShiftsTwiceTheWidth
  intro w lo hi k p c p' d s hk hpc hpd hp' hd hpk hck
  exact ⟨wshl_then_cshl hk hpc hpd hp' hd hpk hck, wshr_then_cshr hk hpc hpd hp' hd hpk hck⟩

end Sys2Proof.Machine
end

section
/-! The testable identities of the float operations (44_float_arith.md R108), read off the case tables over the
rationals. -/

namespace Sys2Proof.Machine

open Sys2Proof.Reference

/-! ### The classes of an infinity and of a negated float -/

theorem sgn_infOf (s : Bool) : sgn (infOf s) = s := sgn_packFields ..

theorem isInf_infOf (s : Bool) : isInf (infOf s) = true := by
  rw [isInf_iff, infOf, expField_packFields, fracField_packFields]
  exact ⟨rfl, rfl⟩

theorem isZero_infOf (s : Bool) : isZero (infOf s) = false := by
  rw [← Bool.not_eq_true, isZero_iff, infOf, expField_packFields]
  exact fun h => absurd h.1 (by decide)

theorem isInf_zeroOf (s : Bool) : isInf (zeroOf s) = false := isInf_of_isFinite (isFinite_zeroOf s)

/-- An infinity is the infinity of its sign. -/
theorem infOf_sgn {x : Packed} (h : isInf x = true) : infOf (sgn x) = x := by
  obtain ⟨he, hf⟩ := (isInf_iff x).1 h
  refine packed_ext (sgn_packFields ..) ?_ ?_
  · rw [infOf, expField_packFields, he]
    rfl
  · rw [infOf, fracField_packFields, hf]
    rfl

section Negated

variable (x : Packed)

theorem expField_negFloat : expField (negFloat x) = expField x := by
  rw [expField_eq, expField_eq, negFloat_toNat]
  omega

theorem fracField_negFloat : fracField (negFloat x) = fracField x := by
  rw [fracField_eq, fracField_eq, negFloat_toNat]
  omega

theorem isFinite_negFloat : isFinite (negFloat x) = isFinite x := by
  rw [Bool.eq_iff_iff, isFinite_iff, isFinite_iff, expField_negFloat]

theorem isInf_negFloat : isInf (negFloat x) = isInf x := by
  rw [Bool.eq_iff_iff, isInf_iff, isInf_iff, expField_negFloat, fracField_negFloat]

theorem isNaN_negFloat : isNaN (negFloat x) = isNaN x := isNaN_xor_signMask x

theorem valRat_negFloat : valRat (negFloat x) = -valRat x := by
  have hsig : sig (negFloat x) = sig x := by rw [sig_eq, sig_eq, expField_negFloat, fracField_negFloat]
  have hlast : lastExp (negFloat x) = lastExp x := by rw [lastExp_eq, lastExp_eq, expField_negFloat]
  rw [valRat, valRat, sgn_negFloat, hsig, hlast]
  cases sgn x <;> simp

end Negated

/-! ### The constants of 95_test_vectors.md -/

/-- 1.0. -/
def oneFloat : Packed := packFields false 262143 0

/-- MAX, the greatest finite float. -/
def maxFloat : Packed := packFields false 524286 (BitVec.allOnes 236)

/-- EPSILON, 2^-236. -/
def epsilonFloat : Packed := packFields false 261907 0

/-- The normal pattern of a pair whose leading bit is set (R95). -/
theorem finishRat_eq_packFields (s : Bool) {n q : ℤ} {e : BitVec 19} {f : BitVec 236} (hq : q ≤ 261907)
    (hn : 2 ^ 236 ≤ n) (he : BitVec.ofInt 19 (q + 236 + 262143) = e) (hf : BitVec.ofInt 236 (n - 2 ^ 236) = f) :
    finishRat s n q = packFields s e f := by
  rw [finishRat_of_le s n hq, if_pos hn, he, hf]

theorem oneFloat_eq : oneFloat = finishRat false (2 ^ 236) (-236) :=
  (finishRat_eq_packFields false (by decide) (by decide) (by decide) (by decide)).symm

theorem maxFloat_eq : maxFloat = finishRat false (2 ^ 237 - 1) 261907 :=
  (finishRat_eq_packFields false (by decide) (by decide) (by decide) (by decide)).symm

theorem epsilonFloat_eq : epsilonFloat = finishRat false (2 ^ 236) (-472) :=
  (finishRat_eq_packFields false (by decide) (by decide) (by decide) (by decide)).symm

theorem normalised_one : Normalised (2 ^ 236) (-236) := by constructor <;> decide

theorem normalised_max : Normalised (2 ^ 237 - 1) 261907 := by constructor <;> decide

theorem normalised_epsilon : Normalised (2 ^ 236) (-472) := by constructor <;> decide

theorem isFinite_oneFloat : isFinite oneFloat = true :=
  oneFloat_eq ▸ isFinite_finishRat normalised_one (by decide) false

theorem isFinite_maxFloat : isFinite maxFloat = true :=
  maxFloat_eq ▸ isFinite_finishRat normalised_max (by decide) false

theorem isFinite_epsilonFloat : isFinite epsilonFloat = true :=
  epsilonFloat_eq ▸ isFinite_finishRat normalised_epsilon (by decide) false

theorem sgn_oneFloat : sgn oneFloat = false := sgn_packFields ..

theorem valRat_oneFloat : valRat oneFloat = 1 := by
  rw [oneFloat_eq, valRat_finishRat normalised_one (by decide)]
  norm_num

theorem valRat_maxFloat : valRat maxFloat = (2 ^ 237 - 1 : ℤ) * (2 : ℚ) ^ (261907 : ℤ) := by
  rw [maxFloat_eq, valRat_finishRat normalised_max (by decide), if_neg Bool.false_ne_true, one_mul]

theorem valRat_epsilonFloat : valRat epsilonFloat = (2 : ℚ) ^ (-236 : ℤ) := by
  rw [epsilonFloat_eq, valRat_finishRat normalised_epsilon (by decide), if_neg Bool.false_ne_true, one_mul,
    Int.cast_pow, Int.cast_ofNat, ← zpow_natCast, ← zpow_add₀ two_ne_zero]
  rfl

theorem isZero_oneFloat : isZero oneFloat = false := by
  rw [← Bool.not_eq_true, ← valRat_eq_zero_iff isFinite_oneFloat, valRat_oneFloat]
  exact one_ne_zero

/-! ### Sums -/

theorem addRat_comm (x y : Packed) : addRat x y = addRat y x := by
  by_cases hnan : isNaN x = true ∨ isNaN y = true
  · rw [addRat, addRat, if_pos hnan, if_pos hnan.symm]
  · obtain ⟨hnx, hny⟩ := not_or.1 hnan
    by_cases hx : isInf x = true
    · by_cases hy : isInf y = true
      · by_cases hsgn : sgn x = sgn y
        · simp [addRat, hnx, hny, hx, hy, hsgn]
        · simp [addRat, hnx, hny, hx, hy, hsgn, Ne.symm hsgn]
      · simp [addRat, hnx, hny, hx, hy]
    · by_cases hy : isInf y = true
      · simp [addRat, hnx, hny, hx, hy]
      · have hxfin := isFinite_of_not hnx hx
        have hyfin := isFinite_of_not hny hy
        simp only [addRat_of_isFinite, hxfin, hyfin, add_comm, and_comm, Bool.and_comm]

/-- The sum of a finite float and its negation is +0 (R101). -/
theorem addFloat_negFloat {x : Packed} (h : isFinite x = true) : addFloat x (negFloat x) = zeroOf false := by
  have hneg : isFinite (negFloat x) = true := (isFinite_negFloat x).trans h
  have hsum : valRat x + valRat (negFloat x) = 0 := by rw [valRat_negFloat, add_neg_cancel]
  obtain ⟨hzero, -⟩ := exactZeroSumSign x (negFloat x) x h hneg h
  rw [hzero hsum, sgn_negFloat, Bool.and_assoc, Bool.and_not_self, Bool.and_false]

/-- Infinities of one sign add up to that infinity (R103). -/
theorem addRat_infOf (s : Bool) : addRat (infOf s) (infOf s) = infOf s := by
  simp [addRat, isNaN_infOf, isInf_infOf, sgn_infOf]

/-- An infinity less itself has no value (R103, R104). -/
theorem subFloat_infOf_self (s : Bool) : subFloat (infOf s) (infOf s) = qNaN := by
  have hsub : subFloat (infOf s) (infOf s) = addRat (infOf s) (negFloat (infOf s)) := addFloat_eq_addRat ..
  rw [hsub]
  simp [addRat, isNaN_negFloat, isInf_negFloat, sgn_negFloat, isNaN_infOf, isInf_infOf]

/-- The sum of finite floats, when it is positive. -/
theorem addRat_of_pos {x y : Packed} (hx : isFinite x = true) (hy : isFinite y = true)
    (hpos : 0 < valRat x + valRat y) : addRat x y = roundPackRat false (valRat x + valRat y) := by
  rw [addRat_of_isFinite hx hy, if_neg hpos.ne', decide_eq_false hpos.not_gt, abs_of_pos hpos]

theorem valRat_maxFloat_pos : 0 < valRat maxFloat := by
  rw [valRat_maxFloat]
  exact mul_pos (by norm_num) (zpow_pos two_pos _)

/-- Twice MAX is beyond the overflow bound (R96 (a)). -/
theorem addRat_max_max : addRat maxFloat maxFloat = infOf false := by
  have hpos := valRat_maxFloat_pos
  have hover : overflowBound ≤ valRat maxFloat + valRat maxFloat := by
    rw [overflowBound, valRat_maxFloat, ← add_mul]
    exact mul_le_mul_of_nonneg_right (by norm_num) (zpow_pos two_pos _).le
  rw [addRat_of_pos isFinite_maxFloat isFinite_maxFloat (add_pos hpos hpos), roundPackRat_of_le hover]

/-- A number less than one half away from an integer rounds to it (R11). -/
theorem rneRat_eq_of_abs_sub_lt {m : ℚ} {j : ℤ} (h : |m - j| < 1 / 2) : rneRat m = j := by
  by_contra hne
  have hnear := abs_sub_rneRat_le_half m
  have hfar := one_sub_le_abs_sub (m := m) (Ne.symm hne)
  linarith

/-- A pair with its leading bit set absorbs whatever is less than half its ULP. -/
theorem Normalised.roundPackRat_add_eq {n q : ℤ} (h : Normalised n q) (hlead : 2 ^ 236 ≤ n) {d : ℚ} (hd : 0 < d)
    (hhalf : d < 1 / 2 * (2 : ℚ) ^ q) (s : Bool) : roundPackRat s ((n : ℚ) * (2 : ℚ) ^ q + d) = finishRat s n q := by
  have hp : (0 : ℚ) < (2 : ℚ) ^ q := zpow_pos two_pos q
  have hlead' : (2 : ℚ) ^ 236 ≤ n := by exact_mod_cast hlead
  have hfits' : (n : ℚ) + 1 ≤ 2 ^ 237 := by exact_mod_cast h.fits
  have hlow : (2 : ℚ) ^ (q + 236) ≤ n * (2 : ℚ) ^ q := by
    rw [add_comm, zpow_add₀ two_ne_zero]
    exact mul_le_mul_of_nonneg_right hlead' hp.le
  have hhigh : (n : ℚ) * (2 : ℚ) ^ q + 2 ^ q ≤ (2 : ℚ) ^ (q + 237) := by
    rw [← add_one_mul, add_comm q, zpow_add₀ two_ne_zero]
    exact mul_le_mul_of_nonneg_right hfits' hp.le
  have hpos : 0 < (n : ℚ) * (2 : ℚ) ^ q + d := add_pos ((zpow_pos two_pos _).trans_le hlow) hd
  have hulp : ulpExp ((n : ℚ) * (2 : ℚ) ^ q + d) = q :=
    ulpExp_eq_of_bounds hpos h.least (by linarith) fun _ => by linarith
  have hround : rneRat (((n : ℚ) * (2 : ℚ) ^ q + d) / (2 : ℚ) ^ q) = n := by
    apply rneRat_eq_of_abs_sub_lt
    rw [add_div, mul_div_cancel_right₀ _ hp.ne', add_sub_cancel_left, abs_of_pos (div_pos hd hp), div_lt_iff₀ hp]
    exact hhalf
  rw [roundPackRat, hulp, hround, if_neg h.fits.ne]

/-- EPSILON is below half an ULP of MAX. -/
theorem addRat_max_epsilon : addRat maxFloat epsilonFloat = maxFloat := by
  have heps : 0 < valRat epsilonFloat := valRat_epsilonFloat ▸ zpow_pos two_pos _
  have hhalf : valRat epsilonFloat < 1 / 2 * (2 : ℚ) ^ (261907 : ℤ) := by
    rw [valRat_epsilonFloat, one_div, ← zpow_neg_one, ← zpow_add₀ two_ne_zero]
    exact zpow_lt_zpow_right₀ one_lt_two (by norm_num)
  rw [addRat_of_pos isFinite_maxFloat isFinite_epsilonFloat (add_pos valRat_maxFloat_pos heps), valRat_maxFloat,
    normalised_max.roundPackRat_add_eq (by norm_num) heps hhalf, maxFloat_eq]

/-! ### Products -/

/-- Every condition of R105 and every result is symmetric in the operands. -/
theorem mulRat_comm (x y : Packed) : mulRat x y = mulRat y x := by
  simp only [mulRat, or_comm, and_comm, Bool.xor_comm, mul_comm]

/-- 1.0 is neutral for every float but a NaN (R105). -/
theorem mulRat_one {x : Packed} (h : isNaN x = false) : mulRat x oneFloat = x := by
  by_cases hinf : isInf x = true
  · have hnan := isNaN_of_isFinite isFinite_oneFloat
    have hone := isInf_of_isFinite isFinite_oneFloat
    simp [mulRat, h, hnan, hone, hinf, isZero_oneFloat, sgn_oneFloat, infOf_sgn]
  · have hfin := isFinite_of_not (Bool.eq_false_iff.1 h) hinf
    rw [mulRat_of_isFinite hfin isFinite_oneFloat, sgn_oneFloat, Bool.xor_false, valRat_oneFloat, abs_one, mul_one]
    by_cases hzero : isZero x = true
    · rw [if_pos (.inl hzero), zeroOf_sgn hzero]
    · have hzero' := Bool.eq_false_iff.2 hzero
      rw [if_neg (by simp [hzero', isZero_oneFloat]), abs_valRat, roundPackRat_of_isFinite hfin hzero']

/-- Zero times an infinity has no value (R105). -/
theorem mulRat_zero_inf (a b : Bool) : mulRat (zeroOf a) (infOf b) = qNaN := by
  simp [mulRat, isNaN_zeroOf, isNaN_infOf, isInf_infOf, isZero_zeroOf]

/-! ### Quotients -/

/-- 1.0 is the rounding of its own value. -/
theorem roundPackRat_one : roundPackRat false 1 = oneFloat := by
  have h := roundPackRat_valRat isFinite_oneFloat isZero_oneFloat
  rwa [valRat_oneFloat, abs_one, decide_eq_false zero_le_one.not_gt] at h

/-- A finite non-zero float divided by itself (R106). -/
theorem divRat_self {x : Packed} (hfin : isFinite x = true) (hzero : isZero x = false) : divRat x x = oneFloat := by
  have hmag : |valRat x| ≠ 0 := (abs_valRat_pos (sig_pos hfin hzero)).ne'
  simp [divRat, isNaN_of_isFinite hfin, isInf_of_isFinite hfin, hzero, div_self hmag, roundPackRat_one]

/-- Zero divided by zero has no value (R106). -/
theorem divRat_zero_zero (a b : Bool) : divRat (zeroOf a) (zeroOf b) = qNaN := by
  simp [divRat, isNaN_zeroOf, isInf_zeroOf, isZero_zeroOf]

theorem divRat_one_inf : divRat oneFloat (infOf false) = zeroOf false := by
  simp [divRat, isNaN_of_isFinite, isInf_of_isFinite, isFinite_oneFloat, isZero_oneFloat, isNaN_infOf, isInf_infOf,
    sgn_oneFloat, sgn_infOf]

theorem divRat_one_zero : divRat oneFloat (zeroOf false) = infOf false := by
  simp [divRat, isNaN_of_isFinite, isInf_of_isFinite, isFinite_oneFloat, isZero_oneFloat, isNaN_zeroOf, isInf_zeroOf,
    isZero_zeroOf, sgn_oneFloat, sgn_zeroOf]

/-- Settles O34: the operations are the case tables over the rationals, on which each identity is a lemma above. -/
theorem floatIdentitiesHold : Obligations.FloatIdentitiesHold := by
  unfold Obligations.FloatIdentitiesHold
  refine ⟨fun x => addFloat_negFloat, fun x h => ?_, fun x hfin hzero => ?_, fun x y => ?_, fun x y => ?_, fun s => ?_,
    subFloat_infOf_self, fun a b => ?_, fun a b => ?_, ?_, ?_, ?_, ?_⟩
  · exact (mulFloat_eq_mulRat ..).trans (mulRat_one h)
  · exact (divFloat_eq_divRat ..).trans (divRat_self hfin hzero)
  · rw [addFloat_eq_addRat, addFloat_eq_addRat, addRat_comm]
  · rw [mulFloat_eq_mulRat, mulFloat_eq_mulRat, mulRat_comm]
  · exact (addFloat_eq_addRat ..).trans (addRat_infOf s)
  · exact (divFloat_eq_divRat ..).trans (divRat_zero_zero a b)
  · rw [mulFloat_eq_mulRat, mulFloat_eq_mulRat, mulRat_comm (infOf b), and_self]
    exact mulRat_zero_inf a b
  · exact (divFloat_eq_divRat ..).trans divRat_one_inf
  · exact (divFloat_eq_divRat ..).trans divRat_one_zero
  · exact (addFloat_eq_addRat ..).trans addRat_max_max
  · exact (addFloat_eq_addRat ..).trans addRat_max_epsilon

end Sys2Proof.Machine
end
